-- ==== Sys2Proof/Word.lean ====
section
/-! DEFINITION. The word types of the core (R6, R9, R20): bytes, 16-bit words, the 32-bit status word. -/

namespace Sys2Proof

/-- One byte of memory, of the instruction stream, or one half of a dividable register (R6). -/
abbrev Byte := BitVec 8

/-- A 16-bit register value, offset or data word (R6). -/
abbrev Word := BitVec 16

/-- The 32-bit status word FLAGS (R34). -/
abbrev DWord := BitVec 32

end Sys2Proof
end

