-- ==== Sys2Proof/Config.lean ====
section
/-! DEFINITION. What an implementation fixes: the parameters of R7 as one plain record, the clock
table of R259, and the free values the spec leaves without a value. -/

namespace Sys2Proof

/-- INT_PUSH_ORDER (R7, R229, D16): the order of the three words an interrupt service pushes. -/
inductive PushOrder where
  | flagsCsIp
  | flagsIpCs
deriving DecidableEq, Repr, Inhabited

/-- DATA_SEG_MODE (R7, R101, D5): where a memory operand's segment value comes from. -/
inductive DataSegMode where
  | seg8086
  | defaultField
deriving DecidableEq, Repr, Inhabited

/-- CLOCK_TABLE (R7, R259, D26): the clock count of each instruction form, of each class of
effective address, and of the odd-word penalty. -/
structure ClockTable where
  /-- register, immediate (B0-BF). -/
  regImm : Nat
  /-- register to register (88-8B with mod = 11). -/
  regReg : Nat
  /-- register to memory (88, 89 with mod ≠ 11), before the EA clocks. -/
  regToMem : Nat
  /-- memory to register (8A, 8B with mod ≠ 11), before the EA clocks. -/
  memToReg : Nat
  /-- memory to accumulator (A0, A1). -/
  memToAcc : Nat
  /-- accumulator to memory (A2, A3). -/
  accToMem : Nat
  /-- EA: direct disp16. -/
  eaDirect : Nat
  /-- EA: [SI], [DI], [BX]. -/
  eaSingle : Nat
  /-- EA: [BX+SI], [BP+DI]. -/
  eaPairFast : Nat
  /-- EA: [BX+DI], [BP+SI]. -/
  eaPairSlow : Nat
  /-- EA: [SI+d], [DI+d], [BP+d], [BX+d]. -/
  eaSingleDisp : Nat
  /-- EA: [BX+SI+d], [BP+DI+d]. -/
  eaPairFastDisp : Nat
  /-- EA: [BX+DI+d], [BP+SI+d]. -/
  eaPairSlowDisp : Nat
  /-- Added by a word transfer to or from an odd linear address. -/
  oddWord : Nat
deriving DecidableEq, Repr, Inhabited

/-- The default of CLOCK_TABLE: the table of R259. -/
def ClockTable.published : ClockTable where
  regImm := 4
  regReg := 2
  regToMem := 9
  memToReg := 8
  memToAcc := 10
  accToMem := 10
  eaDirect := 6
  eaSingle := 5
  eaPairFast := 7
  eaPairSlow := 8
  eaSingleDisp := 9
  eaPairFastDisp := 11
  eaPairSlowDisp := 12
  oddWord := 4

/-- The open parameters of R7 that are data of the machine, fixed while it runs. A state carries one
(DESIGN CHOICE, safe: log entry 1), so a claim about every state holds for every choice of them. MEM_INIT
is the memory a state starts with, PIC the answers a state holds, and INT_CLOCKS is `Config.intClocks`. -/
structure Config where
  /-- MEM_SIZE (D35), at least 1. -/
  memSize : Nat
  /-- INT_PUSH_ORDER (D16). -/
  pushOrder : PushOrder
  /-- INT_GATED_BY_IF (D15). -/
  intGatedByIf : Bool
  /-- INT_CLEARS_IF_TF (D17). -/
  intClearsIfTf : Bool
  /-- DATA_SEG_MODE (D5). -/
  dataSegMode : DataSegMode
  /-- CLOCK_TABLE (D26). -/
  clocks : ClockTable
deriving DecidableEq, Repr, Inhabited

/-- The defaults the spec's own test vectors use (R7). -/
def Config.vectorDefault : Config where
  memSize := 0x100000
  pushOrder := .flagsCsIp
  intGatedByIf := false
  intClearsIfTf := false
  dataSegMode := .seg8086
  clocks := ClockTable.published

/-- What the spec requires of the parameters: MEM_SIZE is at least 1 (R7), and the one normative clock
count is the source's, 4 for B8 (R259, R260); the table's one entry for B0-BF is DESIGN CHOICE, unsafe:
log entry 12. -/
abbrev Config.ok (c : Config) : Prop := 1 ≤ c.memSize ∧ c.clocks.regImm = 4

/-- INT_CLOCKS (R7, R146, D26): a natural number the spec leaves open and gives no default; no value of it
can be proved (DESIGN CHOICE, safe: log entry 8). -/
opaque Config.intClocks : Nat

/-- The draws of R196 (D25): the value a flag takes where the ALU leaves it undetermined, one per number
of draws made before; no value of it can be proved (DESIGN CHOICE, safe: log entry 7). -/
opaque Config.freeFlag : Nat → Bool

end Sys2Proof
end

