-- ==== Sys2Proof/Syntax.lean ====
section
/-! DEFINITION. The instructions: registers, memory operands, and one constructor of `Instr` for each row
of spec/opcode_table.json. -/

namespace Sys2Proof

/-- The eight 16-bit registers an operand can name (R98, w = 1). -/
inductive Reg16 where
  | ax | cx | dx | bx | sp | bp | si | di
deriving DecidableEq, Repr

/-- The eight 8-bit halves an operand can name (R31, R98 with w = 0). -/
inductive Reg8 where
  | al | cl | dl | bl | ah | ch | dh | bh
deriving DecidableEq, Repr

/-- What a memory operand's offset is computed from, by the rm field (R99). -/
inductive EaBase where
  | bxSi | bxDi | bpSi | bpDi | si | di | bp | bx
deriving DecidableEq, Repr

/-- The memory forms of the ModRM byte (R96, R99). -/
inductive MemOperand where
  /-- mod = 00, rm = 110: a 16-bit direct address. -/
  | direct (addr : Word)
  /-- mod = 00, rm ≠ 110: no displacement. -/
  | base (b : EaBase)
  /-- mod = 01: an 8-bit displacement, sign-extended (R97). -/
  | disp8 (b : EaBase) (d : Byte)
  /-- mod = 10: a 16-bit displacement. -/
  | disp16 (b : EaBase) (d : Word)
deriving DecidableEq, Repr

/-- The operand the mod and rm fields name: a register (mod = 11) or memory (R160). -/
inductive RegMem (ρ : Type) where
  | reg (r : ρ)
  | mem (m : MemOperand)
deriving DecidableEq, Repr

/-- The instructions of this version, one constructor per row of the opcode table, in its order. -/
inductive Instr where
  /-- 0x88, R161: MOV r/m8, r8. -/
  | movRm8R8 (dst : RegMem Reg8) (src : Reg8)
  /-- 0x89, R162: MOV r/m16, r16. -/
  | movRm16R16 (dst : RegMem Reg16) (src : Reg16)
  /-- 0x8A, R163: MOV r8, r/m8. -/
  | movR8Rm8 (dst : Reg8) (src : RegMem Reg8)
  /-- 0x8B, R164: MOV r16, r/m16. -/
  | movR16Rm16 (dst : Reg16) (src : RegMem Reg16)
  /-- 0xA0, R165: MOV AL, [addr16]. -/
  | movAlMem (addr : Word)
  /-- 0xA1, R166: MOV AX, [addr16]. -/
  | movAxMem (addr : Word)
  /-- 0xA2, R167: MOV [addr16], AL. -/
  | movMemAl (addr : Word)
  /-- 0xA3, R168: MOV [addr16], AX. -/
  | movMemAx (addr : Word)
  /-- 0xB0-0xB7, R169: MOV r8, imm8. -/
  | movR8Imm8 (dst : Reg8) (imm : Byte)
  /-- 0xB8-0xBF, R170: MOV r16, imm16. -/
  | movR16Imm16 (dst : Reg16) (imm : Word)
deriving DecidableEq, Repr

end Sys2Proof
end

