-- ==== Sys2Proof/WellFormed.lean ====
section
/-! DEFINITION. Which terms of the syntax are instructions. -/

namespace Sys2Proof

/-- There is no plain [BP] form: mod = 00 with rm = 110 is the direct address (R96, R99, R163). -/
def MemOperand.wf (m : MemOperand) : Bool := decide (m ≠ .base .bp)

/-- A register operand is always well formed. -/
def RegMem.wf {ρ : Type} : RegMem ρ → Bool
  | .reg _ => true
  | .mem m => m.wf

/-- The check, one case per constructor. Register numbers, displacements, addresses and immediates
have no ill-formed value: their types are exactly the fields of R92 to R94. -/
def Instr.wf : Instr → Bool
  | .movRm8R8 dst _ => dst.wf
  | .movRm16R16 dst _ => dst.wf
  | .movR8Rm8 _ src => src.wf
  | .movR16Rm16 _ src => src.wf
  | .movAlMem _ => true
  | .movAxMem _ => true
  | .movMemAl _ => true
  | .movMemAx _ => true
  | .movR8Imm8 _ _ => true
  | .movR16Imm16 _ _ => true

/-- An instruction the encodings of R92 to R94 can spell. -/
abbrev Instr.WellFormed (i : Instr) : Prop := i.wf = true

end Sys2Proof
end

