-- ==== Sys2Proof/Decode.lean ====
section
/-! DEFINITION. The two-phase decoder of R130 to R140, total on any bytes, and the encoder of R112. -/

namespace Sys2Proof

/-! ### Bytes and words -/

/-- `lo + 256 * hi`: the little-endian word of two bytes (R67, R97, R102, R103). -/
def leWord (lo hi : Byte) : Word := hi ++ lo

/-- `v[7:0]` (R8). -/
def lowByte (v : Word) : Byte := v.extractLsb' 0 8

/-- `v[15:8]` (R8). -/
def highByte (v : Word) : Byte := v.extractLsb' 8 8

/-- `sext_16` (R9): the 16-bit sign extension of an 8-bit value. -/
def sext16 (v : Byte) : Word := v.signExtend 16

/-! ### Register numbers and addressing forms -/

/-- `R16(n)` (R98, w = 1). -/
def Reg16.ofNum (n : BitVec 3) : Reg16 :=
  match n.toNat with
  | 0 => .ax
  | 1 => .cx
  | 2 => .dx
  | 3 => .bx
  | 4 => .sp
  | 5 => .bp
  | 6 => .si
  | _ => .di

/-- The register number of a 16-bit register (R98). -/
def Reg16.num : Reg16 → BitVec 3
  | .ax => 0
  | .cx => 1
  | .dx => 2
  | .bx => 3
  | .sp => 4
  | .bp => 5
  | .si => 6
  | .di => 7

/-- `R8(n)` (R98, w = 0): numbers 100 to 111 are high halves, not SP to DI. -/
def Reg8.ofNum (n : BitVec 3) : Reg8 :=
  match n.toNat with
  | 0 => .al
  | 1 => .cl
  | 2 => .dl
  | 3 => .bl
  | 4 => .ah
  | 5 => .ch
  | 6 => .dh
  | _ => .bh

/-- The register number of an 8-bit half (R98). -/
def Reg8.num : Reg8 → BitVec 3
  | .al => 0
  | .cl => 1
  | .dl => 2
  | .bl => 3
  | .ah => 4
  | .ch => 5
  | .dh => 6
  | .bh => 7

/-- The base and index registers of rm in the memory forms (R99). -/
def EaBase.ofNum (rm : BitVec 3) : EaBase :=
  match rm.toNat with
  | 0 => .bxSi
  | 1 => .bxDi
  | 2 => .bpSi
  | 3 => .bpDi
  | 4 => .si
  | 5 => .di
  | 6 => .bp
  | _ => .bx

/-- The rm field of a base (R99). -/
def EaBase.num : EaBase → BitVec 3
  | .bxSi => 0
  | .bxDi => 1
  | .bpSi => 2
  | .bpDi => 3
  | .si => 4
  | .di => 5
  | .bp => 6
  | .bx => 7

/-- `displen(mod, rm)` (R96): "the single source of instruction-length variability". -/
def displen (mod : BitVec 2) (rm : BitVec 3) : Nat :=
  match mod.toNat with
  | 0 => if rm = 6 then 2 else 0
  | 1 => 1
  | 2 => 2
  | _ => 0

/-- The displacement value of R97, from the bytes q[2] and q[3]. -/
def dispValue (mod : BitVec 2) (rm : BitVec 3) (b3 b4 : Byte) : Word :=
  match displen mod rm with
  | 0 => 0
  | 1 => sext16 b3
  | _ => leWord b3 b4

/-! ### Phase 1 -/

/-- The instruction classes (R92 to R94, R130). -/
inductive InstrClass where
  | ir | ma | rm
deriving DecidableEq, Repr

/-- `isImmToReg` (R131): 0xB0-0xBF. -/
def isImmToReg (b : Byte) : Bool := b.extractLsb' 4 4 == 0b1011#4

/-- `isMemAcc` (R131): 0xA0-0xA3. -/
def isMemAcc (b : Byte) : Bool := b.extractLsb' 2 6 == 0b101000#6

/-- `isRegMemReg` (R131): 0x88-0x8B. -/
def isRegMemReg (b : Byte) : Bool := b.extractLsb' 2 6 == 0b100010#6

/-- What phase 1 reads from the opcode byte (R133): the class with the fields that are valid after it
(R130). For class IR the d field is not used and w and reg come from the opcode byte (R134, R109). -/
inductive PhaseOne where
  | ir (w : Bool) (reg : BitVec 3)
  | ma (d w : Bool)
  | rm (d w : Bool)
deriving DecidableEq, Repr

/-- Phase 1, `decode(b)` (R133). `none` is UnrecognizedOpcode(b) (R139): never a no-op, never skipped. -/
def phaseOne (b : Byte) : Option PhaseOne :=
  if isImmToReg b then some (.ir (b.getLsbD 3) (b.extractLsb' 0 3))
  else if isMemAcc b then some (.ma (b.getLsbD 1) (b.getLsbD 0))
  else if isRegMemReg b then some (.rm (b.getLsbD 1) (b.getLsbD 0))
  else none

/-! ### The Instruction value -/

/-- The decoded instruction as the source's data model has it (R130), by class: a field a class does not
have is absent. For class IR with w = 0 the immediate is the low byte of `imm`. -/
inductive InstructionValue where
  | ir (w : Bool) (reg : BitVec 3) (imm : Word)
  | ma (d w : Bool) (disp : Word)
  | rm (d w : Bool) (mod : BitVec 2) (reg rm : BitVec 3) (disp : Word)
deriving DecidableEq, Repr

namespace InstructionValue

/-- The class (R130). -/
def cls : InstructionValue → InstrClass
  | ir .. => .ir
  | ma .. => .ma
  | rm .. => .rm

/-- The opcode field, q[0][7:2] (R91, R130). -/
def opcode : InstructionValue → BitVec 6
  | ir w reg _ => 0b1011#4 ++ (BitVec.ofBool w ++ reg.extractLsb' 2 1)
  | ma .. => 0b101000#6
  | rm .. => 0b100010#6

/-- The direction bit, of classes RM and MA only (R130, R109). -/
def dir : InstructionValue → Option Bool
  | ir .. => none
  | ma d .. => some d
  | rm d .. => some d

/-- The width bit (R130). -/
def width : InstructionValue → Bool
  | ir w .. => w
  | ma _ w _ => w
  | rm _ w .. => w

/-- The reg field, of classes IR and RM (R130). -/
def regField : InstructionValue → Option (BitVec 3)
  | ir _ reg _ => some reg
  | ma .. => none
  | rm _ _ _ reg _ _ => some reg

/-- The mod field, of class RM (R130). -/
def modField : InstructionValue → Option (BitVec 2)
  | ir .. => none
  | ma .. => none
  | rm _ _ mod _ _ _ => some mod

/-- The rm field, of class RM (R130). -/
def rmField : InstructionValue → Option (BitVec 3)
  | ir .. => none
  | ma .. => none
  | rm _ _ _ _ r _ => some r

/-- The displacement of class RM, the direct address of class MA (R130). -/
def dispField : InstructionValue → Option Word
  | ir .. => none
  | ma _ _ disp => some disp
  | rm _ _ _ _ _ disp => some disp

/-- The immediate of class IR (R130). -/
def immField : InstructionValue → Option Word
  | ir _ _ imm => some imm
  | ma .. => none
  | rm .. => none

/-- The prefix list: always empty in this version (R107, R130). -/
def prefixes (_ : InstructionValue) : List Byte := []

/-- The length L (R104, R138). -/
def length : InstructionValue → Nat
  | ir w .. => if w then 3 else 2
  | ma .. => 3
  | rm _ _ mod _ r _ => 2 + displen mod r

end InstructionValue

/-! ### Phase 2 and the operand bytes -/

/-- Phase 2, `decode2(m, b3, b4)` (R95, R135), for class RM. -/
def phaseTwo (d w : Bool) (m b3 b4 : Byte) : InstructionValue :=
  let mod := m.extractLsb' 6 2
  let rm := m.extractLsb' 0 3
  .rm d w mod (m.extractLsb' 3 3) rm (dispValue mod rm b3 b4)

/-- The rest of decoding after phase 1: phase 2 for class RM (R135), the operand bytes for classes IR
and MA (R136, R102, R103). -/
def finishDecode (p : PhaseOne) (q1 q2 q3 : Byte) : InstructionValue :=
  match p with
  | .ir w reg => .ir w reg (if w then leWord q1 q2 else q1.setWidth 16)
  | .ma d w => .ma d w (leWord q1 q2)
  | .rm d w => phaseTwo d w q1 q2 q3

/-- Both phases over the bytes q[0] to q[3] of the queue (R137). -/
def decodeValue (q0 q1 q2 q3 : Byte) : Option InstructionValue :=
  (phaseOne q0).map fun p => finishDecode p q1 q2 q3

/-! ### From the Instruction value to the instruction it selects -/

/-- The operand named by mod and rm (R96, R99, R160). -/
def rmOperand {ρ : Type} (regOf : BitVec 3 → ρ) (mod : BitVec 2) (rm : BitVec 3) (disp : Word) :
    RegMem ρ :=
  match mod.toNat with
  | 0 => if rm = 6 then .mem (.direct disp) else .mem (.base (EaBase.ofNum rm))
  | 1 => .mem (.disp8 (EaBase.ofNum rm) (lowByte disp))
  | 2 => .mem (.disp16 (EaBase.ofNum rm) disp)
  | _ => .reg (regOf rm)

/-- The dispatch of R144: the class and, within it, the fields select one instruction. -/
def InstructionValue.toInstr : InstructionValue → Instr
  | .ir false reg imm => .movR8Imm8 (Reg8.ofNum reg) (lowByte imm)
  | .ir true reg imm => .movR16Imm16 (Reg16.ofNum reg) imm
  | .ma false false disp => .movAlMem disp
  | .ma false true disp => .movAxMem disp
  | .ma true false disp => .movMemAl disp
  | .ma true true disp => .movMemAx disp
  | .rm false false mod reg r disp => .movRm8R8 (rmOperand Reg8.ofNum mod r disp) (Reg8.ofNum reg)
  | .rm false true mod reg r disp =>
      .movRm16R16 (rmOperand Reg16.ofNum mod r disp) (Reg16.ofNum reg)
  | .rm true false mod reg r disp => .movR8Rm8 (Reg8.ofNum reg) (rmOperand Reg8.ofNum mod r disp)
  | .rm true true mod reg r disp =>
      .movR16Rm16 (Reg16.ofNum reg) (rmOperand Reg16.ofNum mod r disp)

/-- Why bytes are no instruction. -/
inductive DecodeError where
  /-- No class recognises the first byte (R106, R139). -/
  | unrecognizedOpcode (b : Byte)
  /-- The bytes given end before the instruction does. Never met by the step, whose queue holds six
  bytes (R137). -/
  | truncated
deriving DecidableEq, Repr

/-- The decoder over the first four bytes of the queue: the instruction and its length (R133 to R138). -/
def decode (q0 q1 q2 q3 : Byte) : Except DecodeError (Instr × Nat) :=
  match decodeValue q0 q1 q2 q3 with
  | some v => .ok (v.toInstr, v.length)
  | none => .error (.unrecognizedOpcode q0)

/-- The decoder over any byte string: the instruction and the bytes that follow it. -/
def decodeBytes (bs : List Byte) : Except DecodeError (Instr × List Byte) :=
  match bs with
  | [] => .error .truncated
  | q0 :: rest =>
    match decode q0 (rest.getD 0 0) (rest.getD 1 0) (rest.getD 2 0) with
    | .error e => .error e
    | .ok (i, len) => if len ≤ bs.length then .ok (i, bs.drop len) else .error .truncated

/-! ### The encoder -/

/-- The opcode byte of class IR: `0xB0 | (w << 3) | reg` (R112). -/
def irOpcode (w : Bool) (reg : BitVec 3) : Byte :=
  0xB0#8 ||| ((BitVec.ofBool w).setWidth 8 <<< 3) ||| reg.setWidth 8

/-- The opcode byte of class MA: `0xA0 | (d << 1) | w` (R112). -/
def maOpcode (d w : Bool) : Byte :=
  0xA0#8 ||| ((BitVec.ofBool d).setWidth 8 <<< 1) ||| (BitVec.ofBool w).setWidth 8

/-- The opcode byte of class RM: `0x88 | (d << 1) | w` (R112). -/
def rmOpcode (d w : Bool) : Byte :=
  0x88#8 ||| ((BitVec.ofBool d).setWidth 8 <<< 1) ||| (BitVec.ofBool w).setWidth 8

/-- The ModRM byte: `(mod << 6) | (reg << 3) | rm` (R112). -/
def modRmByte (mod : BitVec 2) (reg rm : BitVec 3) : Byte :=
  (mod.setWidth 8 <<< 6) ||| (reg.setWidth 8 <<< 3) ||| rm.setWidth 8

/-- The displacement bytes of a displacement of n bytes (R112). -/
def dispBytes (n : Nat) (disp : Word) : List Byte :=
  match n with
  | 0 => []
  | 1 => [lowByte disp]
  | _ => [lowByte disp, highByte disp]

/-- Re-assembly of an Instruction value (R112). -/
def InstructionValue.encode : InstructionValue → List Byte
  | .ir w reg imm => irOpcode w reg :: lowByte imm :: (if w then [highByte imm] else [])
  | .ma d w disp => [maOpcode d w, lowByte disp, highByte disp]
  | .rm d w mod reg r disp => rmOpcode d w :: modRmByte mod reg r :: dispBytes (displen mod r) disp

/-- The mod field that names an operand (R96, R99). -/
def RegMem.modField {ρ : Type} : RegMem ρ → BitVec 2
  | .reg _ => 3
  | .mem (.direct _) => 0
  | .mem (.base _) => 0
  | .mem (.disp8 ..) => 1
  | .mem (.disp16 ..) => 2

/-- The rm field that names an operand (R98, R99). -/
def RegMem.rmField {ρ : Type} (numOf : ρ → BitVec 3) : RegMem ρ → BitVec 3
  | .reg r => numOf r
  | .mem (.direct _) => 6
  | .mem (.base b) => b.num
  | .mem (.disp8 b _) => b.num
  | .mem (.disp16 b _) => b.num

/-- The displacement value of an operand (R97). -/
def RegMem.dispField {ρ : Type} : RegMem ρ → Word
  | .reg _ => 0
  | .mem (.direct a) => a
  | .mem (.base _) => 0
  | .mem (.disp8 _ d) => sext16 d
  | .mem (.disp16 _ d) => d

/-- The class RM value with the given direction, width and operands. -/
def rmValue {ρ : Type} (numOf : ρ → BitVec 3) (d w : Bool) (o : RegMem ρ) (r : ρ) : InstructionValue :=
  .rm d w o.modField (numOf r) (o.rmField numOf) o.dispField

/-- The Instruction value that spells an instruction, from the encodings of R92 to R94. -/
def Instr.toValue : Instr → InstructionValue
  | .movRm8R8 dst src => rmValue Reg8.num false false dst src
  | .movRm16R16 dst src => rmValue Reg16.num false true dst src
  | .movR8Rm8 dst src => rmValue Reg8.num true false src dst
  | .movR16Rm16 dst src => rmValue Reg16.num true true src dst
  | .movAlMem addr => .ma false false addr
  | .movAxMem addr => .ma false true addr
  | .movMemAl addr => .ma true false addr
  | .movMemAx addr => .ma true true addr
  | .movR8Imm8 dst imm => .ir false dst.num (imm.setWidth 16)
  | .movR16Imm16 dst imm => .ir true dst.num imm

/-- The bytes of an instruction (R112). -/
def encode (i : Instr) : List Byte := i.toValue.encode

/-- The length of an instruction in bytes (R104). -/
def Instr.length (i : Instr) : Nat := i.toValue.length

/-! ### The opcode table's numbering -/

/-- The longest instruction, in bytes (R90). -/
def maxLength : Nat := 4

/-- Byte k of an instruction whose bits are w, bit 0 the least significant bit of its first byte; the
bits above nbits are 0. -/
def tableByte (nbits w k : Nat) : Byte := BitVec.ofNat 8 (w % 2 ^ nbits / 2 ^ (8 * k))

/-- The instruction the decoder reads from the table's word w of nbits bits. -/
def decodeTableWord (nbits w : Nat) : Option Instr :=
  match decode (tableByte nbits w 0) (tableByte nbits w 1) (tableByte nbits w 2)
      (tableByte nbits w 3) with
  | .ok (i, _) => some i
  | .error _ => none

end Sys2Proof
end

