-- ==== Sys2Proof/Machine/State.lean ====
section
/-! DEFINITION. What the machine holds, why it can stop, and the state after reset (R54, R51, R220). -/

namespace Sys2Proof.Machine

/-- The components the boot configuration names (R254). -/
inductive Component where
  | bios | bootloader
deriving DecidableEq, Repr, Inhabited

/-- Why a boot configuration is refused (R223, R254). -/
inductive BootError where
  /-- The `.resource` key is missing. -/
  | resourceMissing
  /-- The resource cannot be read. -/
  | resourceUnreadable
  /-- The `.base` key is missing. -/
  | baseMissing
  /-- The value of `.base` is neither a decimal numeral nor `0x` followed by hexadecimal digits. -/
  | baseMalformed
  /-- The image does not fit: base + n > MEM_SIZE. -/
  | imageTooLarge
deriving DecidableEq, Repr, Inhabited

/-- The three error kinds of R220, each with what it carries. Every one is the spec's own, so a stop with
one is safe: the core does stop there. -/
inductive Fault where
  /-- An access reached a linear address outside memory (R65, R221). Raised by MemRead and MemWrite: the
  fetch burst, a MOV's data access, push, pop and the vector reads. Carries the first invalid address
  and the CS:IP of the step. Safe. -/
  | invalidAddress (addr : Nat) (cs ip : Word)
  /-- No class recognises the opcode byte (R139, R222). Raised by phase 1 of the decoder. Carries the
  byte and the CS:IP of the step. Safe. -/
  | unrecognizedOpcode (opcode : Byte) (cs ip : Word)
  /-- The boot configuration is missing or malformed, or an image does not fit (R223, R254). Raised by
  boot, before the first step. Safe. -/
  | configurationError (component : Component) (reason : BootError)
deriving DecidableEq, Repr, Inhabited

/-- The states the model gives no meaning (R13). The queue's two are the spec's own `refuse` entries
(U5, U7), and no step reaches them: the burst resets the queue and fills it with six bytes. -/
inductive Refusal where
  /-- The instruction has no meaning yet. No arm of exec answers it. Safe. -/
  | notModelled (mnemonic : String)
  /-- `fill` on a full queue (R45, U5; log entry 14). Raised by the queue's fill. Safe. -/
  | queueOverflow
  /-- A read of q[k] with k at or past the occupancy count (R44, U7; log entry 14). Raised by the
  decoder's queue reads. Safe. -/
  | queueUnderrun
deriving DecidableEq, Repr, Inhabited

/-- Memory as (linear address, byte) pairs in the canonical form of `Memory.wf` (R48). -/
abbrev Memory := List Host.Cell

/-- The instruction queue (R40): a ring of QUEUE_CAPACITY = 6 byte cells with head and tail cursors and an
occupancy count. -/
structure Queue where
  buf : Vector Byte 6
  head : Fin 6
  tail : Fin 6
  count : Fin 7
deriving DecidableEq, Repr, Inhabited

/-- The queue with both cursors at 0 and no byte in it, over the given cells (R41). -/
def Queue.empty (cells : Vector Byte 6) : Queue := ⟨cells, 0, 0, 0⟩

/-- The complete state of one core (R54), and beside it what R50 counts as parameters of the step or of
the launch: `pic`, `cfg`, and the counter of draws. -/
structure State where
  /-- General registers of the EU, each dividable into halves (R27). -/
  ax : Word
  bx : Word
  cx : Word
  dx : Word
  /-- Pointer and index registers of the BIU (R28). -/
  sp : Word
  bp : Word
  si : Word
  di : Word
  /-- Segment registers of the BIU (R29). -/
  cs : Word
  ds : Word
  es : Word
  ss : Word
  /-- The program counter (R30): the offset in CS of the instruction being executed. -/
  ip : Word
  /-- The status word FLAGS (R34). -/
  flags : DWord
  /-- The instruction queue (R40). -/
  queue : Queue
  /-- The address generator's implicit default segment (R46). -/
  defseg : Word
  /-- The data temporary register (R47): the value of the most recent transfer. -/
  dtr : Word
  /-- Memory M (R48). -/
  mem : Memory
  /-- The fault record FAULT (R49): none, or the fault that ended the run. -/
  fault : Option Fault
  /-- Not state of the core (R50): what the PIC oracle of R226 answers at the coming step boundaries,
  the next boundary first. `none` is "no interrupt pending", `some v` is "pending, with vector v"; past
  the end of the list nothing is pending (DESIGN CHOICE, unsafe: log entry 2). -/
  pic : List (Option Byte)
  /-- The model's own: how many draws of R196 have been made (DESIGN CHOICE, safe: log entry 7). -/
  draws : Nat
  /-- Not state of the core (R50): the parameters of R7 (DESIGN CHOICE, safe: log entry 1). No step
  changes them. -/
  cfg : Config
deriving DecidableEq, Repr, Inhabited

namespace State

/-! One function per updated field. -/

def setIp (v : Word) (s : State) : State := { s with ip := v }
def setCs (v : Word) (s : State) : State := { s with cs := v }
def setFlags (v : DWord) (s : State) : State := { s with flags := v }
def setQueue (v : Queue) (s : State) : State := { s with queue := v }
def setDtr (v : Word) (s : State) : State := { s with dtr := v }
def setMem (v : Memory) (s : State) : State := { s with mem := v }
def setFault (v : Option Fault) (s : State) : State := { s with fault := v }
def setPic (v : List (Option Byte)) (s : State) : State := { s with pic := v }
def setDraws (v : Nat) (s : State) : State := { s with draws := v }

/-- The launch state of R149 and R51 for every choice of the parameters, of MEM_INIT and of the queue
cells, which reset leaves unspecified (R41, U6). -/
def launch (cfg : Config) (memInit : Memory) (cells : Vector Byte 6) : State where
  ax := 0
  bx := 0
  cx := 0
  dx := 0
  sp := 0
  bp := 0
  si := 0
  di := 0
  cs := 0
  ds := 0
  es := 0
  ss := 0
  ip := 0
  flags := 0
  queue := Queue.empty cells
  defseg := 0
  dtr := 0
  mem := memInit
  fault := none
  pic := []
  draws := 0
  cfg := cfg

/-- The machine right after reset (R51): `launch` with the parameters' vector defaults (R7; log entry 1),
nothing listed in memory (log entry 3), zeros in the queue cells (log entry 4), no interrupt coming (log
entry 2) and no draw made (log entry 7). DESIGN CHOICE and unsafe, each: a claim about this one state. -/
def reset : State := launch Config.vectorDefault [] (Vector.replicate 6 0)

end State

end Sys2Proof.Machine
end

