-- ==== Sys2Proof/Machine/Flags.lean ====
section
/-! DEFINITION. The status word (R34 to R39) and the flag computations of the ALU (R181 to R189). -/

namespace Sys2Proof.Machine

/-! ### The status word -/

/-- The named flags (R34). -/
inductive Flag where
  | cf | pf | af | zf | sf | tf | intEnable | df | of
  | iopl | nt | rf | vm | ac | vif | vip | id
deriving DecidableEq, Repr

/-- The flags of the baseline 8086 (R34); the others are storage bits only (R36). -/
def Flag.baseline : Flag → Bool
  | .cf => true
  | .pf => true
  | .af => true
  | .zf => true
  | .sf => true
  | .tf => true
  | .intEnable => true
  | .df => true
  | .of => true
  | .iopl => false
  | .nt => false
  | .rf => false
  | .vm => false
  | .ac => false
  | .vif => false
  | .vip => false
  | .id => false

/-- The bits of FLAGS a flag occupies (R34): one, but for IOPL, which has bits 13:12 (R35). -/
def Flag.mask : Flag → DWord
  | .cf => 1#32 <<< 0
  | .pf => 1#32 <<< 2
  | .af => 1#32 <<< 4
  | .zf => 1#32 <<< 6
  | .sf => 1#32 <<< 7
  | .tf => 1#32 <<< 8
  | .intEnable => 1#32 <<< 9
  | .df => 1#32 <<< 10
  | .of => 1#32 <<< 11
  | .iopl => 3#32 <<< 12
  | .nt => 1#32 <<< 14
  | .rf => 1#32 <<< 16
  | .vm => 1#32 <<< 17
  | .ac => 1#32 <<< 18
  | .vif => 1#32 <<< 19
  | .vip => 1#32 <<< 20
  | .id => 1#32 <<< 21

/-- The bits of FLAGS that name a flag. The others, 1, 3, 5, 15 and 31:22, read 0 (R37, U9). -/
def namedFlags : DWord := 0x003F7FD5#32

/-- `setFlag(F)` (R35). -/
def setFlag (f : Flag) (flags : DWord) : DWord := flags ||| f.mask

/-- `clearFlag(F)` (R35). -/
def clearFlag (f : Flag) (flags : DWord) : DWord := flags &&& ~~~f.mask

/-- `hasFlag(F)` (R35): for IOPL, when either of its bits is 1. -/
def hasFlag (f : Flag) (flags : DWord) : Bool := flags &&& f.mask != 0#32

/-- `F.X <- b` (R35). -/
def putFlag (f : Flag) (b : Bool) (flags : DWord) : DWord := if b then setFlag f flags else clearFlag f flags

/-- `reset()` of the status word (R35): zeroes the extended high-order word too. -/
def resetFlags (_flags : DWord) : DWord := 0

/-- `FLAGS[15:0]` (R38), the word an interrupt service pushes. -/
def flagsLow (flags : DWord) : Word := flags.extractLsb' 0 16

/-- The whole-value write of the low word (R38), used by nothing in this version. Bits that name no flag
keep 0, since no operation writes them (R37, U9; DEDUCED, unsafe: log entry 9). -/
def writeFlagsLow (v : Word) (flags : DWord) : DWord :=
  (flags &&& 0xFFFF0000#32) ||| (v.setWidth 32 &&& namedFlags)

/-! ### Flag computations, for operands and results of n bits -/

/-- `SF(r)` (R181): the most significant bit. -/
def signOf {n : Nat} (r : BitVec n) : Bool := r.msb

/-- `ZF(r)` (R181). -/
def zeroOf {n : Nat} (r : BitVec n) : Bool := r == 0#n

/-- The number of 1 bits in the low byte of r. -/
def lowOnes {n : Nat} (r : BitVec n) : Nat :=
  (List.range 8).countP fun i => r.getLsbD i

/-- `PF(r)` (R181): the low byte only, even number of 1 bits. -/
def parityOf {n : Nat} (r : BitVec n) : Bool := lowOnes r % 2 == 0

/-- `v[3:0]` as a number, for AF. -/
def lowNibble {n : Nat} (v : BitVec n) : Nat := v.toNat % 16

/-- CF of ADD and ADC (R182, R183): the sum reaches 2^N. -/
def carryAdd {n : Nat} (a b : BitVec n) (c : Nat) : Bool := decide (2 ^ n ≤ a.toNat + b.toNat + c)

/-- AF of ADD and ADC (R182, R183): a carry out of bit 3. -/
def auxAdd {n : Nat} (a b : BitVec n) (c : Nat) : Bool := decide (16 ≤ lowNibble a + lowNibble b + c)

/-- OF of ADD and ADC (R182, R183): operands of one sign, result of the other. -/
def overflowAdd {n : Nat} (a b r : BitVec n) : Bool := a.msb == b.msb && r.msb != a.msb

/-- CF of SUB, SBB and CMP (R184, R185): the unsigned borrow. -/
def borrowSub {n : Nat} (a b : BitVec n) (c : Nat) : Bool := decide (a.toNat < b.toNat + c)

/-- AF of SUB, SBB and CMP (R184, R185): a borrow into bit 3. -/
def auxSub {n : Nat} (a b : BitVec n) (c : Nat) : Bool := decide (lowNibble a < lowNibble b + c)

/-- OF of SUB, SBB and CMP (R184, R185): operands of different signs, result unlike the first. -/
def overflowSub {n : Nat} (a b r : BitVec n) : Bool := a.msb != b.msb && r.msb != a.msb

/-- The largest two's-complement value, OF of INC (R187). -/
def isMaxSigned {n : Nat} (a : BitVec n) : Bool := a == BitVec.ofNat n (2 ^ (n - 1) - 1)

/-- The smallest two's-complement value, OF of DEC and NEG (R188, R189). -/
def isMinSigned {n : Nat} (a : BitVec n) : Bool := a == BitVec.ofNat n (2 ^ (n - 1))

end Sys2Proof.Machine
end

