-- ==== Sys2Proof/Machine/Memory.lean ====
section
/-! DEFINITION. Memory M (R48, R71): reads and writes of one byte over the canonical list, and the boot
loader's copy of an image. -/

namespace Sys2Proof.Machine

/-- What an address that is not listed reads as: MEM_INIT's byte where no image and no write has set one.
A launch lists every other byte of its MEM_INIT (R253; DESIGN CHOICE, unsafe: log entry 3). -/
def unlistedByte (_a : Nat) : Byte := 0

namespace Memory

/-- The byte at a linear address (R71). -/
def read : Memory → Nat → Byte
  | [], a => unlistedByte a
  | (k, v) :: rest, a => if k = a then v else read rest a

/-- List an address before the rest, unless it holds what an unlisted address reads as. -/
def put (a : Nat) (b : Byte) (rest : Memory) : Memory := if b = unlistedByte a then rest else (a, b) :: rest

/-- Store one byte, keeping the canonical form. -/
def write : Memory → Nat → Byte → Memory
  | [], a, b => put a b []
  | (k, v) :: rest, a, b =>
    if a < k then put a b ((k, v) :: rest)
    else if a = k then put a b rest
    else (k, v) :: write rest a b

/-- Canonical from the address lo upward: addresses strictly rising, no entry equal to what an unlisted
address reads as. -/
def wfFrom : Nat → Memory → Bool
  | _, [] => true
  | lo, (k, v) :: rest => decide (lo ≤ k) && decide (v ≠ unlistedByte k) && wfFrom (k + 1) rest

/-- The canonical form. -/
def wf (m : Memory) : Bool := wfFrom 0 m

/-- Every listed address lies in a memory of n bytes (R60). -/
def within (n : Nat) (m : Memory) : Bool := m.all fun c => decide (c.1 < n)

/-- Copy an image's bytes to the addresses from base upward (R254). -/
def load (base : Nat) : List Byte → Memory → Memory
  | [], m => m
  | b :: rest, m => load (base + 1) rest (m.write base b)

end Memory

end Sys2Proof.Machine
end

