-- ==== Sys2Proof/Machine/Register.lean ====
section
/-! DEFINITION. The register model: the register cell of R20 to R25 and the register file of R27 to R31. -/

namespace Sys2Proof.Machine

/-! ### The register cell -/

/-- The declared widths of a register (R20). Every register of this version has two bytes; the others are
extension points of which the spec records the storage shape only (R2; DEDUCED, safe: log entry 16). -/
inductive RegWidth where
  | w1 | w2 | w4 | w8
deriving DecidableEq, Repr

/-- The width in bytes (R20). -/
def RegWidth.bytes : RegWidth → Nat
  | .w1 => 1
  | .w2 => 2
  | .w4 => 4
  | .w8 => 8

/-- A register cell: an unsigned number of 8W bits (R20), which is also what a read returns (R21). -/
abbrev Cell (w : RegWidth) := BitVec (8 * w.bytes)

/-- Writing v stores `v mod 2^(8W)` (R22). -/
def Cell.write (w : RegWidth) (v : Nat) : Cell w := BitVec.ofNat _ v

/-- The primary value, bits 31:0 or fewer (R20). -/
def Cell.primary {w : RegWidth} (x : Cell w) : BitVec 32 := x.setWidth 32

/-- The secondary high-order value, bits 63:32 when W = 8 (R20). -/
def Cell.secondary {w : RegWidth} (x : Cell w) : BitVec 32 := (x >>> 32).setWidth 32

/-! ### The halves of a dividable register -/

/-- `getH` (R23): bits 15:8. -/
def getH {n : Nat} (x : BitVec n) : Byte := x.extractLsb' 8 8

/-- `getL` (R23): bits 7:0. -/
def getL {n : Nat} (x : BitVec n) : Byte := x.extractLsb' 0 8

/-- `setH` (R23, R24): replaces bits 15:8, every other bit kept. -/
def setH {n : Nat} (v : Byte) (x : BitVec n) : BitVec n :=
  (x &&& ~~~(0xFF00#16).setWidth n) ||| (v.setWidth n <<< 8)

/-- `setL` (R23, R24): replaces bits 7:0, every other bit kept. -/
def setL {n : Nat} (v : Byte) (x : BitVec n) : BitVec n :=
  (x &&& ~~~(0x00FF#16).setWidth n) ||| v.setWidth n

/-! ### The register file -/

/-- `x[R16(n)]` (R27, R28, R98). -/
def State.reg16 (s : State) : Reg16 → Word
  | .ax => s.ax
  | .cx => s.cx
  | .dx => s.dx
  | .bx => s.bx
  | .sp => s.sp
  | .bp => s.bp
  | .si => s.si
  | .di => s.di

/-- `x[R16(n)] <- v` (R22): writes that register and no other. -/
def State.setReg16 (r : Reg16) (v : Word) (s : State) : State :=
  match r with
  | .ax => { s with ax := v }
  | .cx => { s with cx := v }
  | .dx => { s with dx := v }
  | .bx => { s with bx := v }
  | .sp => { s with sp := v }
  | .bp => { s with bp := v }
  | .si => { s with si := v }
  | .di => { s with di := v }

/-- The dividable register an 8-bit name is a half of (R31). -/
def Reg8.whole : Reg8 → Reg16
  | .al => .ax
  | .cl => .cx
  | .dl => .dx
  | .bl => .bx
  | .ah => .ax
  | .ch => .cx
  | .dh => .dx
  | .bh => .bx

/-- Whether an 8-bit name is the high half (R31). -/
def Reg8.isHigh : Reg8 → Bool
  | .al => false
  | .cl => false
  | .dl => false
  | .bl => false
  | .ah => true
  | .ch => true
  | .dh => true
  | .bh => true

/-- `x[R8(n)]` (R31): a half of a dividable register. -/
def State.reg8 (s : State) (r : Reg8) : Byte :=
  if Reg8.isHigh r then getH (s.reg16 (Reg8.whole r)) else getL (s.reg16 (Reg8.whole r))

/-- `x[R8(n)] <- v` (R24, R31): one half, the other kept. -/
def State.setReg8 (r : Reg8) (v : Byte) (s : State) : State :=
  let x := s.reg16 (Reg8.whole r)
  s.setReg16 (Reg8.whole r) (if Reg8.isHigh r then setH v x else setL v x)

/-- The pointer and index registers (R25, R28). -/
inductive PtrReg where
  | sp | bp | si | di
deriving DecidableEq, Repr

/-- The 16-bit register a pointer register is. -/
def PtrReg.reg : PtrReg → Reg16
  | .sp => .sp
  | .bp => .bp
  | .si => .si
  | .di => .di

/-- `inc(r, d)` (R25): `x[r] +_16 d`, wrapping as every register write is masked (R22). -/
def State.incPtr (r : PtrReg) (d : Nat) (s : State) : State :=
  s.setReg16 r.reg (s.reg16 r.reg + BitVec.ofNat 16 d)

/-- `dec(r, d)` (R25): `x[r] -_16 d`. -/
def State.decPtr (r : PtrReg) (d : Nat) (s : State) : State :=
  s.setReg16 r.reg (s.reg16 r.reg - BitVec.ofNat 16 d)

/-- The segment registers (R29). -/
inductive SegReg where
  | cs | ds | es | ss
deriving DecidableEq, Repr

/-- Read of a segment register (R26). -/
def State.seg (s : State) : SegReg → Word
  | .cs => s.cs
  | .ds => s.ds
  | .es => s.es
  | .ss => s.ss

/-- Write of a segment register (R26). In this version only an interrupt service uses it, for CS (R32). -/
def State.setSeg (r : SegReg) (v : Word) (s : State) : State :=
  match r with
  | .cs => s.setCs v
  | .ds => { s with ds := v }
  | .es => { s with es := v }
  | .ss => { s with ss := v }

/-- The IP advance of R145: `x[IP] +_16 L`, CS unchanged. -/
def State.advanceIp (len : Nat) (s : State) : State := s.setIp (s.ip + BitVec.ofNat 16 len)

end Sys2Proof.Machine
end

