-- ==== Sys2Proof/Machine/Ops.lean ====
section
/-! DEFINITION. The named operations over memory and registers: the address generator, MemRead and MemWrite,
the stack, the PIC's answers, and the interrupt service, which is how this core takes an exception. -/

namespace Sys2Proof.Machine

/-- The outcome of an operation that changes the state. -/
abbrev Next := Host.Outcome State Fault Refusal

/-- The outcome of an operation that also answers a value. -/
abbrev Result (α : Type) := Host.Outcome (α × State) Fault Refusal

/-- Go on after a success; a fault or a refusal ends the step (R141). -/
def andThen {σ τ : Type} (x : Host.Outcome σ Fault Refusal) (k : σ → Host.Outcome τ Fault Refusal) :
    Host.Outcome τ Fault Refusal :=
  match x with
  | .next a => k a
  | .fault f => .fault f
  | .refused r => .refused r

/-! ### Addresses -/

/-- The address generator (R61): `lin(s, o) = s * 16 + o`, natural-number arithmetic, no modulus. The
offset is a natural because the burst's `IP + i` is not reduced (R74, R75). -/
def lin (seg : Word) (off : Nat) : Nat := seg.toNat * 16 + off

/-- The single-argument form `lin(o) = lin(DEFSEG, o)` (R62). -/
def linDefault (s : State) (off : Nat) : Nat := lin s.defseg off

/-- `isValidAddress(a)` (R60). -/
def isValidAddress (s : State) (a : Nat) : Bool := decide (a < s.cfg.memSize)

/-- `raise InvalidAddress(a)`, with the CS:IP of the step (R11, R220). Neither register changes in a step
before its last access, so they are read where the fault is raised. -/
def invalidAddress (s : State) (a : Nat) : Fault := .invalidAddress a s.cs s.ip

/-! ### The Memory Accessor -/

/-- `MemRead(a, 1)` (R63, R66). -/
def memRead8 (a : Nat) (s : State) : Result Byte :=
  if isValidAddress s a then .next (s.mem.read a, s.setDtr ((s.mem.read a).setWidth 16))
  else .fault (invalidAddress s a)

/-- `MemRead(a, 2)` (R63, R66): little-endian (R67), at any address (R68). -/
def memRead16 (a : Nat) (s : State) : Result Word :=
  if isValidAddress s a then
    if isValidAddress s (a + 1) then
      let v := leWord (s.mem.read a) (s.mem.read (a + 1))
      .next (v, s.setDtr v)
    else .fault (invalidAddress s (a + 1))
  else .fault (invalidAddress s a)

/-- `MemWrite(a, 1, v)` (R64, R66). -/
def memWrite8 (a : Nat) (v : Byte) (s : State) : Next :=
  if isValidAddress s a then .next ((s.setMem (s.mem.write a v)).setDtr (v.setWidth 16))
  else .fault (invalidAddress s a)

/-- `MemWrite(a, 2, v)` (R64, R66): both bytes are checked before any is written. -/
def memWrite16 (a : Nat) (v : Word) (s : State) : Next :=
  if isValidAddress s a then
    if isValidAddress s (a + 1) then
      .next ((s.setMem ((s.mem.write a (lowByte v)).write (a + 1) (highByte v))).setDtr v)
    else .fault (invalidAddress s (a + 1))
  else .fault (invalidAddress s a)

/-! ### The stack -/

/-- `push(v)` (R210, R211): SP is decremented by 2 modulo 2^16, then the word is written at SS:SP. -/
def push (v : Word) (s : State) : Next :=
  let s1 := s.decPtr .sp 2
  memWrite16 (lin s1.ss s1.sp.toNat) v s1

/-- `pop()` (R212): the word at SS:SP, then SP incremented by 2 modulo 2^16. No step of this version uses
it (R235). -/
def pop (s : State) : Result Word :=
  andThen (memRead16 (lin s.ss s.sp.toNat) s) fun p => .next (p.1, p.2.incPtr .sp 2)

/-! ### Interrupts -/

/-- `hasInt()` at this step boundary (R226; DESIGN CHOICE, unsafe: log entry 2). -/
def hasInt (s : State) : Bool :=
  match s.pic with
  | some _ :: _ => true
  | none :: _ => false
  | [] => false

/-- `interrupt_accepted()` (R228). -/
def interruptAccepted (s : State) : Bool :=
  hasInt s && (!s.cfg.intGatedByIf || hasFlag .intEnable s.flags)

/-- `nextInt()` (R226): the pending vector, acknowledged. Asked only when one is pending; there is no answer
to give otherwise. -/
def nextInt (s : State) : Option (Byte × State) :=
  match s.pic with
  | some v :: rest => some (v, s.setPic rest)
  | none :: _ => none
  | [] => none

/-- A boundary at which no interrupt is accepted: an answer "none pending" is used up, a masked interrupt
stays pending in the PIC (R228; DESIGN CHOICE, unsafe: log entry 2). -/
def passBoundary (s : State) : State :=
  match s.pic with
  | none :: rest => s.setPic rest
  | some _ :: _ => s
  | [] => s

/-- Clearing IF and TF on entry, when INT_CLEARS_IF_TF (R231). -/
def serviceFlags (s : State) : State :=
  if s.cfg.intClearsIfTf then s.setFlags (clearFlag .tf (clearFlag .intEnable s.flags)) else s

/-- The two words a service pushes after FLAGS, in the order INT_PUSH_ORDER says (R229). -/
def frameWords (s : State) : Word × Word :=
  match s.cfg.pushOrder with
  | .flagsCsIp => (s.cs, s.ip)
  | .flagsIpCs => (s.ip, s.cs)

/-- The three pushes of a service (R229). No push changes FLAGS, CS or IP. -/
def pushFrame (s : State) : Next :=
  andThen (push (flagsLow s.flags) s) fun s1 =>
    andThen (push (frameWords s).1 s1) fun s2 => push (frameWords s).2 s2

/-- The linear address of the table entry of vector v (R230): IP at 4v, CS at 4v + 2. -/
def vectorEntry (v : Byte) : Nat := 4 * v.toNat

/-- CS:IP loaded from the table entry of vector v, after both words are read (R229, R230). -/
def enterVector (v : Byte) (s : State) : Next :=
  andThen (memRead16 (vectorEntry v) s) fun newIp =>
    andThen (memRead16 (vectorEntry v + 2) newIp.2) fun newCs =>
      .next ((newCs.2.setIp newIp.1).setSeg .cs newCs.1)

/-- Taking an interrupt, `service(v)` (R229, R234): the frame is pushed, IF and TF perhaps cleared, and CS:IP
loaded from the vector table. -/
def service (v : Byte) (s : State) : Next :=
  andThen (pushFrame s) fun s1 => enterVector v (serviceFlags s1)

end Sys2Proof.Machine
end

