-- ==== Sys2Proof/Machine/Operands.lean ====
section
/-! DEFINITION. Operand access (R99 to R101, R160): effective addresses, segments, and reads and writes of
the r/m operand in both widths. -/

namespace Sys2Proof.Machine

/-- The sum of the base and index registers of rm, modulo 2^16 (R99, R100). -/
def eaBase (s : State) : EaBase → Word
  | .bxSi => s.bx + s.si
  | .bxDi => s.bx + s.di
  | .bpSi => s.bp + s.si
  | .bpDi => s.bp + s.di
  | .si => s.si
  | .di => s.di
  | .bp => s.bp
  | .bx => s.bx

/-- The effective address EA (R99, R100, R103). -/
def effectiveAddress (s : State) : MemOperand → Word
  | .direct a => a
  | .base b => eaBase s b
  | .disp8 b d => eaBase s b + sext16 d
  | .disp16 b d => eaBase s b + d

/-- The bases that take SS under SEG_8086: those that use BP (R101). -/
def usesBp : EaBase → Bool
  | .bpSi => true
  | .bpDi => true
  | .bp => true
  | .bxSi => false
  | .bxDi => false
  | .si => false
  | .di => false
  | .bx => false

/-- Whether an operand's SEG_8086 segment is SS (R101). A direct address takes DS, in format RM as in
format MA. -/
def stackBased : MemOperand → Bool
  | .direct _ => false
  | .base b => usesBp b
  | .disp8 b _ => usesBp b
  | .disp16 b _ => usesBp b

/-- The segment value of a memory operand (R101). -/
def operandSegment (s : State) (m : MemOperand) : Word :=
  match s.cfg.dataSegMode with
  | .defaultField => s.defseg
  | .seg8086 => if stackBased m then s.ss else s.ds

/-- `addr()` (R160): the linear address of a memory operand. -/
def operandAddress (s : State) (m : MemOperand) : Nat :=
  lin (operandSegment s m) (effectiveAddress s m).toNat

/-- `read_rm()` with n = 1 (R160). -/
def readRm8 (o : RegMem Reg8) (s : State) : Result Byte :=
  match o with
  | .reg r => .next (s.reg8 r, s)
  | .mem m => memRead8 (operandAddress s m) s

/-- `read_rm()` with n = 2 (R160). -/
def readRm16 (o : RegMem Reg16) (s : State) : Result Word :=
  match o with
  | .reg r => .next (s.reg16 r, s)
  | .mem m => memRead16 (operandAddress s m) s

/-- `write_rm(v)` with n = 1 (R160). -/
def writeRm8 (o : RegMem Reg8) (v : Byte) (s : State) : Next :=
  match o with
  | .reg r => .next (s.setReg8 r v)
  | .mem m => memWrite8 (operandAddress s m) v s

/-- `write_rm(v)` with n = 2 (R160). -/
def writeRm16 (o : RegMem Reg16) (v : Word) (s : State) : Next :=
  match o with
  | .reg r => .next (s.setReg16 r v)
  | .mem m => memWrite16 (operandAddress s m) v s

end Sys2Proof.Machine
end

