-- ==== Sys2Proof/Machine/Mov.lean ====
section
/-! DEFINITION. The meanings of the ten MOV instructions (R161 to R170): the `execute(ins)` of the step
(R141). The IP advance is the step's (R145). None reads or writes a flag (R171). -/

namespace Sys2Proof.Machine

/-! ### Class RM -/

/-- MOV r/m8, r8 (0x88, R161): `write_rm(read_reg())`, n = 1. -/
def execMovRm8R8 (dst : RegMem Reg8) (src : Reg8) (s : State) : Next := writeRm8 dst (s.reg8 src) s

/-- MOV r/m16, r16 (0x89, R162): `write_rm(read_reg())`, n = 2. -/
def execMovRm16R16 (dst : RegMem Reg16) (src : Reg16) (s : State) : Next := writeRm16 dst (s.reg16 src) s

/-- MOV r8, r/m8 (0x8A, R163): `write_reg(read_rm())`, n = 1. -/
def execMovR8Rm8 (dst : Reg8) (src : RegMem Reg8) (s : State) : Next :=
  andThen (readRm8 src s) fun p => .next (p.2.setReg8 dst p.1)

/-- MOV r16, r/m16 (0x8B, R164): `write_reg(read_rm())`, n = 2. -/
def execMovR16Rm16 (dst : Reg16) (src : RegMem Reg16) (s : State) : Next :=
  andThen (readRm16 src s) fun p => .next (p.2.setReg16 dst p.1)

/-! ### Class MA -/

/-- MOV AL, [addr16] (0xA0, R165). -/
def execMovAlMem (addr : Word) (s : State) : Next :=
  andThen (memRead8 (operandAddress s (.direct addr)) s) fun p => .next (p.2.setReg8 .al p.1)

/-- MOV AX, [addr16] (0xA1, R166). -/
def execMovAxMem (addr : Word) (s : State) : Next :=
  andThen (memRead16 (operandAddress s (.direct addr)) s) fun p => .next (p.2.setReg16 .ax p.1)

/-- MOV [addr16], AL (0xA2, R167). -/
def execMovMemAl (addr : Word) (s : State) : Next :=
  memWrite8 (operandAddress s (.direct addr)) (s.reg8 .al) s

/-- MOV [addr16], AX (0xA3, R168). -/
def execMovMemAx (addr : Word) (s : State) : Next :=
  memWrite16 (operandAddress s (.direct addr)) (s.reg16 .ax) s

/-! ### Class IR -/

/-- MOV r8, imm8 (0xB0-0xB7, R169). -/
def execMovR8Imm8 (dst : Reg8) (imm : Byte) (s : State) : Next := .next (s.setReg8 dst imm)

/-- MOV r16, imm16 (0xB8-0xBF, R170). -/
def execMovR16Imm16 (dst : Reg16) (imm : Word) (s : State) : Next := .next (s.setReg16 dst imm)

end Sys2Proof.Machine
end

