-- ==== Sys2Proof/Machine/Dispatch.lean ====
section
/-! DEFINITION. The dispatch of R144: each instruction to the one meaning of its rule. -/

namespace Sys2Proof.Machine

def exec (i : Instr) (s : State) : Host.Outcome State Fault Refusal :=
  match i with
  -- class RM, R161 to R164
  | .movRm8R8 dst src => Sys2Proof.Machine.execMovRm8R8 dst src s
  | .movRm16R16 dst src => Sys2Proof.Machine.execMovRm16R16 dst src s
  | .movR8Rm8 dst src => Sys2Proof.Machine.execMovR8Rm8 dst src s
  | .movR16Rm16 dst src => Sys2Proof.Machine.execMovR16Rm16 dst src s
  -- class MA, R165 to R168
  | .movAlMem addr => Sys2Proof.Machine.execMovAlMem addr s
  | .movAxMem addr => Sys2Proof.Machine.execMovAxMem addr s
  | .movMemAl addr => Sys2Proof.Machine.execMovMemAl addr s
  | .movMemAx addr => Sys2Proof.Machine.execMovMemAx addr s
  -- class IR, R169 and R170
  | .movR8Imm8 dst imm => Sys2Proof.Machine.execMovR8Imm8 dst imm s
  | .movR16Imm16 dst imm => Sys2Proof.Machine.execMovR16Imm16 dst imm s

end Sys2Proof.Machine
end

