-- ==== Sys2Proof/Machine/Fetch.lean ====
section
/-! DEFINITION. The instruction queue's operations (R41 to R45), the six-byte fetch burst (R75, R76) and the
decoder's reads of the queue (R44, R137). -/

namespace Sys2Proof.Machine

/-! ### The queue -/

namespace Queue

/-- `reset()` (R41): cursors and count to 0, the cells keep their values. -/
def reset (q : Queue) : Queue := Queue.empty q.buf

/-- `isEmpty()` (R43). -/
def isEmpty (q : Queue) : Bool := q.count == 0

/-- `isFull()` (R43). -/
def isFull (q : Queue) : Bool := q.count == 6

/-- `size()` (R43). -/
def size (q : Queue) : Nat := q.count

/-- `fill(b)` (R42); `none` on a full queue, which has no meaning (R45). Adding 1 to a cursor of type Fin 6
wraps modulo the capacity. -/
def fill (b : Byte) (q : Queue) : Option Queue :=
  if h : q.count.val < 6 then
    some { q with buf := q.buf.set q.tail b, tail := q.tail + 1, count := ⟨q.count.val + 1, by omega⟩ }
  else none

/-- `q[k] = buf[(head + k) mod 6]` for k < count (R44); `none` past it. Nothing is removed. -/
def peek (q : Queue) (k : Nat) : Option Byte :=
  if k < q.count.val then some (q.buf[(q.head.val + k) % 6]'(Nat.mod_lt _ (by decide))) else none

/-- The queue's invariant (R40): `tail = (head + count) mod 6`. -/
def ok (q : Queue) : Bool := decide (q.tail.val = (q.head.val + q.count.val) % 6)

end Queue

/-! ### The burst -/

/-- `queue.fill(b)` of the BIU. -/
def enqueue (b : Byte) (s : State) : Next :=
  match s.queue.fill b with
  | some q => .next (s.setQueue q)
  | none => .refused .queueOverflow

/-- The reads i, i + 1, … of the burst, n of them, each at `lin(CS, IP + i)` with `IP + i` not reduced
(R75, D12). -/
def fetchBytes : Nat → Nat → State → Next
  | 0, _, s => .next s
  | n + 1, i, s =>
    andThen (memRead8 (lin s.cs (s.ip.toNat + i)) s) fun p =>
      andThen (enqueue p.1 p.2) fun s1 => fetchBytes n (i + 1) s1

/-- `fill_burst()` (R75): the queue reset and six bytes from CS:IP; any invalid address faults, however short
the instruction (R76). -/
def fillBurst (s : State) : Next := fetchBytes 6 0 (s.setQueue s.queue.reset)

/-! ### Decoding from the queue -/

/-- `q[k]`, refused where the queue does not hold it (R44, U7). -/
def queueByte (k : Nat) (s : State) : Host.Outcome Byte Fault Refusal :=
  match s.queue.peek k with
  | some b => .next b
  | none => .refused .queueUnderrun

/-- Both phases of the decoder over q[0] to q[3] (R137), with UnrecognizedOpcode raised (R139, R222). -/
def decodeQueue (s : State) : Host.Outcome (Instr × Nat) Fault Refusal :=
  andThen (queueByte 0 s) fun q0 =>
    andThen (queueByte 1 s) fun q1 =>
      andThen (queueByte 2 s) fun q2 =>
        andThen (queueByte 3 s) fun q3 =>
          match decode q0 q1 q2 q3 with
          | .ok p => .next p
          | .error _ => .fault (.unrecognizedOpcode q0 s.cs s.ip)

/-! ### Placing an instruction for the next fetch -/

/-- Place one byte at a linear address; nothing happens at an address that does not exist. -/
def placeByte (a : Nat) (b : Byte) (s : State) : State :=
  if isValidAddress s a then s.setMem (s.mem.write a b) else s

/-- Place bytes at the linear addresses from a upward. -/
def placeBytes (a : Nat) : List Byte → State → State
  | [], s => s
  | b :: rest, s => placeBytes (a + 1) rest (placeByte a b s)

/-- The table's word w of nbits bits stored at CS:IP, where the next burst reads it, up to the longest
instruction. -/
def placeTableWord (nbits w : Nat) (s : State) : State :=
  placeBytes (lin s.cs s.ip.toNat)
    [tableByte nbits w 0, tableByte nbits w 1, tableByte nbits w 2, tableByte nbits w 3] s

/-- The coming boundary takes no interrupt, so that the next step runs an instruction: where one would be
accepted, the PIC answers "none pending" first. -/
def quietBoundary (s : State) : State :=
  if interruptAccepted s then s.setPic (none :: s.pic) else s

end Sys2Proof.Machine
end

