-- ==== Sys2Proof/Machine/Timing.lean ====
section
/-! DEFINITION. The per-instruction clock-count hook: CLOCK_TABLE of R259 applied to an instruction (R146).
Nothing depends on it (R260). -/

namespace Sys2Proof.Machine

/-- The EA clocks of a base without displacement (R259). The plain [BP] has no encoding; it is given the
count of the other single registers (DESIGN CHOICE, safe: log entry 12). -/
def eaClocksPlain (t : ClockTable) : EaBase → Nat
  | .bxSi => t.eaPairFast
  | .bpDi => t.eaPairFast
  | .bxDi => t.eaPairSlow
  | .bpSi => t.eaPairSlow
  | .si => t.eaSingle
  | .di => t.eaSingle
  | .bp => t.eaSingle
  | .bx => t.eaSingle

/-- The EA clocks of a base with a displacement of either size (R259). -/
def eaClocksDisp (t : ClockTable) : EaBase → Nat
  | .bxSi => t.eaPairFastDisp
  | .bpDi => t.eaPairFastDisp
  | .bxDi => t.eaPairSlowDisp
  | .bpSi => t.eaPairSlowDisp
  | .si => t.eaSingleDisp
  | .di => t.eaSingleDisp
  | .bp => t.eaSingleDisp
  | .bx => t.eaSingleDisp

/-- The EA clocks of a memory operand, by (mod, rm) (R259). -/
def eaClocks (t : ClockTable) : MemOperand → Nat
  | .direct _ => t.eaDirect
  | .base b => eaClocksPlain t b
  | .disp8 b _ => eaClocksDisp t b
  | .disp16 b _ => eaClocksDisp t b

/-- The penalty of a word transfer at an odd linear address (R259). -/
def oddPenalty (s : State) (m : MemOperand) : Nat :=
  if operandAddress s m % 2 = 1 then s.cfg.clocks.oddWord else 0

/-- The clock cost of an instruction, from the state it executes in (R146, R259). -/
def instrClocks (s : State) (i : Instr) : Nat :=
  let t := s.cfg.clocks
  match i with
  | .movRm8R8 (.reg _) _ => t.regReg
  | .movRm8R8 (.mem m) _ => t.regToMem + eaClocks t m
  | .movRm16R16 (.reg _) _ => t.regReg
  | .movRm16R16 (.mem m) _ => t.regToMem + eaClocks t m + oddPenalty s m
  | .movR8Rm8 _ (.reg _) => t.regReg
  | .movR8Rm8 _ (.mem m) => t.memToReg + eaClocks t m
  | .movR16Rm16 _ (.reg _) => t.regReg
  | .movR16Rm16 _ (.mem m) => t.memToReg + eaClocks t m + oddPenalty s m
  | .movAlMem _ => t.memToAcc
  | .movAxMem a => t.memToAcc + oddPenalty s (.direct a)
  | .movMemAl _ => t.accToMem
  | .movMemAx a => t.accToMem + oddPenalty s (.direct a)
  | .movR8Imm8 _ _ => t.regImm
  | .movR16Imm16 _ _ => t.regImm

end Sys2Proof.Machine
end

