-- ==== Sys2Proof/Machine/Cycle.lean ====
section
/-! DEFINITION. One pass of the Cpu driver loop (R141), with the clock cost it reports (R146). -/

namespace Sys2Proof.Machine

/-- The instruction step: burst, decode, execute, IP advance, in that order (R141, R233), with the clock cost
of the instruction. -/
def instructionStep (s : State) : Result Nat :=
  andThen (fillBurst s) fun s1 =>
    andThen (decodeQueue s1) fun p =>
      andThen (exec p.1 s1) fun s2 => .next (instrClocks s1 p.1, s2.advanceIp p.2)

/-- One step with its clock cost, an output and not state (R56, R141, R146). A core that has faulted takes
no further step: the answer is the fault that ended the run (R147, R49; DEDUCED, safe: log entry 11).
Otherwise it is one interrupt service, of cost INT_CLOCKS, or one instruction, never both (R141, R232). -/
def clockedStep (s : State) : Result Nat :=
  match s.fault with
  | some f => .fault f
  | none =>
    if interruptAccepted s then
      match nextInt s with
      | some p => andThen (service p.1 p.2) fun s1 => .next (Config.intClocks, s1)
      | none => instructionStep (passBoundary s)
    else instructionStep (passBoundary s)

end Sys2Proof.Machine
end

