-- ==== Sys2Proof/Machine/Step.lean ====
section
/-! DEFINITION. The step function, and how a word of the opcode table is placed for it. -/

namespace Sys2Proof.Machine

/-- One step of the core (R13, R141): the next state, a fault or a refusal. The clock cost it also reports is
`clockedStep`'s (R56). -/
def step (s : State) : Host.Outcome State Fault Refusal :=
  andThen (clockedStep s) fun p => .next p.2

/-- The instruction of nbits bits w stored at CS:IP, no fault recorded and no interrupt taken at the
coming boundary, so that the next step fetches and runs exactly it (DESIGN CHOICE, safe: log entry 5). -/
def State.withFetchWord (s : State) (nbits w : Nat) : State :=
  (quietBoundary (placeTableWord nbits w s)).setFault none

end Sys2Proof.Machine
end

