-- ==== Sys2Proof/Machine/Alu.lean ====
section
/-! DEFINITION. The Arithmetic Logic Unit (R180 to R199): a function from an operation, a width and its
operands to a result and flag updates, and its effect on the status word it is bound to. No
instruction of this version invokes it (R198). -/

namespace Sys2Proof.Machine

/-- The operations (R180). -/
inductive AluOp where
  | add | adc | sub | sbb | cmp | and | or | xor | test | inc | dec | neg | not | pass
deriving DecidableEq, Repr

/-- What an operation does to a flag it lists (R180): gives it a value, or leaves the value open. -/
inductive FlagUpdate where
  | put (b : Bool)
  | draw
deriving DecidableEq, Repr

/-- A result of n bits and the partial map of flag updates (R180). -/
structure AluOut (n : Nat) where
  r : BitVec n
  upd : List (Flag × FlagUpdate)
deriving DecidableEq, Repr

/-- SF, ZF and PF of a result (R181). -/
def resultFlags {n : Nat} (r : BitVec n) : List (Flag × FlagUpdate) :=
  [(.sf, .put (signOf r)), (.zf, .put (zeroOf r)), (.pf, .put (parityOf r))]

/-- All six flags of an arithmetic result. -/
def arithFlags {n : Nat} (cf af o : Bool) (r : BitVec n) : List (Flag × FlagUpdate) :=
  [(.cf, .put cf), (.af, .put af), (.of, .put o)] ++ resultFlags r

/-- The flags of INC and DEC: CF is not written (R187, R188). -/
def stepFlags {n : Nat} (af o : Bool) (r : BitVec n) : List (Flag × FlagUpdate) :=
  [(.af, .put af), (.of, .put o)] ++ resultFlags r

/-- The flags of AND, OR, XOR and TEST: CF and OF 0, AF a draw (R190 to R193). -/
def logicFlags {n : Nat} (r : BitVec n) : List (Flag × FlagUpdate) :=
  [(.cf, .put false), (.of, .put false), (.af, .draw)] ++ resultFlags r

/-- ADD (R182) and ADC (R183). -/
def aluAdd {n : Nat} (a b : BitVec n) (c : Nat) : AluOut n :=
  let r := BitVec.ofNat n (a.toNat + b.toNat + c)
  ⟨r, arithFlags (carryAdd a b c) (auxAdd a b c) (overflowAdd a b r) r⟩

/-- SUB (R184), SBB (R185) and CMP (R186): `(a - b - c) mod 2^N`. -/
def aluSub {n : Nat} (a b : BitVec n) (c : Nat) : AluOut n :=
  let r := BitVec.ofInt n ((a.toNat : Int) - b.toNat - c)
  ⟨r, arithFlags (borrowSub a b c) (auxSub a b c) (overflowSub a b r) r⟩

/-- INC (R187). -/
def aluInc {n : Nat} (a : BitVec n) : AluOut n :=
  let r := BitVec.ofNat n (a.toNat + 1)
  ⟨r, stepFlags (decide (lowNibble a = 15)) (isMaxSigned a) r⟩

/-- DEC (R188). -/
def aluDec {n : Nat} (a : BitVec n) : AluOut n :=
  let r := BitVec.ofInt n ((a.toNat : Int) - 1)
  ⟨r, stepFlags (decide (lowNibble a = 0)) (isMinSigned a) r⟩

/-- NEG (R189). -/
def aluNeg {n : Nat} (a : BitVec n) : AluOut n :=
  let r := BitVec.ofInt n (0 - (a.toNat : Int))
  ⟨r, arithFlags (decide (a ≠ 0#n)) (decide (lowNibble a ≠ 0)) (isMinSigned a) r⟩

/-- A logic result (R190 to R193). -/
def aluLogic {n : Nat} (r : BitVec n) : AluOut n := ⟨r, logicFlags r⟩

/-- `ALU(op, N, a, b, cin)` (R180). CMP and TEST give the result their caller discards (R186, R193). -/
def alu {n : Nat} (op : AluOp) (a b : BitVec n) (cin : Bool) : AluOut n :=
  match op with
  | .add => aluAdd a b 0
  | .adc => aluAdd a b cin.toNat
  | .sub => aluSub a b 0
  | .sbb => aluSub a b cin.toNat
  | .cmp => aluSub a b 0
  | .and => aluLogic (a &&& b)
  | .or => aluLogic (a ||| b)
  | .xor => aluLogic (a ^^^ b)
  | .test => aluLogic (a &&& b)
  | .inc => aluInc a
  | .dec => aluDec a
  | .neg => aluNeg a
  | .not => ⟨~~~a, []⟩
  | .pass => ⟨b, []⟩

/-- Whether the caller writes the result: CMP and TEST discard it (R186, R193). -/
def AluOp.writesResult : AluOp → Bool
  | .cmp => false
  | .test => false
  | .add => true
  | .adc => true
  | .sub => true
  | .sbb => true
  | .and => true
  | .or => true
  | .xor => true
  | .inc => true
  | .dec => true
  | .neg => true
  | .not => true
  | .pass => true

/-- The status-word update of R196: each listed flag by setFlag or clearFlag, a draw by the next free
value (DESIGN CHOICE, safe: log entry 7). -/
def applyUpdates : List (Flag × FlagUpdate) → State → State
  | [], s => s
  | (f, .put b) :: rest, s => applyUpdates rest (s.setFlags (putFlag f b s.flags))
  | (f, .draw) :: rest, s =>
    applyUpdates rest
      ((s.setFlags (putFlag f (Config.freeFlag s.draws) s.flags)).setDraws (s.draws + 1))

/-- One ALU operation bound to the status word of s: cin is the current CF (R180), the answer the result
and the state with FLAGS updated (R196). -/
def aluExec {n : Nat} (op : AluOp) (a b : BitVec n) (s : State) : BitVec n × State :=
  let out := alu op a b (hasFlag .cf s.flags)
  (out.r, applyUpdates out.upd s)

end Sys2Proof.Machine
end

