-- ==== Sys2Proof/Machine/Platform.lean ====
section
/-! DEFINITION. The core's reset action (R250), the Memory Manager's interface and the boot contract (R254,
R255), and what the outside world can do between two steps (R78, R239). -/

namespace Sys2Proof.Machine

/-! ### Reset -/

/-- `reset()` (R250): every element at its value of R51; memory and the queue cells keep theirs (R41). -/
def cpuReset (s : State) : State :=
  { State.launch s.cfg s.mem s.queue.buf with pic := s.pic, draws := s.draws }

/-! ### The boot configuration -/

/-- The value of a decimal digit. -/
def decDigit (c : Char) : Option Nat :=
  if 48 ≤ c.toNat ∧ c.toNat ≤ 57 then some (c.toNat - 48) else none

/-- The value of a hexadecimal digit of either case (R254). -/
def hexDigit (c : Char) : Option Nat :=
  if 48 ≤ c.toNat ∧ c.toNat ≤ 57 then some (c.toNat - 48)
  else if 65 ≤ c.toNat ∧ c.toNat ≤ 70 then some (c.toNat - 55)
  else if 97 ≤ c.toNat ∧ c.toNat ≤ 102 then some (c.toNat - 87)
  else none

/-- The number a digit string spells after acc; `none` at the first character that is no digit. -/
def numeral (radix : Nat) (digit : Char → Option Nat) : Nat → List Char → Option Nat
  | acc, [] => some acc
  | acc, c :: rest =>
    match digit c with
    | some d => numeral radix digit (acc * radix + d) rest
    | none => none

/-- A numeral has at least one digit. -/
def numeralOf (radix : Nat) (digit : Char → Option Nat) (cs : List Char) : Option Nat :=
  if cs = [] then none else numeral radix digit 0 cs

/-- The value of a `.base` key (R254): decimal digits, or `0x` or `0X` and hexadecimal digits; no sign and no
white space. -/
def parseBase (cs : List Char) : Option Nat :=
  match cs with
  | c0 :: c1 :: rest =>
    if c0 = '0' ∧ (c1 = 'x' ∨ c1 = 'X') then numeralOf 16 hexDigit rest else numeralOf 10 decDigit cs
  | _ :: [] => numeralOf 10 decDigit cs
  | [] => none

/-- The `.resource` key of a component: missing, naming a resource that cannot be read, or an image (R254). -/
inductive Resource where
  | missing
  | unreadable
  | image (bytes : List Byte)
deriving DecidableEq, Repr

/-- One component's keys (R254). -/
structure ComponentConfig where
  base : Option (List Char)
  resource : Resource
deriving DecidableEq, Repr

/-- The boot configuration: the components that are configured (R254). -/
structure BootConfig where
  bios : Option ComponentConfig
  bootloader : Option ComponentConfig
deriving DecidableEq, Repr

/-! ### The Memory Manager -/

/-- `load(base, resourcePath) -> bytesLoaded` (R239, R254), of an image already read: `none` where it does not
fit. -/
def managerLoad (memSize base : Nat) (bytes : List Byte) (m : Memory) : Option (Nat × Memory) :=
  if base + bytes.length ≤ memSize then some (bytes.length, m.load base bytes) else none

/-- The Memory Manager's `reset()` (R239): the spec does not say what it leaves in memory (R253), so the
new contents are an argument (DEDUCED, safe: log entry 15). -/
def managerReset (contents : Memory) (s : State) : State := s.setMem contents

/-! ### Boot -/

/-- Load one configured component (R254). Where several keys are wrong, the reason reported is the first
in R254's order (DESIGN CHOICE, unsafe: log entry 10). -/
def loadComponent (name : Component) (c : ComponentConfig) (memSize : Nat) (m : Memory) :
    Host.Outcome Memory Fault Refusal :=
  match c.resource with
  | .missing => .fault (.configurationError name .resourceMissing)
  | .unreadable => .fault (.configurationError name .resourceUnreadable)
  | .image bytes =>
    match c.base with
    | none => .fault (.configurationError name .baseMissing)
    | some cs =>
      match parseBase cs with
      | none => .fault (.configurationError name .baseMalformed)
      | some base =>
        match managerLoad memSize base bytes m with
        | none => .fault (.configurationError name .imageTooLarge)
        | some p => .next p.2

/-- Load a component if it is configured. -/
def loadConfigured (name : Component) (c : Option ComponentConfig) (memSize : Nat) (m : Memory) :
    Host.Outcome Memory Fault Refusal :=
  match c with
  | none => .next m
  | some c => loadComponent name c memSize m

/-- Power-up of a core in any state (R255): memory takes MEM_INIT, the BIOS and then the bootloader are
loaded, and the CPU is reset. A ConfigurationError aborts it, and no step is taken (R223). -/
def boot (memInit : Memory) (b : BootConfig) (s : State) : Next :=
  andThen (loadConfigured .bios b.bios s.cfg.memSize memInit) fun m1 =>
    andThen (loadConfigured .bootloader b.bootloader s.cfg.memSize m1) fun m2 =>
      .next (cpuReset (s.setMem m2))

/-! ### The outside world between two steps -/

/-- The host or a peripheral changes a byte of memory between two steps (R78; DEDUCED, safe: log entry
15). -/
def hostWrite (a : Nat) (b : Byte) (s : State) : State := placeByte a b s

/-- What the display and other observers read of memory (R71, R239). At an address that does not exist the
spec is silent, and there is no answer (DESIGN CHOICE, safe: log entry 15). -/
def hostRead (a : Nat) (s : State) : Option Byte := if isValidAddress s a then some (s.mem.read a) else none

/-- What observers of memory traffic see: DTR (R47, R242). -/
def observedTransfer (s : State) : Word := s.dtr

/-- The PIC's answers at the coming boundaries are these (R226). -/
def picAnswers (answers : List (Option Byte)) (s : State) : State := s.setPic answers

end Sys2Proof.Machine
end

