-- ==== Sys2Proof/Machine/Driver.lean ====
section
/-! DEFINITION. The Cpu driver loop over whole steps: FAULT recorded in the state (R147), runs (R148), power-up
with its fault (R223), and several cores over one memory (R79, R241). -/

namespace Sys2Proof

/-- What the elements other than FAULT and memory hold after a step that faulted in state s: not specified
(R147, U1), so a free value; nothing of it can be proved (DESIGN CHOICE, safe: log entry 6). -/
opaque Config.restAfterFault : Machine.Fault → Machine.State → Machine.State

/-- What a byte that the faulting step had written before it faulted then holds: any value (U1), so a free
value; nothing of it can be proved (DESIGN CHOICE, safe: log entry 6). -/
opaque Config.byteAfterFault : Machine.Fault → Machine.State → Nat → Byte

namespace Machine

/-! ### The state after a faulting step -/

/-- The addresses the pushes of a service store to, as far as the first push that faults: each push stores
the word d below the SP of the step's start (R211, R229), and one that faults stores nothing (R64, R214). -/
def frameBytes (s : State) : List Word → List Nat
  | [] => []
  | d :: rest =>
    let a := lin s.ss (s.sp - d).toNat
    if a + 1 < s.cfg.memSize then a :: (a + 1) :: frameBytes s rest else []

/-- The memory bytes a step from s that faults has written before (U1): those of a service's frame. An
instruction stores last, and a store that faults writes nothing (R64). -/
def writtenBeforeFault (s : State) : List Nat :=
  if interruptAccepted s then frameBytes s [2, 4, 6] else []

/-- The bytes at the addresses given hold any value, every other byte what it held (U1). -/
def freeBytes (f : Fault) (s : State) : List Nat → Memory → Memory
  | [], m => m
  | a :: rest, m => freeBytes f s rest (m.write a (Config.byteAfterFault f s a))

/-- Memory after a step from s raised f (R147, U1; DEDUCED, unsafe: log entry 6). -/
def memoryAfterFault (f : Fault) (s : State) : Memory := freeBytes f s (writtenBeforeFault s) s.mem

/-- The state after a step from s raised f: FAULT holds f (R49, R147), the parameters are the machine's,
memory is as U1 leaves it, and every other element is unspecified (DESIGN CHOICE, safe: log entry 6). -/
def afterFault (f : Fault) (s : State) : State :=
  { Config.restAfterFault f s with mem := memoryAfterFault f s, fault := some f, cfg := s.cfg }

/-! ### Calls, runs and power-up -/

/-- One call of the core by the host. Once FAULT is set no step is taken and nothing changes (R147, R49). No step
is refused, so the last case is never met. -/
def cpuStep (s : State) : State :=
  match s.fault with
  | some _ => s
  | none =>
    match step s with
    | .next t => t
    | .fault f => afterFault f s
    | .refused _ => s

/-- A run of n calls (R148). -/
def run : Nat → State → State
  | 0, s => s
  | n + 1, s => run n (cpuStep s)

/-- Memory where a boot stops (R255): MEM_INIT where the BIOS is refused, and the BIOS image over it where the
bootloader is (DEDUCED, unsafe: log entry 10). -/
def memoryAtFailedBoot (memInit : Memory) (b : BootConfig) (memSize : Nat) : Memory :=
  match loadConfigured .bios b.bios memSize memInit with
  | .next m => m
  | .fault _ => memInit
  | .refused _ => memInit

/-- Power-up as the host sees it: the launch state, or FAULT set to the ConfigurationError, before the CPU's
reset (R223, R255). -/
def powerUp (memInit : Memory) (b : BootConfig) (s : State) : State :=
  match boot memInit b s with
  | .next t => t
  | .fault f => (s.setMem (memoryAtFailedBoot memInit b s.cfg.memSize)).setFault (some f)
  | .refused _ => s

/-! ### Several cores -/

/-- Several core instances in one host (R79, R241): each has its own registers and flags, all share one
memory. The memory inside a core's own record is not used (DEDUCED, safe: log entry 13). -/
structure System where
  shared : Memory
  cores : List State
deriving DecidableEq, Repr

/-- One whole step of core k, on the shared memory (R79). -/
def System.stepCore (k : Nat) (y : System) : System :=
  match y.cores[k]? with
  | none => y
  | some c =>
    let c' := cpuStep (c.setMem y.shared)
    { shared := c'.mem, cores := y.cores.set k c' }

/-- Whole steps interleaved in the order given (R79, D28). -/
def System.run : List Nat → System → System
  | [], y => y
  | k :: ks, y => System.run ks (y.stepCore k)

end Machine

end Sys2Proof
end

