-- ==== Sys2Proof/Machine/Ports.lean ====
section
/-! DEFINITION. The port I/O interface (R84, R239, D27): "the Cpu holds an array of these and forwards port
I/O". No instruction of this version reaches it. -/

namespace Sys2Proof

namespace Machine

/-- A port number: the 65536 byte ports of D27. -/
abbrev Port := BitVec 16

/-- The peripherals the array may hold (R239). What each does inside is out of scope (R5). -/
inductive PeripheralKind where
  | dma | pic | pit | ppi | crtc
deriving DecidableEq, Repr, Inhabited

/-- One transfer at the interface, of a byte or of a word (R84): a read with the answer the array gave, or a
write. -/
inductive PortTransfer where
  | read8 (port : Port) (answer : Byte)
  | read16 (port : Port) (answer : Word)
  | write8 (port : Port) (value : Byte)
  | write16 (port : Port) (value : Word)
deriving DecidableEq, Repr, Inhabited

/-- The peripheral array at its interface (R239): what it holds, and the transfers forwarded to it, the latest
first. -/
structure PeripheralArray where
  peripherals : List PeripheralKind
  forwarded : List PortTransfer
deriving DecidableEq, Repr, Inhabited

/-- The Cpu: the core, and the peripheral array it holds (R239). The array is no state of the core (R50). -/
structure Cpu where
  core : State
  array : PeripheralArray
deriving DecidableEq, Repr, Inhabited

end Machine

/-- What the array answers to a byte read of a port, after the transfers forwarded before: the spec does not
say, so a free value (DESIGN CHOICE, safe: log entry 17). -/
opaque Config.portByte : List Machine.PortTransfer → Machine.Port → Byte

/-- What the array answers to a word read of a port (DESIGN CHOICE, safe: log entry 17). -/
opaque Config.portWord : List Machine.PortTransfer → Machine.Port → Word

namespace Machine

/-- Forward one transfer to the array (R84, R239). The core is not touched: its DTR latches memory transfers
(R66). -/
def Cpu.forward (x : PortTransfer) (c : Cpu) : Cpu :=
  { c with array := { c.array with forwarded := x :: c.array.forwarded } }

/-- A byte read of a port. -/
def portRead8 (p : Port) (c : Cpu) : Byte × Cpu :=
  let v := Config.portByte c.array.forwarded p
  (v, c.forward (.read8 p v))

/-- A word read of a port, forwarded as one transfer (DESIGN CHOICE, safe: log entry 17). -/
def portRead16 (p : Port) (c : Cpu) : Word × Cpu :=
  let v := Config.portWord c.array.forwarded p
  (v, c.forward (.read16 p v))

/-- A byte write of a port. -/
def portWrite8 (p : Port) (v : Byte) (c : Cpu) : Cpu := c.forward (.write8 p v)

/-- A word write of a port, forwarded as one transfer (DESIGN CHOICE, safe: log entry 17). -/
def portWrite16 (p : Port) (v : Word) (c : Cpu) : Cpu := c.forward (.write16 p v)

/-- One call of the core by the host. It forwards no transfer: no instruction of this version, and no
interrupt service, reaches the port space (R84). -/
def Cpu.step (c : Cpu) : Cpu := { c with core := cpuStep c.core }

end Machine

end Sys2Proof
end

