-- ==== Sys2Proof/Safety.lean ====
section
/-! DEFINITION. The terms claims are stated in: the invariant of the machine, what a step needs to run an
instruction, and what leaves a part of the state unchanged. -/

namespace Sys2Proof.Machine

/-- The invariant of the machine: memory in canonical form and inside MEM_SIZE (R48, R60), the queue's cursors
and count in agreement (R40), the bits of FLAGS that name no flag 0 (R37), and the parameters as the
spec requires (R7, R259). -/
abbrev State.Inv (s : State) : Prop :=
  s.mem.wf = true ∧ s.mem.within s.cfg.memSize = true ∧ s.queue.ok = true ∧
    s.flags &&& ~~~namedFlags = 0#32 ∧ s.cfg.ok

/-- The linear address of the instruction at CS:IP. -/
def State.pcAddress (s : State) : Nat := lin s.cs s.ip.toNat

/-- The next step is an instruction step: no fault is recorded and no interrupt is accepted (R141). -/
abbrev State.RunsInstruction (s : State) : Prop := s.fault = none ∧ interruptAccepted s = false

/-- The six bytes of the burst exist (R76). -/
abbrev State.BurstValid (s : State) : Prop := s.pcAddress + 5 < s.cfg.memSize

/-- The queue a burst leaves: six bytes from CS:IP, head and tail at 0 (R75). -/
def burstQueue (s : State) : Queue :=
  ⟨#v[s.mem.read s.pcAddress, s.mem.read (s.pcAddress + 1), s.mem.read (s.pcAddress + 2),
      s.mem.read (s.pcAddress + 3), s.mem.read (s.pcAddress + 4), s.mem.read (s.pcAddress + 5)], 0, 0, 6⟩

/-- The state a burst leaves: the queue filled, DTR the last byte read (R66). -/
def fetched (s : State) : State :=
  (s.setQueue (burstQueue s)).setDtr ((s.mem.read (s.pcAddress + 5)).setWidth 16)

/-- The bytes bs stand in memory from the linear address a upward. -/
def bytesAt (m : Memory) : Nat → List Byte → Prop
  | _, [] => True
  | a, b :: rest => m.read a = b ∧ bytesAt m (a + 1) rest

/-- All n bytes from the linear address a upward exist (R60). -/
abbrev accessible (s : State) (a n : Nat) : Prop := a + n ≤ s.cfg.memSize

/-- Everything but the eight registers an operand can name, memory and DTR is unchanged. -/
def sameControl (s t : State) : Prop :=
  t.cs = s.cs ∧ t.ds = s.ds ∧ t.es = s.es ∧ t.ss = s.ss ∧ t.ip = s.ip ∧ t.flags = s.flags ∧
    t.queue = s.queue ∧ t.defseg = s.defseg ∧ t.fault = s.fault ∧ t.pic = s.pic ∧ t.draws = s.draws ∧
    t.cfg = s.cfg

/-- The eight registers an operand can name are unchanged. -/
def sameRegisters (s t : State) : Prop := ∀ r, t.reg16 r = s.reg16 r

/-- The 16-bit registers other than d are unchanged. -/
def sameRegistersBut (d : Reg16) (s t : State) : Prop := ∀ r, r ≠ d → t.reg16 r = s.reg16 r

/-- Every half other than d, and every 16-bit register d is no half of, is unchanged. -/
def sameHalvesBut (d : Reg8) (s t : State) : Prop :=
  (∀ r, r ≠ d → t.reg8 r = s.reg8 r) ∧ ∀ r, r ≠ Reg8.whole d → t.reg16 r = s.reg16 r

/-- Every byte of memory reads as before. -/
def sameMemory (s t : State) : Prop := ∀ x, t.mem.read x = s.mem.read x

/-- Every byte of memory outside the n bytes from a reads as before. -/
def sameMemoryOutside (a n : Nat) (s t : State) : Prop :=
  ∀ x, x < a ∨ a + n ≤ x → t.mem.read x = s.mem.read x

/-- The decimal digits and their values (R254). -/
def decimalDigits : List (Char × Nat) :=
  [('0', 0), ('1', 1), ('2', 2), ('3', 3), ('4', 4), ('5', 5), ('6', 6), ('7', 7), ('8', 8), ('9', 9)]

/-- The hexadecimal digits of either case and their values (R254). -/
def hexDigits : List (Char × Nat) :=
  decimalDigits ++ [('a', 10), ('b', 11), ('c', 12), ('d', 13), ('e', 14), ('f', 15)] ++
    [('A', 10), ('B', 11), ('C', 12), ('D', 13), ('E', 14), ('F', 15)]

/-- The characters cs, at least one and digits all, spell the number n. -/
def spells (radix : Nat) (digits : List (Char × Nat)) (cs : List Char) (n : Nat) : Prop :=
  cs ≠ [] ∧ ∃ vs : List Nat, (cs.map fun c => digits.lookup c) = vs.map some ∧
    n = vs.foldl (fun v d => radix * v + d) 0

/-- What a component's configuration gives a memory of memSize bytes (R254): nothing where the component is not
configured, else the image of its resource, from the value of its base, where it fits. -/
def loadable (memSize : Nat) (c : Option ComponentConfig) (base : Nat) (image : List Byte) : Prop :=
  match c with
  | none => image = []
  | some c => c.resource = .image image ∧ (∃ cs, c.base = some cs ∧ parseBase cs = some base) ∧
      base + image.length ≤ memSize

/-- The one destination of a MOV (R172): a half, a 16-bit register, or n bytes of memory. -/
inductive Destination where
  | half (d : Reg8)
  | reg (d : Reg16)
  | bytes (m : MemOperand) (n : Nat)
deriving DecidableEq, Repr

/-- The destination operand of each instruction (R161 to R170). -/
def destination : Instr → Destination
  | .movRm8R8 (.reg d) _ => .half d
  | .movRm8R8 (.mem m) _ => .bytes m 1
  | .movRm16R16 (.reg d) _ => .reg d
  | .movRm16R16 (.mem m) _ => .bytes m 2
  | .movR8Rm8 d _ => .half d
  | .movR16Rm16 d _ => .reg d
  | .movAlMem _ => .half .al
  | .movAxMem _ => .reg .ax
  | .movMemAl a => .bytes (.direct a) 1
  | .movMemAx a => .bytes (.direct a) 2
  | .movR8Imm8 d _ => .half d
  | .movR16Imm16 d _ => .reg d

/-- Only the destination differs between s and t, and DTR. A memory destination is the n bytes from the
operand's address in s. -/
def changesOnly (d : Destination) (s t : State) : Prop :=
  sameControl s t ∧
    match d with
    | .half r => sameHalvesBut r s t ∧ sameMemory s t
    | .reg r => sameRegistersBut r s t ∧ sameMemory s t
    | .bytes m n => sameRegisters s t ∧ sameMemoryOutside (operandAddress s m) n s t

end Sys2Proof.Machine
end

