-- ==== Sys2Proof/Certificates/Slice0/Obligations.lean ====
section
/-! DEFINITION. The statements about the machine, for the provers. Each docstring names the rule of spec/ it
formalises. Numbers of more than one bit pattern are written as naturals where the rule does so. -/

open Sys2Proof Sys2Proof.Machine

/-! ### Encoding -/

/-- Decoding the bytes of a well-formed instruction gives it back, whatever follows it (R112 read from the
instruction's side; no bit of an encoding is dropped). -/
def Obligations.DecodeOfEncodeIsIdentity : Prop :=
  ∀ i : Instr, i.WellFormed → ∀ rest : List Byte, decodeBytes (encode i ++ rest) = .ok (i, rest)

/-- R112: the three formulas of encode, and re-assembly reconstructs the original bytes of every byte string
that decodes. -/
def Obligations.EncodeOfDecodeIsIdentity : Prop :=
  (∀ w reg imm, (InstructionValue.ir w reg imm).encode =
    [0xB0#8 ||| ((BitVec.ofBool w).setWidth 8 <<< 3) ||| reg.setWidth 8, lowByte imm] ++
      (if w then [highByte imm] else [])) ∧
  (∀ d w addr, (InstructionValue.ma d w addr).encode =
    [0xA0#8 ||| ((BitVec.ofBool d).setWidth 8 <<< 1) ||| (BitVec.ofBool w).setWidth 8, lowByte addr,
      highByte addr]) ∧
  (∀ d w mod reg r disp, (InstructionValue.rm d w mod reg r disp).encode =
    [0x88#8 ||| ((BitVec.ofBool d).setWidth 8 <<< 1) ||| (BitVec.ofBool w).setWidth 8,
      (mod.setWidth 8 <<< 6) ||| (reg.setWidth 8 <<< 3) ||| r.setWidth 8] ++
      (if displen mod r = 1 then [lowByte disp]
       else if displen mod r = 2 then [lowByte disp, highByte disp] else [])) ∧
  (∀ q0 q1 q2 q3 v, decodeValue q0 q1 q2 q3 = some v →
    v.encode = [q0, q1, q2, q3].take v.length ∧ v.toInstr.toValue = v) ∧
  ∀ (bs : List Byte) i rest, decodeBytes bs = .ok (i, rest) → bs = encode i ++ rest ∧ i.WellFormed

/-- R132: the three recognisers are pairwise disjoint, and accept exactly the 24 bytes of R105, 16, 4 and 4 of
them. The spec marks R132 as derived from R131. -/
def Obligations.RecognisersPartitionTheMap : Prop :=
  (∀ b : Byte,
    (isImmToReg b = true ↔ 0xB0 ≤ b.toNat ∧ b.toNat ≤ 0xBF) ∧
    (isMemAcc b = true ↔ 0xA0 ≤ b.toNat ∧ b.toNat ≤ 0xA3) ∧
    (isRegMemReg b = true ↔ 0x88 ≤ b.toNat ∧ b.toNat ≤ 0x8B) ∧
    ¬(isImmToReg b = true ∧ isMemAcc b = true) ∧ ¬(isImmToReg b = true ∧ isRegMemReg b = true) ∧
    ¬(isMemAcc b = true ∧ isRegMemReg b = true)) ∧
  (List.range 256).countP (fun n => isImmToReg (BitVec.ofNat 8 n)) = 16 ∧
  (List.range 256).countP (fun n => isMemAcc (BitVec.ofNat 8 n)) = 4 ∧
  (List.range 256).countP (fun n => isRegMemReg (BitVec.ofNat 8 n)) = 4

/-- R98, R106, R139 and R144: the decoder accepts exactly the 24 bytes of the opcode map, with every value of
the ModRM, displacement and immediate bytes, and names every other byte. Each opcode byte answers the one
instruction of its row, its operands from the fields and bytes of its class, and its length; and each 3-bit
number names its registers, also as the rm field with mod = 11. The spec marks the register table as from general knowledge, and the
legality of every ModRM and operand byte as derived. -/
def Obligations.DecoderAcceptsExactlyTheMap : Prop :=
  (∀ q0 q1 q2 q3 : Byte,
    (((0x88 ≤ q0.toNat ∧ q0.toNat ≤ 0x8B) ∨ (0xA0 ≤ q0.toNat ∧ q0.toNat ≤ 0xA3) ∨
        (0xB0 ≤ q0.toNat ∧ q0.toNat ≤ 0xBF)) →
      ∃ i len, decode q0 q1 q2 q3 = .ok (i, len) ∧ i.WellFormed ∧ 2 ≤ len ∧ len ≤ 4) ∧
    (¬((0x88 ≤ q0.toNat ∧ q0.toNat ≤ 0x8B) ∨ (0xA0 ≤ q0.toNat ∧ q0.toNat ≤ 0xA3) ∨
        (0xB0 ≤ q0.toNat ∧ q0.toNat ≤ 0xBF)) →
      decode q0 q1 q2 q3 = .error (.unrecognizedOpcode q0))) ∧
  (∀ (mod : BitVec 2) (reg rm : BitVec 3) (q2 q3 : Byte),
    decode 0x88 (mod ++ reg ++ rm) q2 q3 =
      .ok (.movRm8R8 (rmOperand Reg8.ofNum mod rm (dispValue mod rm q2 q3)) (Reg8.ofNum reg), 2 + displen mod rm) ∧
    decode 0x89 (mod ++ reg ++ rm) q2 q3 =
      .ok (.movRm16R16 (rmOperand Reg16.ofNum mod rm (dispValue mod rm q2 q3)) (Reg16.ofNum reg), 2 + displen mod rm) ∧
    decode 0x8A (mod ++ reg ++ rm) q2 q3 =
      .ok (.movR8Rm8 (Reg8.ofNum reg) (rmOperand Reg8.ofNum mod rm (dispValue mod rm q2 q3)), 2 + displen mod rm) ∧
    decode 0x8B (mod ++ reg ++ rm) q2 q3 =
      .ok (.movR16Rm16 (Reg16.ofNum reg) (rmOperand Reg16.ofNum mod rm (dispValue mod rm q2 q3)), 2 + displen mod rm)) ∧
  (∀ (q1 q2 q3 : Byte) (w : Word), w.toNat = q1.toNat + 256 * q2.toNat →
    decode 0xA0 q1 q2 q3 = .ok (.movAlMem w, 3) ∧ decode 0xA1 q1 q2 q3 = .ok (.movAxMem w, 3) ∧
    decode 0xA2 q1 q2 q3 = .ok (.movMemAl w, 3) ∧ decode 0xA3 q1 q2 q3 = .ok (.movMemAx w, 3) ∧
    ∀ reg : BitVec 3,
      decode (0b10110#5 ++ reg) q1 q2 q3 = .ok (.movR8Imm8 (Reg8.ofNum reg) q1, 2) ∧
      decode (0b10111#5 ++ reg) q1 q2 q3 = .ok (.movR16Imm16 (Reg16.ofNum reg) w, 3)) ∧
  (∀ p ∈ [(0b000#3, Reg16.ax, Reg8.al), (0b001#3, .cx, .cl), (0b010#3, .dx, .dl), (0b011#3, .bx, .bl),
      (0b100#3, .sp, .ah), (0b101#3, .bp, .ch), (0b110#3, .si, .dh), (0b111#3, .di, .bh)],
    Reg16.ofNum p.1 = p.2.1 ∧ Reg8.ofNum p.1 = p.2.2) ∧
  ∀ (rm : BitVec 3) (disp : Word), rmOperand Reg16.ofNum 0b11 rm disp = .reg (Reg16.ofNum rm) ∧
    rmOperand Reg8.ofNum 0b11 rm disp = .reg (Reg8.ofNum rm)

/-- R96 and R104: the displacement length of every (mod, rm) pair, the bytes it is taken from, and the length
the decoder reports, by class, from q[0] and q[1]. -/
def Obligations.DisplacementAndInstructionLengths : Prop :=
  (∀ (mod : BitVec 2) (r : BitVec 3),
    displen mod r = if (mod = 0 ∧ r = 6) ∨ mod = 2 then 2 else if mod = 1 then 1 else 0) ∧
  (∀ (mod : BitVec 2) (r : BitVec 3) (b3 b4 : Byte),
    (displen mod r = 2 → (dispValue mod r b3 b4).toNat = b3.toNat + 256 * b4.toNat) ∧
    (displen mod r = 1 → (dispValue mod r b3 b4).toNat % 256 = b3.toNat) ∧
    (displen mod r = 0 → dispValue mod r b3 b4 = 0)) ∧
  ∀ q0 q1 q2 q3 i len, decode q0 q1 q2 q3 = .ok (i, len) →
    (isImmToReg q0 = true → len = if q0.getLsbD 3 then 3 else 2) ∧
    (isMemAcc q0 = true → len = 3) ∧
    (isRegMemReg q0 = true → len = 2 + displen (q1.extractLsb' 6 2) (q1.extractLsb' 0 3))

/-- R113: the two encodings of a register-to-register move differ and execute the same, as in the example 89 C1
and 8B C8. The spec marks R113 as derived. -/
def Obligations.RedundantEncodingsExecuteTheSame : Prop :=
  (∀ (a b : Reg16) (s : State),
    exec (.movRm16R16 (.reg a) b) s = exec (.movR16Rm16 a (.reg b)) s ∧
      encode (.movRm16R16 (.reg a) b) ≠ encode (.movR16Rm16 a (.reg b))) ∧
  (∀ (a b : Reg8) (s : State),
    exec (.movRm8R8 (.reg a) b) s = exec (.movR8Rm8 a (.reg b)) s ∧
      encode (.movRm8R8 (.reg a) b) ≠ encode (.movR8Rm8 a (.reg b))) ∧
  encode (.movRm16R16 (.reg .cx) .ax) = [0x89, 0xC1] ∧ encode (.movR16Rm16 .cx (.reg .ax)) = [0x8B, 0xC8]

/-- Words written out from R92 to R94 decode to the instructions they stand for, one of each row of the opcode
table. -/
def Obligations.WrittenWordsDecode : Prop :=
  decodeBytes [0x89, 0xC1] = .ok (.movRm16R16 (.reg .cx) .ax, []) ∧
  decodeBytes [0x8B, 0x56, 0x02] = .ok (.movR16Rm16 .dx (.mem (.disp8 .bp 0x02)), []) ∧
  decodeBytes [0x8A, 0x1E, 0x01, 0x02] = .ok (.movR8Rm8 .bl (.mem (.direct 0x0201)), []) ∧
  decodeBytes [0x88, 0x47, 0x80] = .ok (.movRm8R8 (.mem (.disp8 .bx 0x80)) .al, []) ∧
  decodeBytes [0xA0, 0x34, 0x12] = .ok (.movAlMem 0x1234, []) ∧
  decodeBytes [0xA1, 0x01, 0x02] = .ok (.movAxMem 0x0201, []) ∧
  decodeBytes [0xA2, 0x00, 0x03] = .ok (.movMemAl 0x0300, []) ∧
  decodeBytes [0xA3, 0x00, 0x02] = .ok (.movMemAx 0x0200, []) ∧
  decodeBytes [0xB4, 0x12] = .ok (.movR8Imm8 .ah 0x12, []) ∧
  decodeBytes [0xB8, 0x34, 0x12] = .ok (.movR16Imm16 .ax 0x1234, [])

/-! ### Addresses and operands -/

/-- R61 and R62: the address generator over every segment and offset, its single-argument form, and which addresses
are valid. -/
def Obligations.LinearAddressFormula : Prop :=
  (∀ seg off : Word, lin seg off.toNat = (seg.toNat <<< 4) + off.toNat ∧ lin seg off.toNat ≤ 0x10FFEF) ∧
  (∃ seg off : Word, lin seg off.toNat = 0x10FFEF) ∧
  (∀ (s : State) (off : Nat), linDefault s off = lin s.defseg off) ∧
  ∀ (s : State) (a : Nat), isValidAddress s a = true ↔ a < s.cfg.memSize

/-- R97, R99 and R100: the displacement value and the effective address of every (mod, rm) pair that names
memory, as sums of naturals modulo 2^16. The spec marks the table, its modulus and the sign extension as
from general knowledge. -/
def Obligations.EffectiveAddressIsTheTable : Prop :=
  ∀ (s : State) (mod : BitVec 2) (r : BitVec 3) (b3 b4 : Byte),
    ((dispValue mod r b3 b4).toNat =
      if displen mod r = 0 then 0
      else if displen mod r = 1 then (if b3.toNat < 128 then b3.toNat else b3.toNat + 0xFF00)
      else b3.toNat + 256 * b4.toNat) ∧
    (mod ≠ 3 → ∃ m, rmOperand Reg16.ofNum mod r (dispValue mod r b3 b4) = .mem m ∧
      rmOperand Reg8.ofNum mod r (dispValue mod r b3 b4) = .mem m ∧
      (effectiveAddress s m).toNat =
        ((match r.toNat with
          | 0 => s.bx.toNat + s.si.toNat
          | 1 => s.bx.toNat + s.di.toNat
          | 2 => s.bp.toNat + s.si.toNat
          | 3 => s.bp.toNat + s.di.toNat
          | 4 => s.si.toNat
          | 5 => s.di.toNat
          | 6 => if mod = 0 then 0 else s.bp.toNat
          | _ => s.bx.toNat) + (dispValue mod r b3 b4).toNat) % 0x10000)

/-- R101: the segment value of a memory operand, by DATA_SEG_MODE, format, mod and rm, and the linear address it
gives with EA. The spec marks the SEG_8086 defaults as from general knowledge. -/
def Obligations.OperandSegmentRule : Prop :=
  (∀ (s : State) (m : MemOperand),
    operandAddress s m = (operandSegment s m).toNat * 16 + (effectiveAddress s m).toNat) ∧
  (∀ (s : State) (m : MemOperand), s.cfg.dataSegMode = .defaultField → operandSegment s m = s.defseg) ∧
  (∀ (s : State) (addr : Word), s.cfg.dataSegMode = .seg8086 → operandSegment s (.direct addr) = s.ds) ∧
  ∀ (s : State) (mod : BitVec 2) (r : BitVec 3) (disp : Word) (m : MemOperand),
    s.cfg.dataSegMode = .seg8086 → rmOperand Reg16.ofNum mod r disp = .mem m →
      operandSegment s m = if r = 2 ∨ r = 3 ∨ (r = 6 ∧ (mod = 1 ∨ mod = 2)) then s.ss else s.ds

/-! ### Memory -/

/-- R63: MemRead of one and of two bytes: the value, DTR, and the first invalid address; nothing but DTR
changes. -/
def Obligations.MemReadRule : Prop :=
  ∀ (a : Nat) (s : State),
    (a < s.cfg.memSize →
      memRead8 a s = .next (s.mem.read a, s.setDtr ((s.mem.read a).setWidth 16))) ∧
    (s.cfg.memSize ≤ a → memRead8 a s = .fault (.invalidAddress a s.cs s.ip)) ∧
    (a + 1 < s.cfg.memSize → ∃ v : Word, memRead16 a s = .next (v, s.setDtr v) ∧
      v.toNat = (s.mem.read a).toNat + 256 * (s.mem.read (a + 1)).toNat) ∧
    (s.cfg.memSize ≤ a → memRead16 a s = .fault (.invalidAddress a s.cs s.ip)) ∧
    (a < s.cfg.memSize ∧ s.cfg.memSize ≤ a + 1 →
      memRead16 a s = .fault (.invalidAddress (a + 1) s.cs s.ip))

/-- R64: MemWrite of one and of two bytes: the bytes stored, DTR, every other byte and all other state kept, and
a failing write faults with the first invalid address. -/
def Obligations.MemWriteRule : Prop :=
  ∀ (a : Nat) (s : State), s.mem.wf = true →
    (∀ v : Byte, a < s.cfg.memSize → ∃ m, memWrite8 a v s = .next ((s.setMem m).setDtr (v.setWidth 16)) ∧
      m.read a = v ∧ ∀ x, x ≠ a → m.read x = s.mem.read x) ∧
    (∀ v : Byte, s.cfg.memSize ≤ a → memWrite8 a v s = .fault (.invalidAddress a s.cs s.ip)) ∧
    (∀ v : Word, a + 1 < s.cfg.memSize → ∃ m, memWrite16 a v s = .next ((s.setMem m).setDtr v) ∧
      m.read a = lowByte v ∧ m.read (a + 1) = highByte v ∧
      ∀ x, x ≠ a → x ≠ a + 1 → m.read x = s.mem.read x) ∧
    (∀ v : Word, s.cfg.memSize ≤ a → memWrite16 a v s = .fault (.invalidAddress a s.cs s.ip)) ∧
    (∀ v : Word, a < s.cfg.memSize ∧ s.cfg.memSize ≤ a + 1 →
      memWrite16 a v s = .fault (.invalidAddress (a + 1) s.cs s.ip))

/-! ### Registers -/

/-- R24: after a half is written it reads back and the other half, and every bit above them, is unchanged, for
a register of any width of at least two bytes. -/
def Obligations.HalvesAreIndependent : Prop :=
  ∀ (n v : Nat) (x : BitVec n), 16 ≤ n →
    (getH (setH (BitVec.ofNat 8 v) x)).toNat = v &&& 0xFF ∧ getL (setH (BitVec.ofNat 8 v) x) = getL x ∧
    (getL (setL (BitVec.ofNat 8 v) x)).toNat = v &&& 0xFF ∧ getH (setL (BitVec.ofNat 8 v) x) = getH x ∧
    ∀ k, 16 ≤ k → (setH (BitVec.ofNat 8 v) x).getLsbD k = x.getLsbD k ∧
      (setL (BitVec.ofNat 8 v) x).getLsbD k = x.getLsbD k

/-- R22: a write stores the value modulo 2^(8W), and changes no other register; for a register cell of each width,
the eight operand registers, the halves, the segment registers and IP. -/
def Obligations.RegisterWriteIsMaskedAndAlone : Prop :=
  (∀ (w : RegWidth) (v : Nat), (Cell.write w v).toNat = v % 2 ^ (8 * w.bytes)) ∧
  (∀ (s : State) (r : Reg16) (v : Nat),
    ((s.setReg16 r (BitVec.ofNat 16 v)).reg16 r).toNat = v % 2 ^ 16 ∧
    (∀ r', r' ≠ r → (s.setReg16 r (BitVec.ofNat 16 v)).reg16 r' = s.reg16 r') ∧
    (∀ g, (s.setReg16 r (BitVec.ofNat 16 v)).seg g = s.seg g) ∧ (s.setReg16 r (BitVec.ofNat 16 v)).ip = s.ip) ∧
  (∀ (s : State) (g : SegReg) (v : Nat),
    ((s.setSeg g (BitVec.ofNat 16 v)).seg g).toNat = v % 2 ^ 16 ∧
    (∀ g', g' ≠ g → (s.setSeg g (BitVec.ofNat 16 v)).seg g' = s.seg g') ∧
    (∀ r, (s.setSeg g (BitVec.ofNat 16 v)).reg16 r = s.reg16 r) ∧ (s.setSeg g (BitVec.ofNat 16 v)).ip = s.ip) ∧
  (∀ (s : State) (v : Nat), (s.setIp (BitVec.ofNat 16 v)).ip.toNat = v % 2 ^ 16 ∧
    (∀ r, (s.setIp (BitVec.ofNat 16 v)).reg16 r = s.reg16 r) ∧
    ∀ g, (s.setIp (BitVec.ofNat 16 v)).seg g = s.seg g) ∧
  ∀ (s : State) (r : Reg8) (v : Byte), (s.setReg8 r v).reg8 r = v ∧
    (∀ r', r' ≠ r → (s.setReg8 r v).reg8 r' = s.reg8 r') ∧
    (∀ r', r' ≠ Reg8.whole r → (s.setReg8 r v).reg16 r' = s.reg16 r') ∧
    (∀ g, (s.setReg8 r v).seg g = s.seg g) ∧ (s.setReg8 r v).ip = s.ip

/-- R25: increment and decrement of a pointer register by any delta, modulo 2^16, and no other register
changed. -/
def Obligations.PointerArithmeticWraps : Prop :=
  ∀ (s : State) (r : PtrReg) (d : Nat),
    ((s.incPtr r d).reg16 r.reg).toNat = ((s.reg16 r.reg).toNat + d) % 0x10000 ∧
    (((s.decPtr r d).reg16 r.reg).toNat : Int) = ((s.reg16 r.reg).toNat - (d : Int)) % 0x10000 ∧
    (∀ r', r' ≠ r.reg → (s.incPtr r d).reg16 r' = s.reg16 r' ∧ (s.decPtr r d).reg16 r' = s.reg16 r') ∧
    (∀ g, (s.incPtr r d).seg g = s.seg g ∧ (s.decPtr r d).seg g = s.seg g) ∧
    (s.incPtr r d).ip = s.ip ∧ (s.decPtr r d).ip = s.ip

/-! ### The status word -/

/-- R34 and R35: the operations setFlag, clearFlag and hasFlag touch and read the targeted flag's bits only, IOPL's two
together, and reset zeroes all 32 bits. The bit places are R34's, which the spec marks as from general
knowledge, and that IOPL's two bits go together is the spec's own choice (D21). -/
def Obligations.FlagOperationsTargetOneFlag : Prop :=
  (∀ (f : Flag) (w : DWord),
    hasFlag f (setFlag f w) = true ∧ hasFlag f (clearFlag f w) = false ∧
    (∀ k, f.mask.getLsbD k = true →
      (setFlag f w).getLsbD k = true ∧ (clearFlag f w).getLsbD k = false) ∧
    (∀ k, f.mask.getLsbD k = false →
      (setFlag f w).getLsbD k = w.getLsbD k ∧ (clearFlag f w).getLsbD k = w.getLsbD k) ∧
    (hasFlag f w = true ↔ ∃ k, f.mask.getLsbD k = true ∧ w.getLsbD k = true)) ∧
  Flag.mask .iopl = 0x3000#32 ∧
  (∀ p ∈ [(Flag.cf, 0), (.pf, 2), (.af, 4), (.zf, 6), (.sf, 7), (.tf, 8), (.intEnable, 9), (.df, 10), (.of, 11),
      (.nt, 14), (.rf, 16), (.vm, 17), (.ac, 18), (.vif, 19), (.vip, 20), (.id, 21)],
    ∀ j, (p.1 : Flag).mask.getLsbD j = decide (j = (p.2 : Nat))) ∧
  ∀ w : DWord, resetFlags w = 0#32

/-- R37: no operation of the core writes a bit of FLAGS that names no flag: setFlag, clearFlag, the ALU and
a step keep them, and the whole-value write of the low word leaves them 0 where they are 0. The spec marks this as derived; that
the whole-value write skips those bits is the model's reading (log entry 9). -/
def Obligations.ReservedFlagBitsAreKept : Prop :=
  (∀ (f : Flag) (w : DWord), setFlag f w &&& ~~~namedFlags = w &&& ~~~namedFlags ∧
    clearFlag f w &&& ~~~namedFlags = w &&& ~~~namedFlags) ∧
  (∀ (v : Word) (w : DWord), w &&& ~~~namedFlags = 0#32 → writeFlagsLow v w &&& ~~~namedFlags = 0#32) ∧
  (∀ (n : Nat) (op : AluOp) (a b : BitVec n) (s : State),
    (aluExec op a b s).2.flags &&& ~~~namedFlags = s.flags &&& ~~~namedFlags) ∧
  ∀ s t : State, step s = .next t → t.flags &&& ~~~namedFlags = s.flags &&& ~~~namedFlags

/-! ### The ALU -/

/-- R182, R183 and R197: ADD and ADC of both widths: the result modulo 2^N, CF the unsigned carry, AF the carry
out of bit 3, OF the two's-complement overflow of the sum of the operands as signed numbers. The spec marks
the formulas as from general knowledge. -/
def Obligations.AddIntegerLaws : Prop :=
  ∀ (n : Nat), n = 8 ∨ n = 16 → ∀ (op : AluOp) (a b : BitVec n) (s : State) (c : Nat),
    op = .add ∧ c = 0 ∨ op = .adc ∧ c = (hasFlag .cf s.flags).toNat →
    (aluExec op a b s).1.toNat = (a.toNat + b.toNat + c) % 2 ^ n ∧
    (hasFlag .cf (aluExec op a b s).2.flags = true ↔ 2 ^ n ≤ a.toNat + b.toNat + c) ∧
    (hasFlag .af (aluExec op a b s).2.flags = true ↔ 16 ≤ a.toNat % 16 + b.toNat % 16 + c) ∧
    (hasFlag .of (aluExec op a b s).2.flags = true ↔
      a.toInt + b.toInt + c < -2 ^ (n - 1) ∨ 2 ^ (n - 1) ≤ a.toInt + b.toInt + c)

/-- R184, R185, R186 and R197: SUB, SBB and CMP of both widths: the difference modulo 2^N, CF the unsigned
borrow, AF the borrow into bit 3, OF the two's-complement overflow. The spec marks the formulas as from
general knowledge. -/
def Obligations.SubtractIntegerLaws : Prop :=
  ∀ (n : Nat), n = 8 ∨ n = 16 → ∀ (op : AluOp) (a b : BitVec n) (s : State) (c : Nat),
    (op = .sub ∨ op = .cmp) ∧ c = 0 ∨ op = .sbb ∧ c = (hasFlag .cf s.flags).toNat →
    ((aluExec op a b s).1.toNat : Int) = ((a.toNat : Int) - b.toNat - c) % 2 ^ n ∧
    (hasFlag .cf (aluExec op a b s).2.flags = true ↔ a.toNat < b.toNat + c) ∧
    (hasFlag .af (aluExec op a b s).2.flags = true ↔ a.toNat % 16 < b.toNat % 16 + c) ∧
    (hasFlag .of (aluExec op a b s).2.flags = true ↔
      a.toInt - b.toInt - c < -2 ^ (n - 1) ∨ 2 ^ (n - 1) ≤ a.toInt - b.toInt - c)

/-- R187, R188, R189 and R197: INC, DEC and NEG of both widths as integer operations; INC and DEC keep CF. The
spec marks the formulas as from general knowledge. -/
def Obligations.UnaryIntegerLaws : Prop :=
  ∀ (n : Nat), n = 8 ∨ n = 16 → ∀ (a b : BitVec n) (s : State),
    (aluExec .inc a b s).1.toNat = (a.toNat + 1) % 2 ^ n ∧
    ((aluExec .dec a b s).1.toNat : Int) = ((a.toNat : Int) - 1) % 2 ^ n ∧
    ((aluExec .neg a b s).1.toNat : Int) = (-(a.toNat : Int)) % 2 ^ n ∧
    hasFlag .cf (aluExec .inc a b s).2.flags = hasFlag .cf s.flags ∧
    hasFlag .cf (aluExec .dec a b s).2.flags = hasFlag .cf s.flags ∧
    (hasFlag .cf (aluExec .neg a b s).2.flags = true ↔ 0 < a.toNat) ∧
    (hasFlag .of (aluExec .inc a b s).2.flags = true ↔ 2 ^ (n - 1) ≤ a.toInt + 1) ∧
    (hasFlag .of (aluExec .dec a b s).2.flags = true ↔ a.toInt - 1 < -2 ^ (n - 1)) ∧
    (hasFlag .of (aluExec .neg a b s).2.flags = true ↔ 2 ^ (n - 1) ≤ -a.toInt) ∧
    (hasFlag .af (aluExec .inc a b s).2.flags = true ↔ a.toNat % 16 = 15) ∧
    (hasFlag .af (aluExec .dec a b s).2.flags = true ↔ a.toNat % 16 = 0) ∧
    (hasFlag .af (aluExec .neg a b s).2.flags = true ↔ a.toNat % 16 ≠ 0)

/-- R190 to R195: the logic operations bit by bit, with CF and OF cleared and AF the next draw, whatever that
is; NOT and PASS, which write no flag. The spec marks the formulas as from general knowledge; how a draw is
taken is log entry 7. -/
def Obligations.LogicOperationLaws : Prop :=
  ∀ (n : Nat) (a b : BitVec n) (s : State),
    (∀ k, (aluExec .and a b s).1.getLsbD k = (a.getLsbD k && b.getLsbD k)) ∧
    (∀ k, (aluExec .test a b s).1.getLsbD k = (a.getLsbD k && b.getLsbD k)) ∧
    (∀ k, (aluExec .or a b s).1.getLsbD k = (a.getLsbD k || b.getLsbD k)) ∧
    (∀ k, (aluExec .xor a b s).1.getLsbD k = (a.getLsbD k != b.getLsbD k)) ∧
    (∀ k, k < n → (aluExec .not a b s).1.getLsbD k = !a.getLsbD k) ∧
    (aluExec .pass a b s).1 = b ∧
    (∀ op, op = .and ∨ op = .or ∨ op = .xor ∨ op = .test →
      hasFlag .cf (aluExec op a b s).2.flags = false ∧ hasFlag .of (aluExec op a b s).2.flags = false ∧
      hasFlag .af (aluExec op a b s).2.flags = Config.freeFlag s.draws ∧
      (aluExec op a b s).2.draws = s.draws + 1) ∧
    (aluExec .not a b s).2 = s ∧ (aluExec .pass a b s).2 = s

/-- R181: SF, ZF and PF of the result, for every operation that writes flags. PF counts the 1 bits of the low
byte. The spec marks the formulas as from general knowledge. -/
def Obligations.ResultFlagLaws : Prop :=
  ∀ (n : Nat), n = 8 ∨ n = 16 → ∀ (op : AluOp) (a b : BitVec n) (s : State), op ≠ .not → op ≠ .pass →
    hasFlag .sf (aluExec op a b s).2.flags = (aluExec op a b s).1.getLsbD (n - 1) ∧
    (hasFlag .zf (aluExec op a b s).2.flags = true ↔ (aluExec op a b s).1.toNat = 0) ∧
    (hasFlag .pf (aluExec op a b s).2.flags = true ↔
      ((List.range 8).map fun k => ((aluExec op a b s).1.getLsbD k).toNat).sum % 2 = 0)

/-- R196: an operation writes exactly the flags it lists; every other flag, and every bit of FLAGS outside the
six arithmetic flags, keeps its value, TF, IF, DF and both bits of IOPL among them, and nothing but FLAGS and the model's count of draws changes. How a draw is taken is
log entry 7. -/
def Obligations.AluWritesOnlyTheFlagsItLists : Prop :=
  ∀ (n : Nat) (op : AluOp) (a b : BitVec n) (s : State),
    (∀ f : Flag, f ≠ .cf → f ≠ .pf → f ≠ .af → f ≠ .zf → f ≠ .sf → f ≠ .of →
      hasFlag f (aluExec op a b s).2.flags = hasFlag f s.flags) ∧
    (∀ k, (∀ f ∈ ([.cf, .pf, .af, .zf, .sf, .of] : List Flag), f.mask.getLsbD k = false) →
      (aluExec op a b s).2.flags.getLsbD k = s.flags.getLsbD k) ∧
    (op = .inc ∨ op = .dec → hasFlag .cf (aluExec op a b s).2.flags = hasFlag .cf s.flags) ∧
    (op = .not ∨ op = .pass → (aluExec op a b s).2.flags = s.flags) ∧
    ∃ w d, (aluExec op a b s).2 = (s.setFlags w).setDraws d

/-! ### The queue and the burst -/

/-- R40, R42 and R44: a byte filled into a queue with room is found at the old count, the bytes before it stay
where they are, and the cursors stay in agreement; a full queue has no meaning for a fill, and no byte is
read past the count. That the model refuses a full queue is its choice, which R45 allows (log entry 14). -/
def Obligations.QueueFillAppends : Prop :=
  ∀ (q : Queue) (b : Byte), q.ok = true →
    (q.size < 6 → ∃ q', q.fill b = some q' ∧ q'.ok = true ∧ q'.size = q.size + 1 ∧
      q'.peek q.size = some b ∧ ∀ k, k < q.size → q'.peek k = q.peek k) ∧
    (q.isFull = true → q.fill b = none) ∧
    (∀ k, q.size ≤ k → q.peek k = none) ∧
    q.reset.ok = true ∧ q.reset.isEmpty = true ∧ q.reset.buf = q.buf

/-- R75: a burst whose six bytes exist leaves them in the queue, in order, with size 6, and changes nothing else
but DTR, which holds the last of them (R66). -/
def Obligations.BurstFillsTheQueue : Prop :=
  ∀ s : State, s.BurstValid → ∃ t : State, fillBurst s = .next t ∧
    (∀ k, k < 6 → t.queue.peek k = some (s.mem.read (lin s.cs s.ip.toNat + k))) ∧
    t.queue.size = 6 ∧ t.queue.isEmpty = false ∧ t.queue.isFull = true ∧ t.queue.head = 0 ∧
    t.queue.tail = 0 ∧ t.dtr = (s.mem.read (lin s.cs s.ip.toNat + 5)).setWidth 16 ∧
    t = (s.setQueue t.queue).setDtr t.dtr

/-- R76: where one of the six burst addresses does not exist, an instruction step faults with InvalidAddress and
the first such address, however short the instruction and whatever its opcode. -/
def Obligations.BurstPastTheEndFaults : Prop :=
  ∀ s : State, s.RunsInstruction → s.cfg.memSize ≤ lin s.cs s.ip.toNat + 5 →
    step s = .fault (.invalidAddress (max (lin s.cs s.ip.toNat) s.cfg.memSize) s.cs s.ip)

/-! ### The step -/

/-- R141: an instruction step whose bytes decode is exec of the instruction in the state the burst leaves, then
the IP advance by the decoded length. The step first passes the boundary, which changes the PIC's answers
only. How the PIC's answers are held is log entry 2. -/
def Obligations.StepRunsDecodedInstruction : Prop :=
  ∀ (s : State) (i : Instr) (len : Nat), s.RunsInstruction → s.BurstValid →
    decode (s.mem.read s.pcAddress) (s.mem.read (s.pcAddress + 1)) (s.mem.read (s.pcAddress + 2))
      (s.mem.read (s.pcAddress + 3)) = .ok (i, len) →
    (∃ p, passBoundary s = s.setPic p) ∧ len = i.length ∧
    step s = andThen (exec i (fetched (passBoundary s))) fun t => .next (t.advanceIp len)

/-- The same from the encoder's side: where the bytes of a well-formed instruction stand at CS:IP, the step runs
it (R112, R141). How the PIC's answers are held is log entry 2. -/
def Obligations.StepRunsEncodedInstruction : Prop :=
  ∀ (s : State) (i : Instr), s.RunsInstruction → s.BurstValid → i.WellFormed →
    bytesAt s.mem s.pcAddress (encode i) →
    step s = andThen (exec i (fetched (passBoundary s))) fun t => .next (t.advanceIp i.length)

/-- R222: after a burst that succeeds, a first byte outside the opcode map faults with UnrecognizedOpcode, the
byte and the CS:IP of the step. -/
def Obligations.UnrecognisedByteFaults : Prop :=
  ∀ s : State, s.RunsInstruction → s.BurstValid →
    ¬((0x88 ≤ (s.mem.read s.pcAddress).toNat ∧ (s.mem.read s.pcAddress).toNat ≤ 0x8B) ∨
      (0xA0 ≤ (s.mem.read s.pcAddress).toNat ∧ (s.mem.read s.pcAddress).toNat ≤ 0xA3) ∨
      (0xB0 ≤ (s.mem.read s.pcAddress).toNat ∧ (s.mem.read s.pcAddress).toNat ≤ 0xBF)) →
    step s = .fault (.unrecognizedOpcode (s.mem.read s.pcAddress) s.cs s.ip)

/-- R145: every instruction step moves IP past the instruction, modulo 2^16, and leaves CS unchanged. -/
def Obligations.InstructionStepAdvancesIp : Prop :=
  ∀ s t : State, s.RunsInstruction → step s = .next t →
    ∃ i len, decode (s.mem.read s.pcAddress) (s.mem.read (s.pcAddress + 1)) (s.mem.read (s.pcAddress + 2))
        (s.mem.read (s.pcAddress + 3)) = .ok (i, len) ∧
      t.ip.toNat = (s.ip.toNat + len) % 0x10000 ∧ t.cs = s.cs

/-- R29, R32, R46: DS, SS, ES and DEFSEG are written by no step, and neither are the parameters nor FAULT; CS
and FLAGS only by an interrupt service. -/
def Obligations.OnlyServicesChangeCsAndFlags : Prop :=
  ∀ s t : State, step s = .next t →
    t.ds = s.ds ∧ t.ss = s.ss ∧ t.es = s.es ∧ t.defseg = s.defseg ∧ t.cfg = s.cfg ∧ t.fault = none ∧
    t.draws = s.draws ∧ (interruptAccepted s = false → t.cs = s.cs ∧ t.flags = s.flags)

/-- Every step keeps the invariant: memory inside MEM_SIZE (R48, R60), queue cursors in agreement (R40), unnamed
FLAGS bits 0 (R37, which the spec marks as derived), and MEM_SIZE at least 1 (R7). The canonical form of
memory is the model's (log entry 3), and so is the one clock count of B0 to BF, which R259 fixes for B8 (log
entry 12). -/
def Obligations.EveryStepKeepsTheInvariant : Prop :=
  ∀ s t : State, s.Inv → step s = .next t → t.Inv

/-- The reset state meets the invariant, and so does every launch state with a legal memory and parameters. The
values of the queue cells and of an unlisted byte are log entries 3 and 4. -/
def Obligations.ResetMeetsTheInvariant : Prop :=
  State.reset.Inv ∧
  ∀ (c : Config) (m : Memory) (cells : Vector Byte 6), c.ok → m.wf = true → m.within c.memSize = true →
    (State.launch c m cells).Inv

/-- R44, R45: no step is refused; the queue is never filled past six bytes nor read past its count. The refusals
are the model's own (log entry 14). -/
def Obligations.NoStepIsRefused : Prop :=
  ∀ (s : State) (r : Refusal), step s ≠ .refused r

/-- R220, R221, R222, R225: the only faults a step raises are an InvalidAddress, at an address outside memory,
and an UnrecognizedOpcode, of the byte at CS:IP; each with the CS:IP of the step. -/
def Obligations.StepFaultsArePrecise : Prop :=
  ∀ (s : State) (f : Fault), s.fault = none → step s = .fault f →
    (∃ a, s.cfg.memSize ≤ a ∧ f = .invalidAddress a s.cs s.ip) ∨
    (s.BurstValid ∧ interruptAccepted s = false ∧
      f = .unrecognizedOpcode (s.mem.read s.pcAddress) s.cs s.ip)

/-- R49, R147: FAULT is none at reset, a step that faults sets it, and from then on the core takes no step and
nothing clears it. Memory keeps every byte the faulting step had not written: all of it after an
instruction step; after a service all but the words of the pushes before the first that faults. That a step of a faulted core answers its
fault is the model's choice (log entry 11); what the other elements hold, and that U1 frees no more of
memory, is log entry 6. -/
def Obligations.AFaultEndsTheRun : Prop :=
  State.reset.fault = none ∧
  (∀ (s : State) (f : Fault), s.fault = none → step s = .fault f →
    (∀ n, (run (n + 1) s).fault = some f ∧ run (n + 1) s = run 1 s) ∧
    (interruptAccepted s = false → (run 1 s).mem = s.mem) ∧
    ∀ x, x ∉ writtenBeforeFault s → (run 1 s).mem.read x = s.mem.read x) ∧
  (∀ (s : State) (x : Nat), x ∈ writtenBeforeFault s ↔ interruptAccepted s = true ∧
    ∃ d ∈ ([2, 4, 6] : List Word),
      (∀ e ∈ ([2, 4, 6] : List Word), e ≤ d → accessible s (lin s.ss (s.sp - e).toNat) 2) ∧
      (x = lin s.ss (s.sp - d).toNat ∨ x = lin s.ss (s.sp - d).toNat + 1)) ∧
  ∀ (s : State) (f : Fault), s.fault = some f → step s = .fault f ∧ ∀ n, run n s = s

/-- R47, R53: no rule of the core reads DTR: a step's outcome does not depend on it. -/
def Obligations.NoStepReadsDtr : Prop :=
  ∀ (s : State) (v : Word), step (s.setDtr v) = step s

/-- R82, R143: the queue is filled anew from memory in every instruction step, so what it held before, a stale
copy of the instruction among it, changes nothing. A service neither reads nor writes the queue: it carries
it through. -/
def Obligations.NoStepReadsTheOldQueue : Prop :=
  (∀ (s : State) (q : Queue), s.RunsInstruction → step (s.setQueue q) = step s) ∧
  ∀ (s : State) (q : Queue), s.fault = none → interruptAccepted s = true →
    step (s.setQueue q) = andThen (step s) fun t => .next (t.setQueue q)

/-- R260: the effect of a step is the same whatever CLOCK_TABLE holds. The table as a record by
instruction form is the model's (log entry 12). -/
def Obligations.ClockTableChangesNoEffect : Prop :=
  ∀ (s : State) (t : ClockTable),
    step { s with cfg := { s.cfg with clocks := t } } =
      andThen (step s) fun u => .next { u with cfg := { u.cfg with clocks := t } }

/-- R146 and R259: an instruction step reports the count that CLOCK_TABLE gives its instruction: by form, with
the effective-address clocks of (mod, rm) for a ModRM memory operand, and the odd-word penalty for a word at
an odd address; a service reports INT_CLOCKS. The default table is the published one; where B8 34 12 stands
at CS:IP the step reports 4 clocks and gives AX = 0x1234 and IP + 3. The spec marks every entry but B8's as
from general knowledge. The table as a record by instruction form is the model's (log entry 12), and so is
INT_CLOCKS as a free value (log entry 8). -/
def Obligations.StepReportsTheClockCost : Prop :=
  (∀ (s t : State) (i : Instr) (len : Nat), s.RunsInstruction → s.BurstValid →
    decode (s.mem.read s.pcAddress) (s.mem.read (s.pcAddress + 1)) (s.mem.read (s.pcAddress + 2))
      (s.mem.read (s.pcAddress + 3)) = .ok (i, len) →
    step s = .next t → clockedStep s = .next (instrClocks s i, t)) ∧
  (∀ s t : State, s.fault = none → interruptAccepted s = true → step s = .next t →
    clockedStep s = .next (Config.intClocks, t)) ∧
  (∀ (s : State) (r8 d8 : Reg8) (r16 d16 : Reg16) (m : MemOperand) (a v : Word) (b : Byte),
    instrClocks s (.movR8Imm8 d8 b) = s.cfg.clocks.regImm ∧ instrClocks s (.movR16Imm16 d16 v) = s.cfg.clocks.regImm ∧
    instrClocks s (.movRm8R8 (.reg d8) r8) = s.cfg.clocks.regReg ∧
    instrClocks s (.movRm16R16 (.reg d16) r16) = s.cfg.clocks.regReg ∧
    instrClocks s (.movR8Rm8 d8 (.reg r8)) = s.cfg.clocks.regReg ∧
    instrClocks s (.movR16Rm16 d16 (.reg r16)) = s.cfg.clocks.regReg ∧
    instrClocks s (.movRm8R8 (.mem m) r8) = s.cfg.clocks.regToMem + eaClocks s.cfg.clocks m ∧
    instrClocks s (.movRm16R16 (.mem m) r16) = s.cfg.clocks.regToMem + eaClocks s.cfg.clocks m +
      (if operandAddress s m % 2 = 1 then s.cfg.clocks.oddWord else 0) ∧
    instrClocks s (.movR8Rm8 d8 (.mem m)) = s.cfg.clocks.memToReg + eaClocks s.cfg.clocks m ∧
    instrClocks s (.movR16Rm16 d16 (.mem m)) = s.cfg.clocks.memToReg + eaClocks s.cfg.clocks m +
      (if operandAddress s m % 2 = 1 then s.cfg.clocks.oddWord else 0) ∧
    instrClocks s (.movAlMem a) = s.cfg.clocks.memToAcc ∧
    instrClocks s (.movAxMem a) = s.cfg.clocks.memToAcc +
      (if operandAddress s (.direct a) % 2 = 1 then s.cfg.clocks.oddWord else 0) ∧
    instrClocks s (.movMemAl a) = s.cfg.clocks.accToMem ∧
    instrClocks s (.movMemAx a) = s.cfg.clocks.accToMem +
      (if operandAddress s (.direct a) % 2 = 1 then s.cfg.clocks.oddWord else 0)) ∧
  (∀ (t : ClockTable) (mod : BitVec 2) (rm : BitVec 3) (disp : Word) (m : MemOperand),
    rmOperand Reg16.ofNum mod rm disp = .mem m →
    eaClocks t m =
      if mod = 0 then
        if rm = 6 then t.eaDirect else if rm = 0 ∨ rm = 3 then t.eaPairFast
        else if rm = 1 ∨ rm = 2 then t.eaPairSlow else t.eaSingle
      else if rm = 0 ∨ rm = 3 then t.eaPairFastDisp
      else if rm = 1 ∨ rm = 2 then t.eaPairSlowDisp else t.eaSingleDisp) ∧
  State.reset.cfg.clocks =
    { regImm := 4, regReg := 2, regToMem := 9, memToReg := 8, memToAcc := 10, accToMem := 10, eaDirect := 6
      eaSingle := 5, eaPairFast := 7, eaPairSlow := 8, eaSingleDisp := 9, eaPairFastDisp := 11
      eaPairSlowDisp := 12, oddWord := 4 } ∧
  ∀ s : State, s.cfg.ok → s.RunsInstruction → s.BurstValid →
    bytesAt s.mem s.pcAddress [0xB8, 0x34, 0x12] →
    ∃ t : State, clockedStep s = .next (4, t) ∧ step s = .next t ∧ t.ax = 0x1234#16 ∧ t.ip = s.ip + 3#16

/-! ### The MOV instructions -/

/-- R171: no MOV reads or writes a flag: with any FLAGS the outcome is the same but for FLAGS, which are as they
were. -/
def Obligations.NoMovReadsOrWritesFlags : Prop :=
  ∀ (i : Instr) (s : State),
    (∀ t, exec i s = .next t → t.flags = s.flags) ∧
    ∀ w : DWord, exec i (s.setFlags w) = andThen (exec i s) fun t => .next (t.setFlags w)

/-- R172: when a MOV answers a next state it has written its one destination and, of everything else, DTR at
most. For a store the bytes are those at the operand's address in the state before. The spec marks R172 as
derived. -/
def Obligations.EveryMovWritesOneDestination : Prop :=
  ∀ (i : Instr) (s t : State), exec i s = .next t → changesOnly (destination i) s t

/-- R161: MOV r/m8, r8 completes in its register form, and in its memory form where the byte exists; elsewhere
it faults with that address. -/
def Obligations.MovRm8R8Rule : Prop :=
  ∀ (s : State) (src : Reg8),
    (∀ d : Reg8, ∃ t : State, exec (.movRm8R8 (.reg d) src) s = .next t ∧ t.reg8 d = s.reg8 src ∧
      t.dtr = s.dtr ∧ changesOnly (.half d) s t) ∧
    (∀ m : MemOperand, s.mem.wf = true → accessible s (operandAddress s m) 1 →
      ∃ t : State, exec (.movRm8R8 (.mem m) src) s = .next t ∧
        t.mem.read (operandAddress s m) = s.reg8 src ∧ t.dtr = (s.reg8 src).setWidth 16 ∧
        changesOnly (.bytes m 1) s t) ∧
    (∀ m : MemOperand, s.cfg.memSize ≤ operandAddress s m →
      exec (.movRm8R8 (.mem m) src) s = .fault (.invalidAddress (operandAddress s m) s.cs s.ip))

/-- R162: MOV r/m16, r16 completes in its register form, and in its memory form where both bytes exist, low byte
at the lower address; elsewhere it faults with the first invalid address. -/
def Obligations.MovRm16R16Rule : Prop :=
  ∀ (s : State) (src : Reg16),
    (∀ d : Reg16, ∃ t : State, exec (.movRm16R16 (.reg d) src) s = .next t ∧ t.reg16 d = s.reg16 src ∧
      t.dtr = s.dtr ∧ changesOnly (.reg d) s t) ∧
    (∀ m : MemOperand, s.mem.wf = true → accessible s (operandAddress s m) 2 →
      ∃ t : State, exec (.movRm16R16 (.mem m) src) s = .next t ∧
        t.mem.read (operandAddress s m) = lowByte (s.reg16 src) ∧
        t.mem.read (operandAddress s m + 1) = highByte (s.reg16 src) ∧ t.dtr = s.reg16 src ∧
        changesOnly (.bytes m 2) s t) ∧
    (∀ m : MemOperand, ¬accessible s (operandAddress s m) 2 →
      exec (.movRm16R16 (.mem m) src) s =
        .fault (.invalidAddress (max (operandAddress s m) s.cfg.memSize) s.cs s.ip))

/-- R163: MOV r8, r/m8 completes in its register form, and in its memory form where the byte exists; elsewhere
it faults with that address. -/
def Obligations.MovR8Rm8Rule : Prop :=
  ∀ (s : State) (dst : Reg8),
    (∀ r : Reg8, ∃ t : State, exec (.movR8Rm8 dst (.reg r)) s = .next t ∧ t.reg8 dst = s.reg8 r ∧
      t.dtr = s.dtr ∧ changesOnly (.half dst) s t) ∧
    (∀ m : MemOperand, accessible s (operandAddress s m) 1 →
      ∃ t : State, exec (.movR8Rm8 dst (.mem m)) s = .next t ∧
        t.reg8 dst = s.mem.read (operandAddress s m) ∧
        t.dtr = (s.mem.read (operandAddress s m)).setWidth 16 ∧ changesOnly (.half dst) s t) ∧
    (∀ m : MemOperand, s.cfg.memSize ≤ operandAddress s m →
      exec (.movR8Rm8 dst (.mem m)) s = .fault (.invalidAddress (operandAddress s m) s.cs s.ip))

/-- R164: MOV r16, r/m16 completes in its register form, and in its memory form where both bytes exist; elsewhere
it faults with the first invalid address. -/
def Obligations.MovR16Rm16Rule : Prop :=
  ∀ (s : State) (dst : Reg16),
    (∀ r : Reg16, ∃ t : State, exec (.movR16Rm16 dst (.reg r)) s = .next t ∧ t.reg16 dst = s.reg16 r ∧
      t.dtr = s.dtr ∧ changesOnly (.reg dst) s t) ∧
    (∀ m : MemOperand, accessible s (operandAddress s m) 2 →
      ∃ t : State, exec (.movR16Rm16 dst (.mem m)) s = .next t ∧
        lowByte (t.reg16 dst) = s.mem.read (operandAddress s m) ∧
        highByte (t.reg16 dst) = s.mem.read (operandAddress s m + 1) ∧ t.dtr = t.reg16 dst ∧
        changesOnly (.reg dst) s t) ∧
    (∀ m : MemOperand, ¬accessible s (operandAddress s m) 2 →
      exec (.movR16Rm16 dst (.mem m)) s =
        .fault (.invalidAddress (max (operandAddress s m) s.cfg.memSize) s.cs s.ip))

/-- R165 and R166: the accumulator loads complete where their bytes exist, and fault with the first invalid
address elsewhere. -/
def Obligations.AccumulatorLoadsRule : Prop :=
  ∀ (s : State) (addr : Word),
    (accessible s (operandAddress s (.direct addr)) 1 →
      ∃ t : State, exec (.movAlMem addr) s = .next t ∧
        t.reg8 .al = s.mem.read (operandAddress s (.direct addr)) ∧ t.reg8 .ah = s.reg8 .ah ∧
        t.dtr = (s.mem.read (operandAddress s (.direct addr))).setWidth 16 ∧ changesOnly (.half .al) s t) ∧
    (s.cfg.memSize ≤ operandAddress s (.direct addr) →
      exec (.movAlMem addr) s = .fault (.invalidAddress (operandAddress s (.direct addr)) s.cs s.ip)) ∧
    (accessible s (operandAddress s (.direct addr)) 2 →
      ∃ t : State, exec (.movAxMem addr) s = .next t ∧
        lowByte t.ax = s.mem.read (operandAddress s (.direct addr)) ∧
        highByte t.ax = s.mem.read (operandAddress s (.direct addr) + 1) ∧ t.dtr = t.ax ∧
        changesOnly (.reg .ax) s t) ∧
    (¬accessible s (operandAddress s (.direct addr)) 2 →
      exec (.movAxMem addr) s =
        .fault (.invalidAddress (max (operandAddress s (.direct addr)) s.cfg.memSize) s.cs s.ip))

/-- R167 and R168: the accumulator stores complete where their bytes exist, AX with its low byte at the lower
address, and fault with the first invalid address elsewhere. -/
def Obligations.AccumulatorStoresRule : Prop :=
  ∀ (s : State) (addr : Word), s.mem.wf = true →
    (accessible s (operandAddress s (.direct addr)) 1 →
      ∃ t : State, exec (.movMemAl addr) s = .next t ∧
        t.mem.read (operandAddress s (.direct addr)) = s.reg8 .al ∧
        t.dtr = (s.reg8 .al).setWidth 16 ∧ changesOnly (.bytes (.direct addr) 1) s t) ∧
    (s.cfg.memSize ≤ operandAddress s (.direct addr) →
      exec (.movMemAl addr) s = .fault (.invalidAddress (operandAddress s (.direct addr)) s.cs s.ip)) ∧
    (accessible s (operandAddress s (.direct addr)) 2 →
      ∃ t : State, exec (.movMemAx addr) s = .next t ∧
        t.mem.read (operandAddress s (.direct addr)) = lowByte s.ax ∧
        t.mem.read (operandAddress s (.direct addr) + 1) = highByte s.ax ∧ t.dtr = s.ax ∧
        changesOnly (.bytes (.direct addr) 2) s t) ∧
    (¬accessible s (operandAddress s (.direct addr)) 2 →
      exec (.movMemAx addr) s =
        .fault (.invalidAddress (max (operandAddress s (.direct addr)) s.cfg.memSize) s.cs s.ip))

/-- R169 and R170: the immediate moves complete in every state, write the named half or register, and touch
neither memory nor DTR. -/
def Obligations.ImmediateMovesRule : Prop :=
  (∀ (s : State) (d : Reg8) (imm : Byte), ∃ t : State, exec (.movR8Imm8 d imm) s = .next t ∧
    t.reg8 d = imm ∧ t.dtr = s.dtr ∧ changesOnly (.half d) s t) ∧
  ∀ (s : State) (d : Reg16) (imm : Word), ∃ t : State, exec (.movR16Imm16 d imm) s = .next t ∧
    t.reg16 d = imm ∧ t.dtr = s.dtr ∧ changesOnly (.reg d) s t

/-! ### The stack -/

/-- R211 and R214: push decrements SP by 2 modulo 2^16 and stores the word at SS:SP, low byte at the lower
address, every other byte and register kept; where a byte does not exist it faults with the first such
address. -/
def Obligations.PushRule : Prop :=
  ∀ (s : State) (v : Word),
    (s.mem.wf = true → accessible s (lin s.ss (s.sp - 2).toNat) 2 →
      ∃ t : State, push v s = .next t ∧ (t.sp.toNat : Int) = ((s.sp.toNat : Int) - 2) % 0x10000 ∧
        t.mem.read (lin s.ss t.sp.toNat) = lowByte v ∧ t.mem.read (lin s.ss t.sp.toNat + 1) = highByte v ∧
        t.dtr = v ∧ sameMemoryOutside (lin s.ss t.sp.toNat) 2 s t ∧ sameRegistersBut .sp s t ∧
        sameControl s t) ∧
    (¬accessible s (lin s.ss (s.sp - 2).toNat) 2 →
      push v s = .fault (.invalidAddress (max (lin s.ss (s.sp - 2).toNat) s.cfg.memSize) s.cs s.ip))

/-- R212 and R214: pop reads the word at SS:SP, then increments SP by 2 modulo 2^16, memory and every other
register kept; where a byte does not exist it faults with the first such address. -/
def Obligations.PopRule : Prop :=
  ∀ s : State,
    (accessible s (lin s.ss s.sp.toNat) 2 →
      ∃ v t, pop s = .next (v, t) ∧ lowByte v = s.mem.read (lin s.ss s.sp.toNat) ∧
        highByte v = s.mem.read (lin s.ss s.sp.toNat + 1) ∧ t.sp.toNat = (s.sp.toNat + 2) % 0x10000 ∧
        t.dtr = v ∧ sameMemory s t ∧ sameRegistersBut .sp s t ∧ sameControl s t) ∧
    (¬accessible s (lin s.ss s.sp.toNat) 2 →
      pop s = .fault (.invalidAddress (max (lin s.ss s.sp.toNat) s.cfg.memSize) s.cs s.ip))

/-- R213: a pop after a push returns the word and leaves SP at its value before the push, for every SP at which
the push succeeds. -/
def Obligations.PopAfterPushReturnsTheWord : Prop :=
  ∀ (s t : State) (v : Word), s.mem.wf = true → push v s = .next t →
    ∃ u, pop t = .next (v, u) ∧ u.sp = s.sp ∧ sameRegisters s u ∧ sameControl s u

/-! ### Interrupts -/

/-- R228: when an interrupt is accepted; one that IF masks is not taken and stays pending in the PIC. How the
PIC's answers are held is log entry 2. -/
def Obligations.InterruptAcceptance : Prop :=
  (∀ s : State, interruptAccepted s = true ↔
    (∃ v rest, s.pic = some v :: rest) ∧ (s.cfg.intGatedByIf = false ∨ hasFlag .intEnable s.flags = true)) ∧
  Config.vectorDefault.intGatedByIf = false ∧
  (∀ (s t : State) (v : Byte) (rest : List (Option Byte)), s.pic = some v :: rest →
    s.cfg.intGatedByIf = true → hasFlag .intEnable s.flags = false → step s = .next t → t.pic = s.pic)

/-- R229, R230, R231: an accepted interrupt of vector v is serviced in one step: FLAGS[15:0] and CS:IP are
pushed in the order of INT_PUSH_ORDER, IF and TF are cleared, and no other bit of FLAGS changed, only with
INT_CLEARS_IF_TF and after the push, and CS:IP is loaded from the four bytes at 4v as the pushes left them. The spec marks the table layout and
the default push order as from general knowledge; how the PIC's answers are held is log entry 2. -/
def Obligations.InterruptServiceRule : Prop :=
  ∀ (s : State) (v : Byte) (rest : List (Option Byte)),
    s.fault = none → interruptAccepted s = true → s.pic = some v :: rest → s.mem.wf = true →
    accessible s (lin s.ss (s.sp - 2).toNat) 2 → accessible s (lin s.ss (s.sp - 4).toNat) 2 →
    accessible s (lin s.ss (s.sp - 6).toNat) 2 → accessible s (4 * v.toNat) 4 →
    ∃ t : State, step s = .next t ∧ t.sp = s.sp - 6 ∧ t.pic = rest ∧
      leWord (t.mem.read (lin s.ss (s.sp - 2).toNat)) (t.mem.read (lin s.ss (s.sp - 2).toNat + 1)) =
        s.flags.extractLsb' 0 16 ∧
      leWord (t.mem.read (lin s.ss (s.sp - 4).toNat)) (t.mem.read (lin s.ss (s.sp - 4).toNat + 1)) =
        (match s.cfg.pushOrder with | .flagsCsIp => s.cs | .flagsIpCs => s.ip) ∧
      leWord (t.mem.read (lin s.ss (s.sp - 6).toNat)) (t.mem.read (lin s.ss (s.sp - 6).toNat + 1)) =
        (match s.cfg.pushOrder with | .flagsCsIp => s.ip | .flagsIpCs => s.cs) ∧
      (∀ x, (∀ d : Word, d = 2 ∨ d = 4 ∨ d = 6 → x ≠ lin s.ss (s.sp - d).toNat ∧
        x ≠ lin s.ss (s.sp - d).toNat + 1) → t.mem.read x = s.mem.read x) ∧
      t.ip = leWord (t.mem.read (4 * v.toNat)) (t.mem.read (4 * v.toNat + 1)) ∧
      t.cs = leWord (t.mem.read (4 * v.toNat + 2)) (t.mem.read (4 * v.toNat + 3)) ∧ t.dtr = t.cs ∧
      (s.cfg.intClearsIfTf = false → t.flags = s.flags) ∧
      (s.cfg.intClearsIfTf = true → hasFlag .intEnable t.flags = false ∧ hasFlag .tf t.flags = false ∧
        ∀ k, (Flag.mask .intEnable).getLsbD k = false → (Flag.mask .tf).getLsbD k = false →
          t.flags.getLsbD k = s.flags.getLsbD k) ∧
      sameRegistersBut .sp s t ∧ t.ds = s.ds ∧ t.es = s.es ∧ t.ss = s.ss ∧ t.defseg = s.defseg ∧
      t.queue = s.queue ∧ t.fault = none ∧ t.cfg = s.cfg ∧ t.draws = s.draws

/-- R232, R233: at each boundary with an accepted interrupt the step is the service and no instruction runs, so
the bytes at CS:IP do not matter: a first byte outside the opcode map does not fault. The first of
the pushes, and after them the vector's entry, that reaches an address outside memory faults there. The spec marks R233 as derived; how the
PIC's answers are held is log entry 2. -/
def Obligations.ServiceComesBeforeTheInstruction : Prop :=
  ∀ (s : State) (v : Byte) (rest : List (Option Byte)),
    s.fault = none → interruptAccepted s = true → s.pic = some v :: rest →
    step s = service v (s.setPic rest) ∧ (∀ b cs ip, step s ≠ .fault (.unrecognizedOpcode b cs ip)) ∧
    (¬accessible s (lin s.ss (s.sp - 2).toNat) 2 →
      step s = .fault (.invalidAddress (max (lin s.ss (s.sp - 2).toNat) s.cfg.memSize) s.cs s.ip)) ∧
    (accessible s (lin s.ss (s.sp - 2).toNat) 2 → ¬accessible s (lin s.ss (s.sp - 4).toNat) 2 →
      step s = .fault (.invalidAddress (max (lin s.ss (s.sp - 4).toNat) s.cfg.memSize) s.cs s.ip)) ∧
    (accessible s (lin s.ss (s.sp - 2).toNat) 2 → accessible s (lin s.ss (s.sp - 4).toNat) 2 →
      ¬accessible s (lin s.ss (s.sp - 6).toNat) 2 →
      step s = .fault (.invalidAddress (max (lin s.ss (s.sp - 6).toNat) s.cfg.memSize) s.cs s.ip)) ∧
    (accessible s (lin s.ss (s.sp - 2).toNat) 2 → accessible s (lin s.ss (s.sp - 4).toNat) 2 →
      accessible s (lin s.ss (s.sp - 6).toNat) 2 → ¬accessible s (4 * v.toNat) 4 →
      step s = .fault (.invalidAddress (max (4 * v.toNat) s.cfg.memSize) s.cs s.ip))

/-! ### Reset, boot and the host -/

/-- R250, R251: reset zeroes every register, IP, FLAGS in all 32 bits, DEFSEG and DTR, empties the queue, clears
FAULT, and does not change memory. The entry point is then 0000:0000, linear address 0, and a burst fetches
from linear 0 to 5. The spec marks R251 as derived. -/
def Obligations.ResetAction : Prop :=
  ∀ s : State,
    (∀ r, (cpuReset s).reg16 r = 0#16) ∧ (∀ g, (cpuReset s).seg g = 0#16) ∧ (cpuReset s).ip = 0#16 ∧
    (cpuReset s).flags = 0#32 ∧ (cpuReset s).queue.head = 0 ∧ (cpuReset s).queue.tail = 0 ∧
    (cpuReset s).queue.count = 0 ∧ (cpuReset s).defseg = 0#16 ∧ (cpuReset s).dtr = 0#16 ∧
    (cpuReset s).fault = none ∧ (cpuReset s).mem = s.mem ∧ (cpuReset s).pcAddress = 0 ∧
    (6 ≤ s.cfg.memSize → ∃ t, fillBurst (cpuReset s) = .next t ∧
      ∀ k, k < 6 → t.queue.peek k = some (s.mem.read k))

/-- R254: a base is a non-empty string of decimal digits, or 0x or 0X and a non-empty string of hexadecimal
digits of either case, and its value is the number they spell; no other string is one, a sign or white
space included. A configured component is refused exactly when its resource is missing or unreadable, its
base missing or malformed, or its image does not fit; otherwise its bytes stand at base upward and no other
byte changes. The image as bytes already read, and the order of the checks, are log entry 10. -/
def Obligations.BootLoadRule : Prop :=
  (∀ (cs : List Char) (n : Nat), parseBase cs = some n ↔
    spells 10 decimalDigits cs n ∨
    ∃ x ds, cs = '0' :: x :: ds ∧ (x = 'x' ∨ x = 'X') ∧ spells 16 hexDigits ds n) ∧
  ∀ (name : Component) (c : ComponentConfig) (size : Nat) (m : Memory), m.wf = true →
    ((∃ e, loadComponent name c size m = .fault (.configurationError name e)) ↔
      c.resource = .missing ∨ c.resource = .unreadable ∨ c.base = none ∨
        (∃ cs, c.base = some cs ∧ parseBase cs = none) ∨
        ∃ bytes cs base, c.resource = .image bytes ∧ c.base = some cs ∧ parseBase cs = some base ∧
          size < base + bytes.length) ∧
    ∀ bytes cs base, c.resource = .image bytes → c.base = some cs → parseBase cs = some base →
      base + bytes.length ≤ size →
      ∃ m', loadComponent name c size m = .next m' ∧
        (∀ k, k < bytes.length → m'.read (base + k) = bytes.getD k 0) ∧
        ∀ x, x < base ∨ base + bytes.length ≤ x → m'.read x = m.read x

/-- R223, R255: boot loads the BIOS and then the bootloader, each if it is configured, a later image overwriting
an earlier one, and resets the CPU; MEM_INIT shows in every byte no image covers. A component that cannot
be loaded, the BIOS first, stops boot with its ConfigurationError; power-up then has FAULT set to it, and no
step is taken. The image as bytes already read is log entry 10; that a step of a faulted core answers its
fault is log entry 11. -/
def Obligations.BootOrder : Prop :=
  ∀ (s : State) (memInit : Memory) (b : BootConfig), memInit.wf = true →
    (∀ (base1 base2 : Nat) (image1 image2 : List Byte),
      loadable s.cfg.memSize b.bios base1 image1 → loadable s.cfg.memSize b.bootloader base2 image2 →
      ∃ t, boot memInit b s = .next t ∧ powerUp memInit b s = t ∧
        (∀ x, t.mem.read x =
          if base2 ≤ x ∧ x < base2 + image2.length then image2.getD (x - base2) 0
          else if base1 ≤ x ∧ x < base1 + image1.length then image1.getD (x - base1) 0
          else memInit.read x) ∧
        t = cpuReset (s.setMem t.mem)) ∧
    ((¬∃ base image, loadable s.cfg.memSize b.bios base image) →
      ∃ e, boot memInit b s = .fault (.configurationError .bios e)) ∧
    (∀ base image, loadable s.cfg.memSize b.bios base image →
      (¬∃ base2 image2, loadable s.cfg.memSize b.bootloader base2 image2) →
      ∃ e, boot memInit b s = .fault (.configurationError .bootloader e)) ∧
    ∀ f, boot memInit b s = .fault f →
      (∃ name e, f = .configurationError name e) ∧ (powerUp memInit b s).fault = some f ∧
      step (powerUp memInit b s) = .fault f ∧ ∀ n, run n (powerUp memInit b s) = powerUp memInit b s

/-- R79, R241: a step of one core leaves every other core's registers, flags and FAULT as they are, and sees and
leaves the one shared memory. A core that faults takes none of it from the others: only bytes its own step
had written may differ, and once it has faulted its steps change nothing. Shared memory keeps its canonical
form in every run, so that what a core stores another reads. How several cores are held is the model's
reading (log entry 13), as are the canonical form (log entry 3) and memory after a fault (log entry 6). Which
bytes a faulting step had written is stated in AFaultEndsTheRun. -/
def Obligations.CoresShareOnlyMemory : Prop :=
  (∀ (y : System) (k : Nat) (c : State), y.cores[k]? = some c →
    (∀ j, j ≠ k → (y.stepCore k).cores[j]? = y.cores[j]?) ∧
    (y.stepCore k).shared = (cpuStep (c.setMem y.shared)).mem ∧
    (y.stepCore k).cores[k]? = some (cpuStep (c.setMem y.shared)) ∧
    (∀ f, c.fault = some f → (y.stepCore k).shared = y.shared) ∧
    ∀ f, c.fault = none → step (c.setMem y.shared) = .fault f →
      (interruptAccepted c = false → (y.stepCore k).shared = y.shared) ∧
      ∀ x, x ∉ writtenBeforeFault (c.setMem y.shared) → (y.stepCore k).shared.read x = y.shared.read x) ∧
  ∀ (ks : List Nat) (y : System), y.shared.wf = true → (System.run ks y).shared.wf = true

/-- R84, R239: each of the four port transfers, a byte or a word read or written at any of the 65536 ports, is
forwarded to the peripheral array, once and as the latest, and touches nothing of the core; a call of the
core forwards none. The spec marks the port space as from general knowledge (D27); the answers as free
values, and a word transfer forwarded whole, are log entry 17. -/
def Obligations.PortTransfersAreForwarded : Prop :=
  ∀ (c : Cpu) (p : Port),
    (∃ v, (portRead8 p c).1 = v ∧ (portRead8 p c).2 = c.forward (.read8 p v)) ∧
    (∃ v, (portRead16 p c).1 = v ∧ (portRead16 p c).2 = c.forward (.read16 p v)) ∧
    (∀ v, portWrite8 p v c = c.forward (.write8 p v)) ∧ (∀ v, portWrite16 p v c = c.forward (.write16 p v)) ∧
    (∀ x, (c.forward x).core = c.core ∧ (c.forward x).array.peripherals = c.array.peripherals ∧
      (c.forward x).array.forwarded = x :: c.array.forwarded) ∧
    c.step.core = cpuStep c.core ∧ c.step.array = c.array
end

