-- ==== Sys2Proof/Laws/State.lean ====
section
/-! SUPPORT. One lemma per field per update of State, each true by rfl, so that no proof unfolds a record
update; and the reset state's fields. -/

namespace Sys2Proof.Machine.State

section
variable (s : State) (v : Word)
@[simp] theorem setIp_ax : (s.setIp v).ax = s.ax := rfl
@[simp] theorem setIp_bx : (s.setIp v).bx = s.bx := rfl
@[simp] theorem setIp_cx : (s.setIp v).cx = s.cx := rfl
@[simp] theorem setIp_dx : (s.setIp v).dx = s.dx := rfl
@[simp] theorem setIp_sp : (s.setIp v).sp = s.sp := rfl
@[simp] theorem setIp_bp : (s.setIp v).bp = s.bp := rfl
@[simp] theorem setIp_si : (s.setIp v).si = s.si := rfl
@[simp] theorem setIp_di : (s.setIp v).di = s.di := rfl
@[simp] theorem setIp_cs : (s.setIp v).cs = s.cs := rfl
@[simp] theorem setIp_ds : (s.setIp v).ds = s.ds := rfl
@[simp] theorem setIp_es : (s.setIp v).es = s.es := rfl
@[simp] theorem setIp_ss : (s.setIp v).ss = s.ss := rfl
@[simp] theorem setIp_ip : (s.setIp v).ip = v := rfl
@[simp] theorem setIp_flags : (s.setIp v).flags = s.flags := rfl
@[simp] theorem setIp_queue : (s.setIp v).queue = s.queue := rfl
@[simp] theorem setIp_defseg : (s.setIp v).defseg = s.defseg := rfl
@[simp] theorem setIp_dtr : (s.setIp v).dtr = s.dtr := rfl
@[simp] theorem setIp_mem : (s.setIp v).mem = s.mem := rfl
@[simp] theorem setIp_fault : (s.setIp v).fault = s.fault := rfl
@[simp] theorem setIp_pic : (s.setIp v).pic = s.pic := rfl
@[simp] theorem setIp_draws : (s.setIp v).draws = s.draws := rfl
@[simp] theorem setIp_cfg : (s.setIp v).cfg = s.cfg := rfl
@[simp] theorem setIp_reg16 (r : Reg16) : (s.setIp v).reg16 r = s.reg16 r := by cases r <;> rfl
@[simp] theorem setIp_reg8 (r : Reg8) : (s.setIp v).reg8 r = s.reg8 r := by cases r <;> rfl
end

section
variable (s : State) (v : Word)
@[simp] theorem setCs_ax : (s.setCs v).ax = s.ax := rfl
@[simp] theorem setCs_bx : (s.setCs v).bx = s.bx := rfl
@[simp] theorem setCs_cx : (s.setCs v).cx = s.cx := rfl
@[simp] theorem setCs_dx : (s.setCs v).dx = s.dx := rfl
@[simp] theorem setCs_sp : (s.setCs v).sp = s.sp := rfl
@[simp] theorem setCs_bp : (s.setCs v).bp = s.bp := rfl
@[simp] theorem setCs_si : (s.setCs v).si = s.si := rfl
@[simp] theorem setCs_di : (s.setCs v).di = s.di := rfl
@[simp] theorem setCs_cs : (s.setCs v).cs = v := rfl
@[simp] theorem setCs_ds : (s.setCs v).ds = s.ds := rfl
@[simp] theorem setCs_es : (s.setCs v).es = s.es := rfl
@[simp] theorem setCs_ss : (s.setCs v).ss = s.ss := rfl
@[simp] theorem setCs_ip : (s.setCs v).ip = s.ip := rfl
@[simp] theorem setCs_flags : (s.setCs v).flags = s.flags := rfl
@[simp] theorem setCs_queue : (s.setCs v).queue = s.queue := rfl
@[simp] theorem setCs_defseg : (s.setCs v).defseg = s.defseg := rfl
@[simp] theorem setCs_dtr : (s.setCs v).dtr = s.dtr := rfl
@[simp] theorem setCs_mem : (s.setCs v).mem = s.mem := rfl
@[simp] theorem setCs_fault : (s.setCs v).fault = s.fault := rfl
@[simp] theorem setCs_pic : (s.setCs v).pic = s.pic := rfl
@[simp] theorem setCs_draws : (s.setCs v).draws = s.draws := rfl
@[simp] theorem setCs_cfg : (s.setCs v).cfg = s.cfg := rfl
@[simp] theorem setCs_reg16 (r : Reg16) : (s.setCs v).reg16 r = s.reg16 r := by cases r <;> rfl
@[simp] theorem setCs_reg8 (r : Reg8) : (s.setCs v).reg8 r = s.reg8 r := by cases r <;> rfl
end

section
variable (s : State) (v : DWord)
@[simp] theorem setFlags_ax : (s.setFlags v).ax = s.ax := rfl
@[simp] theorem setFlags_bx : (s.setFlags v).bx = s.bx := rfl
@[simp] theorem setFlags_cx : (s.setFlags v).cx = s.cx := rfl
@[simp] theorem setFlags_dx : (s.setFlags v).dx = s.dx := rfl
@[simp] theorem setFlags_sp : (s.setFlags v).sp = s.sp := rfl
@[simp] theorem setFlags_bp : (s.setFlags v).bp = s.bp := rfl
@[simp] theorem setFlags_si : (s.setFlags v).si = s.si := rfl
@[simp] theorem setFlags_di : (s.setFlags v).di = s.di := rfl
@[simp] theorem setFlags_cs : (s.setFlags v).cs = s.cs := rfl
@[simp] theorem setFlags_ds : (s.setFlags v).ds = s.ds := rfl
@[simp] theorem setFlags_es : (s.setFlags v).es = s.es := rfl
@[simp] theorem setFlags_ss : (s.setFlags v).ss = s.ss := rfl
@[simp] theorem setFlags_ip : (s.setFlags v).ip = s.ip := rfl
@[simp] theorem setFlags_flags : (s.setFlags v).flags = v := rfl
@[simp] theorem setFlags_queue : (s.setFlags v).queue = s.queue := rfl
@[simp] theorem setFlags_defseg : (s.setFlags v).defseg = s.defseg := rfl
@[simp] theorem setFlags_dtr : (s.setFlags v).dtr = s.dtr := rfl
@[simp] theorem setFlags_mem : (s.setFlags v).mem = s.mem := rfl
@[simp] theorem setFlags_fault : (s.setFlags v).fault = s.fault := rfl
@[simp] theorem setFlags_pic : (s.setFlags v).pic = s.pic := rfl
@[simp] theorem setFlags_draws : (s.setFlags v).draws = s.draws := rfl
@[simp] theorem setFlags_cfg : (s.setFlags v).cfg = s.cfg := rfl
@[simp] theorem setFlags_reg16 (r : Reg16) : (s.setFlags v).reg16 r = s.reg16 r := by cases r <;> rfl
@[simp] theorem setFlags_reg8 (r : Reg8) : (s.setFlags v).reg8 r = s.reg8 r := by cases r <;> rfl
end

section
variable (s : State) (v : Queue)
@[simp] theorem setQueue_ax : (s.setQueue v).ax = s.ax := rfl
@[simp] theorem setQueue_bx : (s.setQueue v).bx = s.bx := rfl
@[simp] theorem setQueue_cx : (s.setQueue v).cx = s.cx := rfl
@[simp] theorem setQueue_dx : (s.setQueue v).dx = s.dx := rfl
@[simp] theorem setQueue_sp : (s.setQueue v).sp = s.sp := rfl
@[simp] theorem setQueue_bp : (s.setQueue v).bp = s.bp := rfl
@[simp] theorem setQueue_si : (s.setQueue v).si = s.si := rfl
@[simp] theorem setQueue_di : (s.setQueue v).di = s.di := rfl
@[simp] theorem setQueue_cs : (s.setQueue v).cs = s.cs := rfl
@[simp] theorem setQueue_ds : (s.setQueue v).ds = s.ds := rfl
@[simp] theorem setQueue_es : (s.setQueue v).es = s.es := rfl
@[simp] theorem setQueue_ss : (s.setQueue v).ss = s.ss := rfl
@[simp] theorem setQueue_ip : (s.setQueue v).ip = s.ip := rfl
@[simp] theorem setQueue_flags : (s.setQueue v).flags = s.flags := rfl
@[simp] theorem setQueue_queue : (s.setQueue v).queue = v := rfl
@[simp] theorem setQueue_defseg : (s.setQueue v).defseg = s.defseg := rfl
@[simp] theorem setQueue_dtr : (s.setQueue v).dtr = s.dtr := rfl
@[simp] theorem setQueue_mem : (s.setQueue v).mem = s.mem := rfl
@[simp] theorem setQueue_fault : (s.setQueue v).fault = s.fault := rfl
@[simp] theorem setQueue_pic : (s.setQueue v).pic = s.pic := rfl
@[simp] theorem setQueue_draws : (s.setQueue v).draws = s.draws := rfl
@[simp] theorem setQueue_cfg : (s.setQueue v).cfg = s.cfg := rfl
@[simp] theorem setQueue_reg16 (r : Reg16) : (s.setQueue v).reg16 r = s.reg16 r := by cases r <;> rfl
@[simp] theorem setQueue_reg8 (r : Reg8) : (s.setQueue v).reg8 r = s.reg8 r := by cases r <;> rfl
end

section
variable (s : State) (v : Word)
@[simp] theorem setDtr_ax : (s.setDtr v).ax = s.ax := rfl
@[simp] theorem setDtr_bx : (s.setDtr v).bx = s.bx := rfl
@[simp] theorem setDtr_cx : (s.setDtr v).cx = s.cx := rfl
@[simp] theorem setDtr_dx : (s.setDtr v).dx = s.dx := rfl
@[simp] theorem setDtr_sp : (s.setDtr v).sp = s.sp := rfl
@[simp] theorem setDtr_bp : (s.setDtr v).bp = s.bp := rfl
@[simp] theorem setDtr_si : (s.setDtr v).si = s.si := rfl
@[simp] theorem setDtr_di : (s.setDtr v).di = s.di := rfl
@[simp] theorem setDtr_cs : (s.setDtr v).cs = s.cs := rfl
@[simp] theorem setDtr_ds : (s.setDtr v).ds = s.ds := rfl
@[simp] theorem setDtr_es : (s.setDtr v).es = s.es := rfl
@[simp] theorem setDtr_ss : (s.setDtr v).ss = s.ss := rfl
@[simp] theorem setDtr_ip : (s.setDtr v).ip = s.ip := rfl
@[simp] theorem setDtr_flags : (s.setDtr v).flags = s.flags := rfl
@[simp] theorem setDtr_queue : (s.setDtr v).queue = s.queue := rfl
@[simp] theorem setDtr_defseg : (s.setDtr v).defseg = s.defseg := rfl
@[simp] theorem setDtr_dtr : (s.setDtr v).dtr = v := rfl
@[simp] theorem setDtr_mem : (s.setDtr v).mem = s.mem := rfl
@[simp] theorem setDtr_fault : (s.setDtr v).fault = s.fault := rfl
@[simp] theorem setDtr_pic : (s.setDtr v).pic = s.pic := rfl
@[simp] theorem setDtr_draws : (s.setDtr v).draws = s.draws := rfl
@[simp] theorem setDtr_cfg : (s.setDtr v).cfg = s.cfg := rfl
@[simp] theorem setDtr_reg16 (r : Reg16) : (s.setDtr v).reg16 r = s.reg16 r := by cases r <;> rfl
@[simp] theorem setDtr_reg8 (r : Reg8) : (s.setDtr v).reg8 r = s.reg8 r := by cases r <;> rfl
end

section
variable (s : State) (v : Memory)
@[simp] theorem setMem_ax : (s.setMem v).ax = s.ax := rfl
@[simp] theorem setMem_bx : (s.setMem v).bx = s.bx := rfl
@[simp] theorem setMem_cx : (s.setMem v).cx = s.cx := rfl
@[simp] theorem setMem_dx : (s.setMem v).dx = s.dx := rfl
@[simp] theorem setMem_sp : (s.setMem v).sp = s.sp := rfl
@[simp] theorem setMem_bp : (s.setMem v).bp = s.bp := rfl
@[simp] theorem setMem_si : (s.setMem v).si = s.si := rfl
@[simp] theorem setMem_di : (s.setMem v).di = s.di := rfl
@[simp] theorem setMem_cs : (s.setMem v).cs = s.cs := rfl
@[simp] theorem setMem_ds : (s.setMem v).ds = s.ds := rfl
@[simp] theorem setMem_es : (s.setMem v).es = s.es := rfl
@[simp] theorem setMem_ss : (s.setMem v).ss = s.ss := rfl
@[simp] theorem setMem_ip : (s.setMem v).ip = s.ip := rfl
@[simp] theorem setMem_flags : (s.setMem v).flags = s.flags := rfl
@[simp] theorem setMem_queue : (s.setMem v).queue = s.queue := rfl
@[simp] theorem setMem_defseg : (s.setMem v).defseg = s.defseg := rfl
@[simp] theorem setMem_dtr : (s.setMem v).dtr = s.dtr := rfl
@[simp] theorem setMem_mem : (s.setMem v).mem = v := rfl
@[simp] theorem setMem_fault : (s.setMem v).fault = s.fault := rfl
@[simp] theorem setMem_pic : (s.setMem v).pic = s.pic := rfl
@[simp] theorem setMem_draws : (s.setMem v).draws = s.draws := rfl
@[simp] theorem setMem_cfg : (s.setMem v).cfg = s.cfg := rfl
@[simp] theorem setMem_reg16 (r : Reg16) : (s.setMem v).reg16 r = s.reg16 r := by cases r <;> rfl
@[simp] theorem setMem_reg8 (r : Reg8) : (s.setMem v).reg8 r = s.reg8 r := by cases r <;> rfl
end

section
variable (s : State) (v : Option Fault)
@[simp] theorem setFault_ax : (s.setFault v).ax = s.ax := rfl
@[simp] theorem setFault_bx : (s.setFault v).bx = s.bx := rfl
@[simp] theorem setFault_cx : (s.setFault v).cx = s.cx := rfl
@[simp] theorem setFault_dx : (s.setFault v).dx = s.dx := rfl
@[simp] theorem setFault_sp : (s.setFault v).sp = s.sp := rfl
@[simp] theorem setFault_bp : (s.setFault v).bp = s.bp := rfl
@[simp] theorem setFault_si : (s.setFault v).si = s.si := rfl
@[simp] theorem setFault_di : (s.setFault v).di = s.di := rfl
@[simp] theorem setFault_cs : (s.setFault v).cs = s.cs := rfl
@[simp] theorem setFault_ds : (s.setFault v).ds = s.ds := rfl
@[simp] theorem setFault_es : (s.setFault v).es = s.es := rfl
@[simp] theorem setFault_ss : (s.setFault v).ss = s.ss := rfl
@[simp] theorem setFault_ip : (s.setFault v).ip = s.ip := rfl
@[simp] theorem setFault_flags : (s.setFault v).flags = s.flags := rfl
@[simp] theorem setFault_queue : (s.setFault v).queue = s.queue := rfl
@[simp] theorem setFault_defseg : (s.setFault v).defseg = s.defseg := rfl
@[simp] theorem setFault_dtr : (s.setFault v).dtr = s.dtr := rfl
@[simp] theorem setFault_mem : (s.setFault v).mem = s.mem := rfl
@[simp] theorem setFault_fault : (s.setFault v).fault = v := rfl
@[simp] theorem setFault_pic : (s.setFault v).pic = s.pic := rfl
@[simp] theorem setFault_draws : (s.setFault v).draws = s.draws := rfl
@[simp] theorem setFault_cfg : (s.setFault v).cfg = s.cfg := rfl
@[simp] theorem setFault_reg16 (r : Reg16) : (s.setFault v).reg16 r = s.reg16 r := by cases r <;> rfl
@[simp] theorem setFault_reg8 (r : Reg8) : (s.setFault v).reg8 r = s.reg8 r := by cases r <;> rfl
end

section
variable (s : State) (v : List (Option Byte))
@[simp] theorem setPic_ax : (s.setPic v).ax = s.ax := rfl
@[simp] theorem setPic_bx : (s.setPic v).bx = s.bx := rfl
@[simp] theorem setPic_cx : (s.setPic v).cx = s.cx := rfl
@[simp] theorem setPic_dx : (s.setPic v).dx = s.dx := rfl
@[simp] theorem setPic_sp : (s.setPic v).sp = s.sp := rfl
@[simp] theorem setPic_bp : (s.setPic v).bp = s.bp := rfl
@[simp] theorem setPic_si : (s.setPic v).si = s.si := rfl
@[simp] theorem setPic_di : (s.setPic v).di = s.di := rfl
@[simp] theorem setPic_cs : (s.setPic v).cs = s.cs := rfl
@[simp] theorem setPic_ds : (s.setPic v).ds = s.ds := rfl
@[simp] theorem setPic_es : (s.setPic v).es = s.es := rfl
@[simp] theorem setPic_ss : (s.setPic v).ss = s.ss := rfl
@[simp] theorem setPic_ip : (s.setPic v).ip = s.ip := rfl
@[simp] theorem setPic_flags : (s.setPic v).flags = s.flags := rfl
@[simp] theorem setPic_queue : (s.setPic v).queue = s.queue := rfl
@[simp] theorem setPic_defseg : (s.setPic v).defseg = s.defseg := rfl
@[simp] theorem setPic_dtr : (s.setPic v).dtr = s.dtr := rfl
@[simp] theorem setPic_mem : (s.setPic v).mem = s.mem := rfl
@[simp] theorem setPic_fault : (s.setPic v).fault = s.fault := rfl
@[simp] theorem setPic_pic : (s.setPic v).pic = v := rfl
@[simp] theorem setPic_draws : (s.setPic v).draws = s.draws := rfl
@[simp] theorem setPic_cfg : (s.setPic v).cfg = s.cfg := rfl
@[simp] theorem setPic_reg16 (r : Reg16) : (s.setPic v).reg16 r = s.reg16 r := by cases r <;> rfl
@[simp] theorem setPic_reg8 (r : Reg8) : (s.setPic v).reg8 r = s.reg8 r := by cases r <;> rfl
end

section
variable (s : State) (v : Nat)
@[simp] theorem setDraws_ax : (s.setDraws v).ax = s.ax := rfl
@[simp] theorem setDraws_bx : (s.setDraws v).bx = s.bx := rfl
@[simp] theorem setDraws_cx : (s.setDraws v).cx = s.cx := rfl
@[simp] theorem setDraws_dx : (s.setDraws v).dx = s.dx := rfl
@[simp] theorem setDraws_sp : (s.setDraws v).sp = s.sp := rfl
@[simp] theorem setDraws_bp : (s.setDraws v).bp = s.bp := rfl
@[simp] theorem setDraws_si : (s.setDraws v).si = s.si := rfl
@[simp] theorem setDraws_di : (s.setDraws v).di = s.di := rfl
@[simp] theorem setDraws_cs : (s.setDraws v).cs = s.cs := rfl
@[simp] theorem setDraws_ds : (s.setDraws v).ds = s.ds := rfl
@[simp] theorem setDraws_es : (s.setDraws v).es = s.es := rfl
@[simp] theorem setDraws_ss : (s.setDraws v).ss = s.ss := rfl
@[simp] theorem setDraws_ip : (s.setDraws v).ip = s.ip := rfl
@[simp] theorem setDraws_flags : (s.setDraws v).flags = s.flags := rfl
@[simp] theorem setDraws_queue : (s.setDraws v).queue = s.queue := rfl
@[simp] theorem setDraws_defseg : (s.setDraws v).defseg = s.defseg := rfl
@[simp] theorem setDraws_dtr : (s.setDraws v).dtr = s.dtr := rfl
@[simp] theorem setDraws_mem : (s.setDraws v).mem = s.mem := rfl
@[simp] theorem setDraws_fault : (s.setDraws v).fault = s.fault := rfl
@[simp] theorem setDraws_pic : (s.setDraws v).pic = s.pic := rfl
@[simp] theorem setDraws_draws : (s.setDraws v).draws = v := rfl
@[simp] theorem setDraws_cfg : (s.setDraws v).cfg = s.cfg := rfl
@[simp] theorem setDraws_reg16 (r : Reg16) : (s.setDraws v).reg16 r = s.reg16 r := by cases r <;> rfl
@[simp] theorem setDraws_reg8 (r : Reg8) : (s.setDraws v).reg8 r = s.reg8 r := by cases r <;> rfl
end

section
variable (s : State) (r : Reg16) (v : Word)
@[simp] theorem setReg16_cs : (s.setReg16 r v).cs = s.cs := by cases r <;> rfl
@[simp] theorem setReg16_ds : (s.setReg16 r v).ds = s.ds := by cases r <;> rfl
@[simp] theorem setReg16_es : (s.setReg16 r v).es = s.es := by cases r <;> rfl
@[simp] theorem setReg16_ss : (s.setReg16 r v).ss = s.ss := by cases r <;> rfl
@[simp] theorem setReg16_ip : (s.setReg16 r v).ip = s.ip := by cases r <;> rfl
@[simp] theorem setReg16_flags : (s.setReg16 r v).flags = s.flags := by cases r <;> rfl
@[simp] theorem setReg16_queue : (s.setReg16 r v).queue = s.queue := by cases r <;> rfl
@[simp] theorem setReg16_defseg : (s.setReg16 r v).defseg = s.defseg := by cases r <;> rfl
@[simp] theorem setReg16_dtr : (s.setReg16 r v).dtr = s.dtr := by cases r <;> rfl
@[simp] theorem setReg16_mem : (s.setReg16 r v).mem = s.mem := by cases r <;> rfl
@[simp] theorem setReg16_fault : (s.setReg16 r v).fault = s.fault := by cases r <;> rfl
@[simp] theorem setReg16_pic : (s.setReg16 r v).pic = s.pic := by cases r <;> rfl
@[simp] theorem setReg16_draws : (s.setReg16 r v).draws = s.draws := by cases r <;> rfl
@[simp] theorem setReg16_cfg : (s.setReg16 r v).cfg = s.cfg := by cases r <;> rfl
end

section
variable (s : State) (r : Reg8) (v : Byte)
@[simp] theorem setReg8_cs : (s.setReg8 r v).cs = s.cs := setReg16_cs _ _ _
@[simp] theorem setReg8_ds : (s.setReg8 r v).ds = s.ds := setReg16_ds _ _ _
@[simp] theorem setReg8_es : (s.setReg8 r v).es = s.es := setReg16_es _ _ _
@[simp] theorem setReg8_ss : (s.setReg8 r v).ss = s.ss := setReg16_ss _ _ _
@[simp] theorem setReg8_ip : (s.setReg8 r v).ip = s.ip := setReg16_ip _ _ _
@[simp] theorem setReg8_flags : (s.setReg8 r v).flags = s.flags := setReg16_flags _ _ _
@[simp] theorem setReg8_queue : (s.setReg8 r v).queue = s.queue := setReg16_queue _ _ _
@[simp] theorem setReg8_defseg : (s.setReg8 r v).defseg = s.defseg := setReg16_defseg _ _ _
@[simp] theorem setReg8_dtr : (s.setReg8 r v).dtr = s.dtr := setReg16_dtr _ _ _
@[simp] theorem setReg8_mem : (s.setReg8 r v).mem = s.mem := setReg16_mem _ _ _
@[simp] theorem setReg8_fault : (s.setReg8 r v).fault = s.fault := setReg16_fault _ _ _
@[simp] theorem setReg8_pic : (s.setReg8 r v).pic = s.pic := setReg16_pic _ _ _
@[simp] theorem setReg8_draws : (s.setReg8 r v).draws = s.draws := setReg16_draws _ _ _
@[simp] theorem setReg8_cfg : (s.setReg8 r v).cfg = s.cfg := setReg16_cfg _ _ _
end

section
variable (c : Config) (m : Memory) (q : Vector Byte 6)
@[simp] theorem launch_ax : (launch c m q).ax = 0 := rfl
@[simp] theorem launch_bx : (launch c m q).bx = 0 := rfl
@[simp] theorem launch_cx : (launch c m q).cx = 0 := rfl
@[simp] theorem launch_dx : (launch c m q).dx = 0 := rfl
@[simp] theorem launch_sp : (launch c m q).sp = 0 := rfl
@[simp] theorem launch_bp : (launch c m q).bp = 0 := rfl
@[simp] theorem launch_si : (launch c m q).si = 0 := rfl
@[simp] theorem launch_di : (launch c m q).di = 0 := rfl
@[simp] theorem launch_cs : (launch c m q).cs = 0 := rfl
@[simp] theorem launch_ds : (launch c m q).ds = 0 := rfl
@[simp] theorem launch_es : (launch c m q).es = 0 := rfl
@[simp] theorem launch_ss : (launch c m q).ss = 0 := rfl
@[simp] theorem launch_ip : (launch c m q).ip = 0 := rfl
@[simp] theorem launch_flags : (launch c m q).flags = 0 := rfl
@[simp] theorem launch_queue : (launch c m q).queue = Queue.empty q := rfl
@[simp] theorem launch_defseg : (launch c m q).defseg = 0 := rfl
@[simp] theorem launch_dtr : (launch c m q).dtr = 0 := rfl
@[simp] theorem launch_mem : (launch c m q).mem = m := rfl
@[simp] theorem launch_fault : (launch c m q).fault = none := rfl
@[simp] theorem launch_pic : (launch c m q).pic = [] := rfl
@[simp] theorem launch_draws : (launch c m q).draws = 0 := rfl
@[simp] theorem launch_cfg : (launch c m q).cfg = c := rfl
end

/-- Two writes of one field: the later one stands. -/
theorem setDtr_setDtr (s : State) (v w : Word) : (s.setDtr v).setDtr w = s.setDtr w := rfl

theorem setQueue_setQueue (s : State) (v w : Queue) : (s.setQueue v).setQueue w = s.setQueue w := rfl

/-- Writes of different fields commute; the DTR is moved outward. -/
theorem setQueue_setDtr (s : State) (v : Word) (q : Queue) :
    (s.setDtr v).setQueue q = (s.setQueue q).setDtr v := rfl

end Sys2Proof.Machine.State
end

