-- ==== Sys2Proof/Laws/Memory.lean ====
section
/-! SUPPORT. The laws of memory: read after write, the canonical form kept by every operation, and equal
reads meaning equal memories. -/

namespace Sys2Proof.Machine.Memory

@[simp] theorem unlistedByte_zero (a : Nat) : unlistedByte a = 0#8 := rfl

@[simp] theorem read_nil (a : Nat) : read [] a = 0#8 := rfl

theorem read_cons (k : Nat) (v : Byte) (rest : Memory) (a : Nat) :
    read ((k, v) :: rest) a = if k = a then v else read rest a := rfl

theorem wfFrom_cons (lo k : Nat) (v : Byte) (rest : Memory) :
    wfFrom lo ((k, v) :: rest) = true ↔ lo ≤ k ∧ v ≠ 0#8 ∧ wfFrom (k + 1) rest = true := by
  rw [wfFrom, Bool.and_eq_true, Bool.and_eq_true, decide_eq_true_eq, decide_eq_true_eq, and_assoc,
    unlistedByte_zero]

theorem wfFrom_mono {lo lo' : Nat} (m : Memory) (h : lo' ≤ lo) (hm : wfFrom lo m = true) :
    wfFrom lo' m = true := by
  cases m with
  | nil => rfl
  | cons c rest =>
    obtain ⟨k, v⟩ := c
    rw [wfFrom_cons] at *
    exact ⟨by omega, hm.2⟩

/-- Below the first listed address every byte is unlisted. -/
theorem read_below {lo : Nat} (m : Memory) (a : Nat) (hm : wfFrom lo m = true) (h : a < lo) :
    m.read a = 0#8 := by
  induction m generalizing lo with
  | nil => rfl
  | cons c rest ih =>
    obtain ⟨k, v⟩ := c
    obtain ⟨hk, _, hr⟩ := (wfFrom_cons _ _ _ _).1 hm
    rw [read_cons, if_neg (by omega)]
    exact ih hr (by omega)

/-- The byte listed in front reads back, if the rest does not list its address. -/
theorem read_put (a : Nat) (b : Byte) (rest : Memory) (x : Nat) (h : rest.read a = 0#8) :
    (put a b rest).read x = if x = a then b else rest.read x := by
  unfold put
  by_cases hx : x = a
  · subst hx; split <;> simp_all [read_cons]
  · rw [if_neg hx]; split
    · rfl
    · rw [read_cons, if_neg (Ne.symm hx)]

/-- Another byte than the one listed in front reads as in the rest. -/
theorem read_put_other (a : Nat) (b : Byte) (rest : Memory) {x : Nat} (hx : x ≠ a) :
    (put a b rest).read x = rest.read x := by
  unfold put; split
  · rfl
  · rw [read_cons, if_neg (Ne.symm hx)]

theorem wfFrom_put {lo : Nat} (a : Nat) (b : Byte) (rest : Memory) (h : lo ≤ a)
    (hr : wfFrom (a + 1) rest = true) : wfFrom lo (put a b rest) = true := by
  unfold put; split
  · exact wfFrom_mono rest (by omega) hr
  · exact (wfFrom_cons _ _ _ _).2 ⟨h, ‹_›, hr⟩

theorem within_cons (n k : Nat) (v : Byte) (rest : Memory) :
    within n ((k, v) :: rest) = true ↔ k < n ∧ within n rest = true := by
  rw [within, List.all_cons, Bool.and_eq_true, decide_eq_true_eq]; rfl

theorem within_put (n a : Nat) (b : Byte) (rest : Memory) (h : a < n) (hr : within n rest = true) :
    within n (put a b rest) = true := by
  unfold put; split
  · exact hr
  · exact (within_cons _ _ _ _).2 ⟨h, hr⟩

theorem read_writeFrom {lo : Nat} (m : Memory) (a : Nat) (b : Byte) (x : Nat) (hm : wfFrom lo m = true) :
    (m.write a b).read x = if x = a then b else m.read x := by
  induction m generalizing lo with
  | nil => exact read_put a b [] x rfl
  | cons c rest ih =>
    obtain ⟨k, v⟩ := c
    obtain ⟨hk, hv, hr⟩ := (wfFrom_cons _ _ _ _).1 hm
    rcases Nat.lt_trichotomy a k with h1 | h2 | h3
    · rw [write, if_pos h1]
      exact read_put a b _ x (read_below (lo := k) _ a ((wfFrom_cons _ _ _ _).2 ⟨le_rfl, hv, hr⟩) h1)
    · subst h2
      rw [write, if_neg (lt_irrefl a), if_pos rfl, read_put a b rest x (read_below rest a hr (by omega)),
        read_cons]
      split_ifs <;> first | rfl | omega
    · rw [write, if_neg (by omega), if_neg (by omega), read_cons, read_cons, ih hr]
      split_ifs <;> first | rfl | omega

/-- One byte reads back as written, every other byte as before. -/
theorem read_write (m : Memory) (a : Nat) (b : Byte) (x : Nat) (hm : m.wf = true) :
    (m.write a b).read x = if x = a then b else m.read x := read_writeFrom m a b x hm

/-- A write of another address leaves a byte alone, whatever the list. -/
theorem read_write_other (m : Memory) {a x : Nat} (b : Byte) (h : x ≠ a) :
    (m.write a b).read x = m.read x := by
  induction m with
  | nil => exact read_put_other a b [] h
  | cons c rest ih =>
    obtain ⟨k, v⟩ := c
    simp only [write]
    split_ifs with h1 h2
    · exact read_put_other a b _ h
    · subst h2; rw [read_put_other a b rest h, read_cons, if_neg (Ne.symm h)]
    · rw [read_cons, read_cons, ih]

theorem wfFrom_write {lo : Nat} (m : Memory) (a : Nat) (b : Byte) (hm : wfFrom lo m = true) (h : lo ≤ a) :
    wfFrom lo (m.write a b) = true := by
  induction m generalizing lo with
  | nil => exact wfFrom_put a b [] h rfl
  | cons c rest ih =>
    obtain ⟨k, v⟩ := c
    obtain ⟨hk, hv, hr⟩ := (wfFrom_cons _ _ _ _).1 hm
    simp only [write]
    split_ifs with h1 h2
    · exact wfFrom_put a b _ h ((wfFrom_cons _ _ _ _).2 ⟨by omega, hv, hr⟩)
    · exact wfFrom_put a b rest h (h2 ▸ hr)
    · exact (wfFrom_cons _ _ _ _).2 ⟨hk, hv, ih hr (by omega)⟩

/-- A write keeps the canonical form. -/
theorem wf_write (m : Memory) (a : Nat) (b : Byte) (hm : m.wf = true) : (m.write a b).wf = true :=
  wfFrom_write m a b hm (Nat.zero_le a)

/-- A write inside a memory of n bytes lists no address outside it. -/
theorem within_write (n : Nat) (m : Memory) (a : Nat) (b : Byte) (hm : m.within n = true) (h : a < n) :
    (m.write a b).within n = true := by
  induction m with
  | nil => exact within_put n a b [] h hm
  | cons c rest ih =>
    obtain ⟨k, v⟩ := c
    have hr := ((within_cons _ _ _ _).1 hm).2
    simp only [write]
    split_ifs
    · exact within_put n a b _ h hm
    · exact within_put n a b rest h hr
    · exact (within_cons _ _ _ _).2 ⟨((within_cons _ _ _ _).1 hm).1, ih hr⟩

/-- An image's bytes keep the canonical form. -/
theorem wf_load (base : Nat) (bytes : List Byte) (m : Memory) (hm : m.wf = true) :
    (m.load base bytes).wf = true := by
  induction bytes generalizing base m with
  | nil => exact hm
  | cons b rest ih => exact ih _ _ (wf_write m base b hm)

/-- An image that fits lists no address outside memory. -/
theorem within_load (n base : Nat) (bytes : List Byte) (m : Memory) (hm : m.within n = true)
    (h : base + bytes.length ≤ n) : (m.load base bytes).within n = true := by
  induction bytes generalizing base m with
  | nil => exact hm
  | cons b rest ih =>
    simp only [List.length_cons] at h
    exact ih _ _ (within_write n m base b hm (by omega)) (by omega)

/-- What a byte reads as after an image is loaded: the image's byte in its range, the old byte elsewhere. -/
theorem read_load (base : Nat) (bytes : List Byte) (m : Memory) (x : Nat) (hm : m.wf = true) :
    (m.load base bytes).read x =
      if base ≤ x ∧ x < base + bytes.length then bytes.getD (x - base) 0 else m.read x := by
  induction bytes generalizing base m with
  | nil => rw [if_neg (by simp only [List.length_nil]; omega)]; rfl
  | cons b rest ih =>
    rw [load, ih _ _ (wf_write m base b hm), read_write m base b x hm, List.length_cons]
    rcases Nat.lt_trichotomy x base with h | h | h
    · rw [if_neg (by omega), if_neg (by omega), if_neg (by omega)]
    · subst h; rw [if_neg (by omega), if_pos rfl, if_pos (by omega), Nat.sub_self]; rfl
    · obtain ⟨d, rfl⟩ : ∃ d, x = base + 1 + d := ⟨x - (base + 1), by omega⟩
      rw [show base + 1 + d - base = d + 1 by omega, List.getD_cons_succ, Nat.add_sub_cancel_left,
        if_neg (show ¬base + 1 + d = base by omega)]
      split_ifs <;> first | rfl | omega

/-- Two canonical memories that read alike are equal. -/
theorem ext_of_wfFrom {lo lo' : Nat} (m m' : Memory) (hm : wfFrom lo m = true) (hm' : wfFrom lo' m' = true)
    (h : ∀ a, m.read a = m'.read a) : m = m' := by
  induction m generalizing lo lo' m' with
  | nil =>
    cases m' with
    | nil => rfl
    | cons c rest =>
      obtain ⟨k, v⟩ := c
      have := h k
      rw [read_nil, read_cons, if_pos rfl] at this
      exact absurd this.symm ((wfFrom_cons _ _ _ _).1 hm').2.1
  | cons c rest ih =>
    obtain ⟨k, v⟩ := c
    obtain ⟨hk, hv, hr⟩ := (wfFrom_cons _ _ _ _).1 hm
    cases m' with
    | nil =>
      have := h k
      rw [read_nil, read_cons, if_pos rfl] at this
      exact absurd this hv
    | cons c' rest' =>
      obtain ⟨k', v'⟩ := c'
      obtain ⟨hk', hv', hr'⟩ := (wfFrom_cons _ _ _ _).1 hm'
      have hkk : k = k' := by
        rcases Nat.lt_trichotomy k k' with hlt | heq | hgt
        · have := h k
          rw [read_cons, if_pos rfl, read_cons, if_neg (by omega), read_below rest' k hr' (by omega)] at this
          exact absurd this hv
        · exact heq
        · have := h k'
          rw [read_cons, if_neg (by omega), read_below rest k' hr (by omega), read_cons, if_pos rfl] at this
          exact absurd this.symm hv'
      subst hkk
      have hvv : v = v' := by simpa [read_cons] using h k
      subst hvv
      congr 1
      refine ih rest' hr hr' fun a => ?_
      by_cases ha : k = a
      · subst ha; rw [read_below rest k hr (by omega), read_below rest' k hr' (by omega)]
      · simpa [read_cons, ha] using h a

end Sys2Proof.Machine.Memory
end

