-- ==== Sys2Proof/Laws/Flags.lean ====
section
/-! SUPPORT. The laws of the status word: each operation touches the targeted flag's bits only. -/

namespace Sys2Proof.Machine

@[simp] theorem hasFlag_setFlag (f : Flag) (w : DWord) : hasFlag f (setFlag f w) = true := by
  have hm : f.mask ≠ 0#32 := by cases f <;> decide
  simp only [hasFlag, setFlag, bne_iff_ne]
  intro h
  apply hm
  rw [← h, BitVec.and_comm]
  apply BitVec.eq_of_getLsbD_eq; intro i _
  simp only [BitVec.getLsbD_and, BitVec.getLsbD_or]
  cases f.mask.getLsbD i <;> simp

@[simp] theorem hasFlag_clearFlag (f : Flag) (w : DWord) : hasFlag f (clearFlag f w) = false := by
  simp only [hasFlag, clearFlag, bne_eq_false_iff_eq]
  apply BitVec.eq_of_getLsbD_eq; intro i hi
  simp only [BitVec.getLsbD_and, BitVec.getLsbD_not, BitVec.getLsbD_zero]
  cases f.mask.getLsbD i <;> simp

@[simp] theorem hasFlag_putFlag (f : Flag) (b : Bool) (w : DWord) : hasFlag f (putFlag f b w) = b := by
  cases b <;> simp [putFlag]

/-- The bits of two flags do not overlap. -/
theorem mask_disjoint (f g : Flag) (h : g ≠ f) : f.mask &&& g.mask = 0#32 := by
  revert h; cases f <;> cases g <;> decide

/-- A bit outside a flag's mask is kept by putFlag. -/
theorem getLsbD_putFlag_other (f : Flag) (b : Bool) (w : DWord) (i : Nat) (h : f.mask.getLsbD i = false) :
    (putFlag f b w).getLsbD i = w.getLsbD i := by
  by_cases hi : i < 32
  · cases b
    · simp only [putFlag, clearFlag, BitVec.getLsbD_and, BitVec.getLsbD_not, h, hi, decide_true,
        Bool.not_false, Bool.and_true, Bool.false_eq_true, if_false]
    · simp only [putFlag, setFlag, BitVec.getLsbD_or, h, Bool.or_false, if_true]
  · rw [BitVec.getLsbD_of_ge _ _ (by omega), BitVec.getLsbD_of_ge _ _ (by omega)]

theorem hasFlag_putFlag_other (f g : Flag) (b : Bool) (w : DWord) (h : g ≠ f) :
    hasFlag g (putFlag f b w) = hasFlag g w := by
  suffices H : putFlag f b w &&& g.mask = w &&& g.mask by simp only [hasFlag, H]
  apply BitVec.eq_of_getLsbD_eq; intro i hi
  have hd := congrArg (·.getLsbD i) (mask_disjoint f g h)
  simp only [BitVec.getLsbD_and, BitVec.getLsbD_zero] at hd
  simp only [BitVec.getLsbD_and]
  cases hg : g.mask.getLsbD i
  · simp
  · rw [hg, Bool.and_true] at hd
    rw [getLsbD_putFlag_other f b w i hd]

/-- No flag lies outside the named bits. -/
theorem mask_named (f : Flag) : f.mask &&& ~~~namedFlags = 0#32 := by cases f <;> decide

/-- The bits that name no flag are kept by every flag operation (R37). -/
theorem putFlag_reserved (f : Flag) (b : Bool) (w : DWord) :
    putFlag f b w &&& ~~~namedFlags = w &&& ~~~namedFlags := by
  apply BitVec.eq_of_getLsbD_eq; intro i hi
  have hd := congrArg (·.getLsbD i) (mask_named f)
  simp only [BitVec.getLsbD_and, BitVec.getLsbD_zero] at hd
  simp only [BitVec.getLsbD_and]
  cases hg : (~~~namedFlags).getLsbD i
  · simp
  · rw [hg, Bool.and_true] at hd
    rw [getLsbD_putFlag_other f b w i hd]

/-- What a list of updates can change: FLAGS and the count of draws. -/
theorem applyUpdates_eq (u : List (Flag × FlagUpdate)) (s : State) :
    ∃ w n, applyUpdates u s = (s.setFlags w).setDraws n := by
  induction u generalizing s with
  | nil => exact ⟨s.flags, s.draws, rfl⟩
  | cons p rest ih =>
    obtain ⟨f, u⟩ := p
    cases u with
    | put b => obtain ⟨w, n, h⟩ := ih (s.setFlags (putFlag f b s.flags)); exact ⟨w, n, h⟩
    | draw =>
      obtain ⟨w, n, h⟩ :=
        ih ((s.setFlags (putFlag f (Config.freeFlag s.draws) s.flags)).setDraws (s.draws + 1))
      exact ⟨w, n, h⟩

/-- A flag the list does not name keeps its value (R196). -/
theorem applyUpdates_other (u : List (Flag × FlagUpdate)) (s : State) (g : Flag)
    (h : ∀ p ∈ u, p.1 ≠ g) : hasFlag g (applyUpdates u s).flags = hasFlag g s.flags := by
  induction u generalizing s with
  | nil => rfl
  | cons p rest ih =>
    obtain ⟨f, u⟩ := p
    have hf : g ≠ f := fun e => h _ (List.mem_cons_self ..) e.symm
    have hr := fun q hq => h q (List.mem_cons_of_mem _ hq)
    cases u with
    | put b => rw [applyUpdates, ih _ hr]; exact hasFlag_putFlag_other f g b _ hf
    | draw => rw [applyUpdates, ih _ hr]; exact hasFlag_putFlag_other f g _ _ hf

/-- A bit outside the masks of the flags the list names keeps its value (R196). -/
theorem getLsbD_applyUpdates_other (u : List (Flag × FlagUpdate)) (s : State) (k : Nat)
    (h : ∀ p ∈ u, p.1.mask.getLsbD k = false) : (applyUpdates u s).flags.getLsbD k = s.flags.getLsbD k := by
  induction u generalizing s with
  | nil => rfl
  | cons p rest ih =>
    obtain ⟨f, u⟩ := p
    have hf : f.mask.getLsbD k = false := h _ (List.mem_cons_self ..)
    have hr := fun q hq => h q (List.mem_cons_of_mem _ hq)
    cases u with
    | put b => rw [applyUpdates, ih _ hr]; exact getLsbD_putFlag_other f b _ k hf
    | draw => rw [applyUpdates, ih _ hr]; exact getLsbD_putFlag_other f _ _ k hf

/-- The bits that name no flag are kept by any list of updates. -/
theorem applyUpdates_reserved (u : List (Flag × FlagUpdate)) (s : State) :
    (applyUpdates u s).flags &&& ~~~namedFlags = s.flags &&& ~~~namedFlags := by
  induction u generalizing s with
  | nil => rfl
  | cons p rest ih =>
    obtain ⟨f, u⟩ := p
    cases u with
    | put b => rw [applyUpdates, ih]; exact putFlag_reserved f b _
    | draw => rw [applyUpdates, ih]; exact putFlag_reserved f _ _

end Sys2Proof.Machine
end

