-- ==== Sys2Proof/Laws/Register.lean ====
section
/-! SUPPORT. The laws of the register model: halves, the register file, pointer arithmetic. -/

namespace Sys2Proof.Machine

theorem getLsbD_maskHigh (i : Nat) : (0xFF00#16).getLsbD i = (decide (8 ≤ i) && decide (i < 16)) := by
  by_cases h : i < 16
  · interval_cases i <;> rfl
  · rw [BitVec.getLsbD_of_ge _ _ (by omega)]; simp [h]

theorem getLsbD_maskLow (i : Nat) : (0x00FF#16).getLsbD i = decide (i < 8) := by
  by_cases h : i < 16
  · interval_cases i <;> rfl
  · rw [BitVec.getLsbD_of_ge _ _ (by omega)]; simp; omega

/-- Every bit after `setH`: bits 15:8 are v's, every other bit is kept (R23, R24). -/
theorem getLsbD_setH {n : Nat} (v : Byte) (x : BitVec n) (i : Nat) :
    (setH v x).getLsbD i = if 8 ≤ i ∧ i < 16 then decide (i < n) && v.getLsbD (i - 8) else x.getLsbD i := by
  simp only [setH, BitVec.getLsbD_or, BitVec.getLsbD_and, BitVec.getLsbD_not, getLsbD_maskHigh,
    BitVec.getLsbD_shiftLeft, BitVec.getLsbD_setWidth]
  by_cases hn : i < n
  · by_cases h8 : 8 ≤ i
    · have hlt : ¬ i < 8 := by omega
      by_cases h16 : i < 16
      · simp only [hn, h8, h16, hlt, show i - 8 < n by omega, decide_true, decide_false, Bool.and_true,
          Bool.not_true, Bool.and_false, Bool.false_or, Bool.not_false, Bool.true_and, and_self, if_true]
      · have hv : v.getLsbD (i - 8) = false := BitVec.getLsbD_of_ge _ _ (by omega)
        simp only [hn, h8, h16, hv, decide_true, decide_false, Bool.and_true, Bool.and_false, Bool.not_false,
          Bool.or_false, Bool.true_and, and_false, if_false]
    · simp only [hn, h8, show i < 8 by omega, decide_true, decide_false, Bool.and_true, Bool.and_false,
        Bool.false_and, Bool.not_false, Bool.not_true, Bool.or_false, Bool.true_and, false_and, if_false]
  · simp only [hn, BitVec.getLsbD_of_ge x i (by omega), decide_false, Bool.false_and, Bool.or_false, ite_self]

/-- Every bit after `setL`: bits 7:0 are v's, every other bit is kept (R23, R24). -/
theorem getLsbD_setL {n : Nat} (v : Byte) (x : BitVec n) (i : Nat) :
    (setL v x).getLsbD i = if i < 8 then decide (i < n) && v.getLsbD i else x.getLsbD i := by
  simp only [setL, BitVec.getLsbD_or, BitVec.getLsbD_and, BitVec.getLsbD_not, getLsbD_maskLow,
    BitVec.getLsbD_setWidth]
  by_cases hn : i < n
  · by_cases h8 : i < 8
    · simp only [hn, h8, decide_true, Bool.and_true, Bool.not_true, Bool.and_false, Bool.false_or,
        Bool.true_and, if_true]
    · simp only [hn, h8, BitVec.getLsbD_of_ge v i (by omega), decide_true, decide_false, Bool.and_true,
        Bool.and_false, Bool.not_false, Bool.or_false, if_false]
  · simp only [hn, BitVec.getLsbD_of_ge x i (by omega), decide_false, Bool.false_and, Bool.or_false, ite_self]

@[simp] theorem getH_setH (v : Byte) (x : Word) : getH (setH v x) = v := by
  apply BitVec.eq_of_getLsbD_eq; intro i hi
  simp only [getH, BitVec.getLsbD_extractLsb', getLsbD_setH]
  simp [hi, show 8 + i < 16 by omega]

@[simp] theorem getL_setH (v : Byte) (x : Word) : getL (setH v x) = getL x := by
  apply BitVec.eq_of_getLsbD_eq; intro i hi
  simp only [getL, BitVec.getLsbD_extractLsb', getLsbD_setH]
  simp [hi, show ¬ 8 ≤ i by omega]

@[simp] theorem getL_setL (v : Byte) (x : Word) : getL (setL v x) = v := by
  apply BitVec.eq_of_getLsbD_eq; intro i hi
  simp only [getL, BitVec.getLsbD_extractLsb', getLsbD_setL]
  simp [hi, show i < 16 by omega]

@[simp] theorem getH_setL (v : Byte) (x : Word) : getH (setL v x) = getH x := by
  apply BitVec.eq_of_getLsbD_eq; intro i hi
  simp only [getH, BitVec.getLsbD_extractLsb', getLsbD_setL]
  simp [hi]

/-- The halves are the whole 16-bit register (R23). -/
theorem word_eq_of_halves (x y : Word) (hh : getH x = getH y) (hl : getL x = getL y) : x = y := by
  apply BitVec.eq_of_getLsbD_eq; intro i hi
  by_cases h8 : i < 8
  · have := congrArg (·.getLsbD i) hl
    simpa [getL, BitVec.getLsbD_extractLsb', h8] using this
  · have := congrArg (·.getLsbD (i - 8)) hh
    simpa [getH, BitVec.getLsbD_extractLsb', show i - 8 < 8 by omega, show 8 + (i - 8) = i by omega] using this

@[simp] theorem reg16_setReg16_same (s : State) (r : Reg16) (v : Word) : (s.setReg16 r v).reg16 r = v := by
  cases r <;> rfl

theorem reg16_setReg16_other (s : State) (d r : Reg16) (v : Word) (h : r ≠ d) :
    (s.setReg16 d v).reg16 r = s.reg16 r := by
  cases d <;> cases r <;> first | rfl | exact absurd rfl h

@[simp] theorem reg8_setReg8_same (s : State) (r : Reg8) (v : Byte) : (s.setReg8 r v).reg8 r = v := by
  cases r <;> simp [State.reg8, State.setReg8, Reg8.isHigh]

/-- Two 8-bit names of one register with the same height are one name. -/
theorem reg8_eq_of_whole (r d : Reg8) (hw : Reg8.whole r = Reg8.whole d) (hh : Reg8.isHigh r = Reg8.isHigh d) :
    r = d := by
  cases r <;> cases d <;> first | rfl | exact absurd hw (by decide) | exact absurd hh (by decide)

theorem reg8_setReg8_other (s : State) (d r : Reg8) (v : Byte) (h : r ≠ d) :
    (s.setReg8 d v).reg8 r = s.reg8 r := by
  by_cases hw : Reg8.whole r = Reg8.whole d
  · have hh : Reg8.isHigh r ≠ Reg8.isHigh d := fun hh => h (reg8_eq_of_whole r d hw hh)
    simp only [State.reg8, State.setReg8, hw, reg16_setReg16_same]
    cases hr : Reg8.isHigh r <;> cases hd : Reg8.isHigh d <;> simp_all
  · simp only [State.reg8, State.setReg8, reg16_setReg16_other s _ _ _ hw]

theorem reg16_setReg8_other (s : State) (d : Reg8) (r : Reg16) (v : Byte) (h : r ≠ Reg8.whole d) :
    (s.setReg8 d v).reg16 r = s.reg16 r := reg16_setReg16_other s _ r _ h

/-- Writing a half with what it holds changes nothing. -/
@[simp] theorem setReg8_reg8_self (s : State) (r : Reg8) : s.setReg8 r (s.reg8 r) = s := by
  have hH : ∀ x : Word, setH (getH x) x = x := fun x => word_eq_of_halves _ _ (getH_setH _ _) (getL_setH _ _)
  have hL : ∀ x : Word, setL (getL x) x = x := fun x => word_eq_of_halves _ _ (getH_setL _ _) (getL_setL _ _)
  cases r <;> simp [State.reg8, State.setReg8, Reg8.isHigh, Reg8.whole, State.reg16, State.setReg16, hH, hL]

@[simp] theorem setReg16_reg16_self (s : State) (r : Reg16) : s.setReg16 r (s.reg16 r) = s := by
  cases r <;> rfl

@[simp] theorem decPtr_sp (s : State) (d : Nat) : (s.decPtr .sp d).sp = s.sp - BitVec.ofNat 16 d := rfl
@[simp] theorem incPtr_sp (s : State) (d : Nat) : (s.incPtr .sp d).sp = s.sp + BitVec.ofNat 16 d := rfl

/-- Everything an SP decrement leaves alone, for the stack's lemmas. -/
theorem decPtr_sp_eq (s : State) (d : Nat) : s.decPtr .sp d = { s with sp := s.sp - BitVec.ofNat 16 d } := rfl

theorem incPtr_sp_eq (s : State) (d : Nat) : s.incPtr .sp d = { s with sp := s.sp + BitVec.ofNat 16 d } := rfl

@[simp] theorem advanceIp_ip (s : State) (n : Nat) : (s.advanceIp n).ip = s.ip + BitVec.ofNat 16 n := rfl

theorem advanceIp_eq (s : State) (n : Nat) : s.advanceIp n = s.setIp (s.ip + BitVec.ofNat 16 n) := rfl

end Sys2Proof.Machine
end

