-- ==== Sys2Proof/Laws/Ops.lean ====
section
/-! SUPPORT. Once for each shared operation, everything it can do: when it answers a next state and which, when
it faults and with what, and that it is never refused. -/

namespace Sys2Proof.Machine

section
variable {σ τ : Type}

@[simp] theorem andThen_next (a : σ) (k : σ → Host.Outcome τ Fault Refusal) : andThen (.next a) k = k a := rfl
@[simp] theorem andThen_fault (f : Fault) (k : σ → Host.Outcome τ Fault Refusal) :
    andThen (.fault f) k = .fault f := rfl
@[simp] theorem andThen_refused (r : Refusal) (k : σ → Host.Outcome τ Fault Refusal) :
    andThen (.refused r) k = .refused r := rfl

theorem andThen_eq_next {x : Host.Outcome σ Fault Refusal} {k : σ → Host.Outcome τ Fault Refusal} {b : τ} :
    andThen x k = .next b ↔ ∃ a, x = .next a ∧ k a = .next b := by
  cases x <;> simp [andThen]

theorem andThen_eq_fault {x : Host.Outcome σ Fault Refusal} {k : σ → Host.Outcome τ Fault Refusal} {f : Fault} :
    andThen x k = .fault f ↔ x = .fault f ∨ ∃ a, x = .next a ∧ k a = .fault f := by
  cases x <;> simp [andThen]

theorem andThen_eq_refused {x : Host.Outcome σ Fault Refusal} {k : σ → Host.Outcome τ Fault Refusal}
    {r : Refusal} : andThen x k = .refused r ↔ x = .refused r ∨ ∃ a, x = .next a ∧ k a = .refused r := by
  cases x <;> simp [andThen]

end

/-! ### Byte order -/

@[simp] theorem lowByte_leWord (lo hi : Byte) : lowByte (leWord lo hi) = lo := by
  apply BitVec.eq_of_getLsbD_eq; intro i h
  simp only [lowByte, leWord, BitVec.getLsbD_extractLsb', BitVec.getLsbD_append, h, decide_true,
    Bool.true_and, Nat.zero_add, if_true]

@[simp] theorem highByte_leWord (lo hi : Byte) : highByte (leWord lo hi) = hi := by
  apply BitVec.eq_of_getLsbD_eq; intro i h
  simp only [highByte, leWord, BitVec.getLsbD_extractLsb', BitVec.getLsbD_append, h, decide_true,
    Bool.true_and, show ¬ 8 + i < 8 by omega, if_false, Nat.add_sub_cancel_left]

@[simp] theorem leWord_bytes (v : Word) : leWord (lowByte v) (highByte v) = v :=
  word_eq_of_halves _ _ (highByte_leWord _ _) (lowByte_leWord _ _)

/-! ### The Memory Accessor -/

section
variable (a : Nat) (s : State)

theorem memRead8_next (h : a < s.cfg.memSize) :
    memRead8 a s = .next (s.mem.read a, s.setDtr ((s.mem.read a).setWidth 16)) := by
  simp [memRead8, isValidAddress, h]

theorem memRead8_fault (h : s.cfg.memSize ≤ a) : memRead8 a s = .fault (invalidAddress s a) := by
  simp [memRead8, isValidAddress, Nat.not_lt.2 h]

theorem memRead16_next (h : a + 1 < s.cfg.memSize) :
    memRead16 a s = .next (leWord (s.mem.read a) (s.mem.read (a + 1)),
      s.setDtr (leWord (s.mem.read a) (s.mem.read (a + 1)))) := by
  simp [memRead16, isValidAddress, h, show a < s.cfg.memSize by omega]

theorem memRead16_fault_first (h : s.cfg.memSize ≤ a) : memRead16 a s = .fault (invalidAddress s a) := by
  simp [memRead16, isValidAddress, Nat.not_lt.2 h]

theorem memRead16_fault_second (h : s.cfg.memSize = a + 1) :
    memRead16 a s = .fault (invalidAddress s (a + 1)) := by
  simp [memRead16, isValidAddress, h]

theorem memWrite8_next (v : Byte) (h : a < s.cfg.memSize) :
    memWrite8 a v s = .next ((s.setMem (s.mem.write a v)).setDtr (v.setWidth 16)) := by
  simp [memWrite8, isValidAddress, h]

theorem memWrite8_fault (v : Byte) (h : s.cfg.memSize ≤ a) :
    memWrite8 a v s = .fault (invalidAddress s a) := by
  simp [memWrite8, isValidAddress, Nat.not_lt.2 h]

theorem memWrite16_next (v : Word) (h : a + 1 < s.cfg.memSize) :
    memWrite16 a v s =
      .next ((s.setMem ((s.mem.write a (lowByte v)).write (a + 1) (highByte v))).setDtr v) := by
  simp [memWrite16, isValidAddress, h, show a < s.cfg.memSize by omega]

theorem memWrite16_fault_first (v : Word) (h : s.cfg.memSize ≤ a) :
    memWrite16 a v s = .fault (invalidAddress s a) := by
  simp [memWrite16, isValidAddress, Nat.not_lt.2 h]

theorem memWrite16_fault_second (v : Word) (h : s.cfg.memSize = a + 1) :
    memWrite16 a v s = .fault (invalidAddress s (a + 1)) := by
  simp [memWrite16, isValidAddress, h]

end

/-- All a byte read can do. -/
theorem memRead8_cases (a : Nat) (s : State) :
    (a < s.cfg.memSize ∧ memRead8 a s = .next (s.mem.read a, s.setDtr ((s.mem.read a).setWidth 16))) ∨
      (s.cfg.memSize ≤ a ∧ memRead8 a s = .fault (invalidAddress s a)) := by
  rcases Nat.lt_or_ge a s.cfg.memSize with h | h
  · exact .inl ⟨h, memRead8_next a s h⟩
  · exact .inr ⟨h, memRead8_fault a s h⟩

/-- All a word read can do. -/
theorem memRead16_cases (a : Nat) (s : State) :
    (a + 1 < s.cfg.memSize ∧ memRead16 a s = .next (leWord (s.mem.read a) (s.mem.read (a + 1)),
      s.setDtr (leWord (s.mem.read a) (s.mem.read (a + 1))))) ∨
    (s.cfg.memSize ≤ a ∧ memRead16 a s = .fault (invalidAddress s a)) ∨
    (s.cfg.memSize = a + 1 ∧ memRead16 a s = .fault (invalidAddress s (a + 1))) := by
  rcases Nat.lt_trichotomy (a + 1) s.cfg.memSize with h | h | h
  · exact .inl ⟨h, memRead16_next a s h⟩
  · exact .inr (.inr ⟨h.symm, memRead16_fault_second a s h.symm⟩)
  · exact .inr (.inl ⟨by omega, memRead16_fault_first a s (by omega)⟩)

/-- All a byte write can do. -/
theorem memWrite8_cases (a : Nat) (v : Byte) (s : State) :
    (a < s.cfg.memSize ∧ memWrite8 a v s = .next ((s.setMem (s.mem.write a v)).setDtr (v.setWidth 16))) ∨
      (s.cfg.memSize ≤ a ∧ memWrite8 a v s = .fault (invalidAddress s a)) := by
  rcases Nat.lt_or_ge a s.cfg.memSize with h | h
  · exact .inl ⟨h, memWrite8_next a s v h⟩
  · exact .inr ⟨h, memWrite8_fault a s v h⟩

/-- All a word write can do. -/
theorem memWrite16_cases (a : Nat) (v : Word) (s : State) :
    (a + 1 < s.cfg.memSize ∧ memWrite16 a v s =
      .next ((s.setMem ((s.mem.write a (lowByte v)).write (a + 1) (highByte v))).setDtr v)) ∨
    (s.cfg.memSize ≤ a ∧ memWrite16 a v s = .fault (invalidAddress s a)) ∨
    (s.cfg.memSize = a + 1 ∧ memWrite16 a v s = .fault (invalidAddress s (a + 1))) := by
  rcases Nat.lt_trichotomy (a + 1) s.cfg.memSize with h | h | h
  · exact .inl ⟨h, memWrite16_next a s v h⟩
  · exact .inr (.inr ⟨h.symm, memWrite16_fault_second a s v h.symm⟩)
  · exact .inr (.inl ⟨by omega, memWrite16_fault_first a s v (by omega)⟩)

/-! ### Operands -/

/-- All a byte read of an r/m operand can do. -/
theorem readRm8_cases (o : RegMem Reg8) (s : State) :
    (∃ v t, readRm8 o s = .next (v, t) ∧ (t = s ∨ t = s.setDtr (v.setWidth 16))) ∨
      ∃ a, s.cfg.memSize ≤ a ∧ readRm8 o s = .fault (invalidAddress s a) := by
  cases o with
  | reg r => exact .inl ⟨_, _, rfl, .inl rfl⟩
  | mem m =>
    rcases memRead8_cases (operandAddress s m) s with ⟨_, h⟩ | ⟨hs, h⟩
    · exact .inl ⟨_, _, h, .inr rfl⟩
    · exact .inr ⟨_, hs, h⟩

/-- All a word read of an r/m operand can do. -/
theorem readRm16_cases (o : RegMem Reg16) (s : State) :
    (∃ v t, readRm16 o s = .next (v, t) ∧ (t = s ∨ t = s.setDtr v)) ∨
      ∃ a, s.cfg.memSize ≤ a ∧ readRm16 o s = .fault (invalidAddress s a) := by
  cases o with
  | reg r => exact .inl ⟨_, _, rfl, .inl rfl⟩
  | mem m =>
    rcases memRead16_cases (operandAddress s m) s with ⟨_, h⟩ | ⟨hs, h⟩ | ⟨hs, h⟩
    · exact .inl ⟨_, _, h, .inr rfl⟩
    · exact .inr ⟨_, hs, h⟩
    · exact .inr ⟨_, by omega, h⟩

/-! ### The stack -/

/-- The state after a push: SP two lower, the word's bytes there, DTR the word. -/
def pushed (v : Word) (s : State) : State :=
  let a := lin s.ss (s.sp - 2).toNat
  { s with sp := s.sp - 2, mem := (s.mem.write a (lowByte v)).write (a + 1) (highByte v), dtr := v }

theorem push_next (v : Word) (s : State) (h : lin s.ss (s.sp - 2).toNat + 1 < s.cfg.memSize) :
    push v s = .next (pushed v s) := memWrite16_next _ (s.decPtr .sp 2) v h

/-- All a push can do. -/
theorem push_cases (v : Word) (s : State) :
    (lin s.ss (s.sp - 2).toNat + 1 < s.cfg.memSize ∧ push v s = .next (pushed v s)) ∨
      ∃ a, s.cfg.memSize ≤ a ∧ push v s = .fault (invalidAddress s a) := by
  rcases memWrite16_cases (lin s.ss (s.sp - 2).toNat) v (s.decPtr .sp 2) with ⟨h, e⟩ | ⟨h, e⟩ | ⟨h, e⟩
  · exact .inl ⟨h, e⟩
  · exact .inr ⟨_, h, e⟩
  · exact .inr ⟨_, by exact h.le, e⟩

/-- All a pop can do. -/
theorem pop_cases (s : State) :
    (∃ v, pop s = .next (v, { s with sp := s.sp + 2, dtr := v }) ∧
      v = leWord (s.mem.read (lin s.ss s.sp.toNat)) (s.mem.read (lin s.ss s.sp.toNat + 1)) ∧
      lin s.ss s.sp.toNat + 1 < s.cfg.memSize) ∨
      ∃ a, s.cfg.memSize ≤ a ∧ pop s = .fault (invalidAddress s a) := by
  rcases memRead16_cases (lin s.ss s.sp.toNat) s with ⟨h, e⟩ | ⟨h, e⟩ | ⟨h, e⟩
  · exact .inl ⟨_, by rw [pop, e]; rfl, rfl, h⟩
  · exact .inr ⟨_, h, by rw [pop, e]; rfl⟩
  · exact .inr ⟨_, by exact h.le, by rw [pop, e]; rfl⟩

/-! ### The interrupt service -/

/-- The state after the three pushes. -/
def framed (s : State) : State :=
  pushed (frameWords s).2 (pushed (frameWords s).1 (pushed (flagsLow s.flags) s))

/-- All the three pushes can do. -/
theorem pushFrame_cases (s : State) :
    pushFrame s = .next (framed s) ∧ lin s.ss (s.sp - 2).toNat + 1 < s.cfg.memSize ∧
        lin s.ss (s.sp - 2 - 2).toNat + 1 < s.cfg.memSize ∧
        lin s.ss (s.sp - 2 - 2 - 2).toNat + 1 < s.cfg.memSize ∨
      ∃ a, s.cfg.memSize ≤ a ∧ pushFrame s = .fault (invalidAddress s a) := by
  unfold pushFrame framed
  rcases push_cases (flagsLow s.flags) s with ⟨h1, e1⟩ | ⟨a, h1, e1⟩ <;> rw [e1]
  swap
  · exact .inr ⟨a, h1, rfl⟩
  rw [andThen_next]
  rcases push_cases (frameWords s).1 (pushed (flagsLow s.flags) s) with ⟨h2, e2⟩ | ⟨a, h2, e2⟩ <;> rw [e2]
  swap
  · exact .inr ⟨a, h2, rfl⟩
  rw [andThen_next]
  rcases push_cases (frameWords s).2 (pushed (frameWords s).1 (pushed (flagsLow s.flags) s)) with
    ⟨h3, e3⟩ | ⟨a, h3, e3⟩ <;> rw [e3]
  · exact .inl ⟨rfl, h1, h2, h3⟩
  · exact .inr ⟨a, h3, rfl⟩

/-- The new IP and the new CS of vector v (R230). -/
def vectorIp (v : Byte) (m : Memory) : Word := leWord (m.read (vectorEntry v)) (m.read (vectorEntry v + 1))

/-- See `vectorIp`. -/
def vectorCs (v : Byte) (m : Memory) : Word := leWord (m.read (vectorEntry v + 2)) (m.read (vectorEntry v + 3))

/-- The state after CS:IP is loaded from the entry of vector v. -/
def entered (v : Byte) (s : State) : State :=
  ((s.setDtr (vectorCs v s.mem)).setIp (vectorIp v s.mem)).setCs (vectorCs v s.mem)

/-- All the vector reads can do. -/
theorem enterVector_cases (v : Byte) (s : State) :
    (vectorEntry v + 3 < s.cfg.memSize ∧ enterVector v s = .next (entered v s)) ∨
      ∃ a, s.cfg.memSize ≤ a ∧ enterVector v s = .fault (invalidAddress s a) := by
  unfold enterVector
  generalize hE : vectorEntry v = e
  rcases memRead16_cases e s with ⟨h1, e1⟩ | ⟨h1, e1⟩ | ⟨h1, e1⟩ <;> rw [e1]
  · rw [andThen_next]
    generalize hx : leWord (s.mem.read e) (s.mem.read (e + 1)) = x
    rcases memRead16_cases (e + 2) (s.setDtr x) with ⟨h2, e2⟩ | ⟨h2, e2⟩ | ⟨h2, e2⟩ <;> rw [e2]
    · exact .inl ⟨h2, by subst hE; subst hx; rfl⟩
    · exact .inr ⟨_, h2, rfl⟩
    · exact .inr ⟨_, (Nat.le_of_eq h2 : s.cfg.memSize ≤ _), rfl⟩
  · exact .inr ⟨_, h1, rfl⟩
  · exact .inr ⟨_, h1.le, rfl⟩

@[simp] theorem serviceFlags_mem (s : State) : (serviceFlags s).mem = s.mem := by
  unfold serviceFlags; split <;> rfl
@[simp] theorem serviceFlags_cfg (s : State) : (serviceFlags s).cfg = s.cfg := by
  unfold serviceFlags; split <;> rfl
@[simp] theorem serviceFlags_cs (s : State) : (serviceFlags s).cs = s.cs := by
  unfold serviceFlags; split <;> rfl
@[simp] theorem serviceFlags_ip (s : State) : (serviceFlags s).ip = s.ip := by
  unfold serviceFlags; split <;> rfl

/-- All an interrupt service can do. -/
theorem service_cases (v : Byte) (s : State) :
    (pushFrame s = .next (framed s) ∧ vectorEntry v + 3 < s.cfg.memSize ∧
        service v s = .next (entered v (serviceFlags (framed s)))) ∨
      ∃ a, s.cfg.memSize ≤ a ∧ service v s = .fault (invalidAddress s a) := by
  unfold service
  rcases pushFrame_cases s with ⟨e, _⟩ | ⟨a, h, e⟩ <;> rw [e]
  swap
  · exact .inr ⟨a, h, rfl⟩
  rw [andThen_next]
  have raise : ∀ a, invalidAddress (serviceFlags (framed s)) a = invalidAddress s a := fun a => by
    rw [invalidAddress, serviceFlags_cs, serviceFlags_ip]; rfl
  have size : (serviceFlags (framed s)).cfg.memSize = s.cfg.memSize := by rw [serviceFlags_cfg]; rfl
  rcases enterVector_cases v (serviceFlags (framed s)) with ⟨h1, e1⟩ | ⟨a, h1, e1⟩ <;> rw [e1] <;>
    rw [size] at h1
  · exact .inl ⟨rfl, h1, rfl⟩
  · exact .inr ⟨a, h1, by rw [raise]⟩

end Sys2Proof.Machine
end

