-- ==== Sys2Proof/Laws/Boot.lean ====
section
/-! SUPPORT. What the parsing of a numeral and the loading of a boot component can do. -/

namespace Sys2Proof.Machine

/-! ### Numerals -/

/-- A character above the table's characters is no digit of it. -/
theorem lookup_above {digits : List (Char × Nat)} (hd : ∀ p ∈ digits, p.1.toNat < 128) {c : Char}
    (h : 128 ≤ c.toNat) : digits.lookup c = none :=
  List.lookup_eq_none_iff.2 fun p hp => by
    rw [bne_iff_ne]
    rintro rfl
    exact absurd (hd p hp) (by omega)

theorem decDigit_eq (c : Char) : decDigit c = decimalDigits.lookup c := by
  by_cases h : c.toNat < 128
  · have key : ∀ n : Fin 128, decDigit (Char.ofNat n) = decimalDigits.lookup (Char.ofNat n) := by decide
    simpa only [Char.ofNat_toNat] using key ⟨c.toNat, h⟩
  · rw [lookup_above (by decide) (by omega), decDigit, if_neg (by omega)]

theorem hexDigit_eq (c : Char) : hexDigit c = hexDigits.lookup c := by
  by_cases h : c.toNat < 128
  · have key : ∀ n : Fin 128, hexDigit (Char.ofNat n) = hexDigits.lookup (Char.ofNat n) := by decide
    simpa only [Char.ofNat_toNat] using key ⟨c.toNat, h⟩
  · rw [lookup_above (by decide) (by omega), hexDigit, if_neg (by omega), if_neg (by omega), if_neg (by omega)]

/-- All that `numeral` can answer, over a digit function given as a table. -/
theorem numeral_eq_some {radix : Nat} {digit : Char → Option Nat} {digits : List (Char × Nat)}
    (hd : ∀ c, digit c = digits.lookup c) (cs : List Char) (acc n : Nat) :
    numeral radix digit acc cs = some n ↔
      ∃ vs : List Nat, (cs.map fun c => digits.lookup c) = vs.map some ∧
        n = vs.foldl (fun v d => radix * v + d) acc := by
  induction cs generalizing acc with
  | nil =>
    rw [numeral, Option.some_inj]
    constructor
    · rintro rfl
      exact ⟨[], rfl, rfl⟩
    · rintro ⟨_ | ⟨d, vs⟩, e, hn⟩
      · exact hn.symm
      · cases e
  | cons c rest ih =>
    rw [numeral, hd]
    cases h : digits.lookup c with
    | none =>
      refine ⟨nofun, fun ⟨vs, e, _⟩ => ?_⟩
      cases vs <;> simp [h] at e
    | some d =>
      simp only [ih, List.map_cons, h, Nat.mul_comm acc radix]
      constructor
      · rintro ⟨vs, e, hn⟩
        exact ⟨d :: vs, by rw [e, List.map_cons], hn⟩
      · rintro ⟨_ | ⟨d', vs⟩, e, hn⟩
        · cases e
        · rw [List.map_cons, List.cons.injEq, Option.some_inj] at e
          obtain ⟨rfl, e⟩ := e
          exact ⟨vs, e, hn⟩

/-- `numeralOf` answers the number its digits spell, and nothing for any other string. -/
theorem numeralOf_eq_some {radix : Nat} {digit : Char → Option Nat} {digits : List (Char × Nat)}
    (hd : ∀ c, digit c = digits.lookup c) (cs : List Char) (n : Nat) :
    numeralOf radix digit cs = some n ↔ spells radix digits cs n := by
  unfold numeralOf spells
  split
  · next h => simp [h]
  · next h => rw [numeral_eq_some hd]; simp [h]

/-! ### Components -/

/-- All that loading a component can do: its image stands at its base, or it is refused, because its
configuration gives no image. -/
theorem loadConfigured_cases (name : Component) (c : Option ComponentConfig) (size : Nat) (m : Memory) :
    (∃ base image, loadable size c base image ∧ loadConfigured name c size m = .next (m.load base image)) ∨
    ((¬∃ base image, loadable size c base image) ∧
      ∃ e, loadConfigured name c size m = .fault (.configurationError name e)) := by
  cases c with
  | none => exact .inl ⟨0, [], rfl, rfl⟩
  | some c =>
    obtain ⟨cb, cr⟩ := c
    unfold loadConfigured loadComponent loadable
    cases cr with
    | missing => simp
    | unreadable => simp
    | image bytes =>
      cases cb with
      | none => simp
      | some cs =>
        cases hpb : parseBase cs with
        | none => simp [hpb]
        | some base =>
          simp only [managerLoad]
          by_cases hh : base + bytes.length ≤ size
          · exact .inl ⟨base, bytes, ⟨rfl, ⟨cs, rfl, hpb⟩, hh⟩, by simp [hh, hpb]⟩
          · right; simp [hh, hpb]

/-- A configuration gives one image, and loading it is one effect. -/
theorem load_of_loadable (m : Memory) {size base base' : Nat} {c : Option ComponentConfig}
    {image image' : List Byte} (h : loadable size c base image) (h' : loadable size c base' image') :
    m.load base image = m.load base' image' := by
  cases c with
  | none => cases h; cases h'; rfl
  | some c =>
    obtain ⟨e1, ⟨cs, e2, e3⟩, _⟩ := h
    obtain ⟨f1, ⟨ds, f2, f3⟩, _⟩ := h'
    rw [e1] at f1; cases f1
    rw [e2] at f2; cases f2
    rw [e3] at f3; cases f3
    rfl

end Sys2Proof.Machine
end

