-- ==== Sys2Proof/Laws/Decode.lean ====
section
/-! SUPPORT. The small laws of the decoder and the encoder: register numbers, the opcode and ModRM bytes, the
displacement. -/

namespace Sys2Proof

@[simp] theorem Reg16.ofNum_num (r : Reg16) : Reg16.ofNum r.num = r := by cases r <;> rfl
@[simp] theorem Reg8.ofNum_num (r : Reg8) : Reg8.ofNum r.num = r := by cases r <;> rfl
@[simp] theorem EaBase.ofNum_num (b : EaBase) : EaBase.ofNum b.num = b := by cases b <;> rfl
@[simp] theorem Reg16.num_ofNum (n : BitVec 3) : (Reg16.ofNum n).num = n := by revert n; decide
@[simp] theorem Reg8.num_ofNum (n : BitVec 3) : (Reg8.ofNum n).num = n := by revert n; decide
@[simp] theorem EaBase.num_ofNum (n : BitVec 3) : (EaBase.ofNum n).num = n := by revert n; decide

/-- No base but [BP] has the rm field 110. -/
theorem EaBase.num_eq_six (b : EaBase) : b.num = 6 ↔ b = .bp := by cases b <;> decide

/-! ### Opcode and ModRM bytes -/

@[simp] theorem phaseOne_irOpcode (w : Bool) (reg : BitVec 3) :
    phaseOne (irOpcode w reg) = some (.ir w reg) := by revert w reg; decide

@[simp] theorem phaseOne_maOpcode (d w : Bool) : phaseOne (maOpcode d w) = some (.ma d w) := by
  revert d w; decide

@[simp] theorem phaseOne_rmOpcode (d w : Bool) : phaseOne (rmOpcode d w) = some (.rm d w) := by
  revert d w; decide

/-- The opcode byte of what phase 1 reads. -/
def PhaseOne.opcodeByte : PhaseOne → Byte
  | .ir w reg => irOpcode w reg
  | .ma d w => maOpcode d w
  | .rm d w => rmOpcode d w

/-- Phase 1 loses nothing of the byte it accepts. -/
theorem opcodeByte_of_phaseOne (b : Byte) (p : PhaseOne) (h : phaseOne b = some p) : p.opcodeByte = b := by
  have H : ∀ b : Byte, (phaseOne b).all (fun p => decide (p.opcodeByte = b)) = true := by decide
  have := H b
  rw [h] at this
  exact of_decide_eq_true this

@[simp] theorem modField_modRmByte (mod : BitVec 2) (reg r : BitVec 3) :
    (modRmByte mod reg r).extractLsb' 6 2 = mod := by revert mod reg r; decide

@[simp] theorem regField_modRmByte (mod : BitVec 2) (reg r : BitVec 3) :
    (modRmByte mod reg r).extractLsb' 3 3 = reg := by revert mod reg r; decide

@[simp] theorem rmField_modRmByte (mod : BitVec 2) (reg r : BitVec 3) :
    (modRmByte mod reg r).extractLsb' 0 3 = r := by revert mod reg r; decide

/-- Splitting the ModRM byte loses nothing of it (R95). -/
theorem modRmByte_fields (m : Byte) :
    modRmByte (m.extractLsb' 6 2) (m.extractLsb' 3 3) (m.extractLsb' 0 3) = m := by revert m; decide

@[simp] theorem lowByte_sext16 (b : Byte) : lowByte (sext16 b) = b := by revert b; decide
@[simp] theorem lowByte_setWidth (b : Byte) : lowByte (b.setWidth 16) = b := by revert b; decide

/-- The displacement is 0, 1 or 2 bytes long (R96). -/
theorem displen_le (mod : BitVec 2) (r : BitVec 3) : displen mod r ≤ 2 := by revert mod r; decide

@[simp] theorem length_dispBytes (mod : BitVec 2) (r : BitVec 3) (v : Word) :
    (dispBytes (displen mod r) v).length = displen mod r := by
  have := displen_le mod r
  rcases hd : displen mod r with _ | _ | _ | n
  · rfl
  · rfl
  · rfl
  · omega

/-- Re-assembly of an Instruction value has its length (R104, R112). -/
theorem InstructionValue.length_encode (v : InstructionValue) : v.encode.length = v.length := by
  cases v with
  | ir w reg imm => cases w <;> rfl
  | ma d w disp => rfl
  | rm d w mod reg r disp =>
    simp only [InstructionValue.encode, InstructionValue.length, List.length_cons, length_dispBytes]
    omega

theorem length_encode (i : Instr) : (encode i).length = i.length := InstructionValue.length_encode _

end Sys2Proof
end

