-- ==== Sys2Proof/Laws/Fetch.lean ====
section
/-! SUPPORT. What the fetch burst and the decoder's reads of the queue do. -/

namespace Sys2Proof.Machine

/-- A queue with room takes a byte at its tail (R42). -/
theorem fill_eq_some (b : Byte) (q : Queue) (h : q.count.val < 6) :
    ∃ q', q.fill b = some q' ∧ q'.count.val = q.count.val + 1 ∧ q'.head = q.head ∧ q'.tail = q.tail + 1 ∧
      q'.buf = q.buf.set q.tail b := by
  refine ⟨_, dif_pos h, rfl, rfl, rfl, rfl⟩

/-- A byte of the burst lands in the queue, if there is room. -/
theorem enqueue_next (b : Byte) (s : State) (h : s.queue.count.val < 6) :
    ∃ q, enqueue b s = .next (s.setQueue q) ∧ q.count.val = s.queue.count.val + 1 := by
  obtain ⟨q, hq, hc, _⟩ := fill_eq_some b s.queue h
  exact ⟨q, by rw [enqueue, hq], hc⟩

/-- The burst faults at the first address outside memory, if it reaches one (R76). -/
theorem fetchBytes_fault (n i : Nat) (s : State) (hc : s.queue.count.val + n ≤ 6)
    (hi : lin s.cs s.ip.toNat + i ≤ max (lin s.cs s.ip.toNat) s.cfg.memSize)
    (h : s.cfg.memSize < lin s.cs s.ip.toNat + i + n) (hn : 0 < n) :
    fetchBytes n i s = .fault (invalidAddress s (max (lin s.cs s.ip.toNat + i) s.cfg.memSize)) := by
  induction n generalizing i s with
  | zero => omega
  | succ n ih =>
    have hl : lin s.cs (s.ip.toNat + i) = lin s.cs s.ip.toNat + i := (Nat.add_assoc _ _ _).symm
    rw [fetchBytes, hl]
    rcases memRead8_cases (lin s.cs s.ip.toNat + i) s with ⟨hv, e⟩ | ⟨hv, e⟩ <;> rw [e]
    · rw [andThen_next]
      obtain ⟨q, eq, hq⟩ := enqueue_next (s.mem.read (lin s.cs s.ip.toNat + i))
        (s.setDtr ((s.mem.read (lin s.cs s.ip.toNat + i)).setWidth 16)) (by simp; omega)
      rw [eq, andThen_next]
      simp only [State.setDtr_queue] at hq
      have := ih (i + 1) ((s.setDtr ((s.mem.read (lin s.cs s.ip.toNat + i)).setWidth 16)).setQueue q)
        (by simp; omega) (by simp; omega) (by simp; omega) (by omega)
      rw [this]
      simp only [invalidAddress, State.setQueue_cs, State.setQueue_ip, State.setQueue_cfg, State.setDtr_cs,
        State.setDtr_ip, State.setDtr_cfg]
      congr 2
      omega
    · rw [andThen_fault, Nat.max_eq_left hv]

/-- One read of the burst, over a state that already holds a part of it. -/
theorem fetchBytes_succ (n i : Nat) (s : State) (q q' : Queue) (v : Word)
    (hv : s.pcAddress + i < s.cfg.memSize) (hq : q.fill (s.mem.read (s.pcAddress + i)) = some q') :
    fetchBytes (n + 1) i ((s.setQueue q).setDtr v) =
      fetchBytes n (i + 1) ((s.setQueue q').setDtr ((s.mem.read (s.pcAddress + i)).setWidth 16)) := by
  have hl : lin s.cs (s.ip.toNat + i) = s.pcAddress + i := (Nat.add_assoc _ _ _).symm
  have hr := memRead8_next (s.pcAddress + i) ((s.setQueue q).setDtr v) hv
  have he : enqueue (s.mem.read (s.pcAddress + i)) (((s.setQueue q).setDtr v).setDtr
      ((s.mem.read (s.pcAddress + i)).setWidth 16)) =
      .next ((s.setQueue q').setDtr ((s.mem.read (s.pcAddress + i)).setWidth 16)) := by
    simp only [enqueue, State.setDtr_queue, State.setQueue_queue, hq]
    rfl
  rw [fetchBytes]
  simp only [State.setDtr_cs, State.setQueue_cs, State.setDtr_ip, State.setQueue_ip, hl]
  rw [hr, andThen_next]
  simp only [State.setDtr_mem, State.setQueue_mem]
  rw [he, andThen_next]

/-- The cells of a full burst do not depend on what they held before. -/
theorem cells_eq (c : Vector Byte 6) (b0 b1 b2 b3 b4 b5 : Byte) :
    (((((c.set 0 b0).set 1 b1).set 2 b2).set 3 b3).set 4 b4).set 5 b5 = #v[b0, b1, b2, b3, b4, b5] := by
  apply Vector.ext
  intro i hi
  interval_cases i <;> simp

/-- The burst where its six bytes exist. -/
theorem fillBurst_next (s : State) (h : s.BurstValid) : fillBurst s = .next (fetched s) := by
  have hv : ∀ i, i ≤ 5 → s.pcAddress + i < s.cfg.memSize := fun i hi => Nat.lt_of_le_of_lt (by omega) h
  obtain ⟨b0, h0⟩ : ∃ b, s.mem.read (s.pcAddress + 0) = b := ⟨_, rfl⟩
  obtain ⟨b1, h1⟩ : ∃ b, s.mem.read (s.pcAddress + 1) = b := ⟨_, rfl⟩
  obtain ⟨b2, h2⟩ : ∃ b, s.mem.read (s.pcAddress + 2) = b := ⟨_, rfl⟩
  obtain ⟨b3, h3⟩ : ∃ b, s.mem.read (s.pcAddress + 3) = b := ⟨_, rfl⟩
  obtain ⟨b4, h4⟩ : ∃ b, s.mem.read (s.pcAddress + 4) = b := ⟨_, rfl⟩
  obtain ⟨b5, h5⟩ : ∃ b, s.mem.read (s.pcAddress + 5) = b := ⟨_, rfl⟩
  let c := s.queue.buf
  let q0 : Queue := ⟨c, 0, 0, 0⟩
  let q1 : Queue := ⟨c.set 0 b0, 0, 1, 1⟩
  let q2 : Queue := ⟨q1.buf.set 1 b1, 0, 2, 2⟩
  let q3 : Queue := ⟨q2.buf.set 2 b2, 0, 3, 3⟩
  let q4 : Queue := ⟨q3.buf.set 3 b3, 0, 4, 4⟩
  let q5 : Queue := ⟨q4.buf.set 4 b4, 0, 5, 5⟩
  let q6 : Queue := ⟨q5.buf.set 5 b5, 0, 0, 6⟩
  have e : q6 = burstQueue s := by
    have h0' : s.mem.read s.pcAddress = b0 := h0
    show Queue.mk _ _ _ _ = _
    rw [burstQueue, h0', h1, h2, h3, h4, h5, ← cells_eq c]
  rw [fetched, ← e, h5]
  exact (fetchBytes_succ 5 0 s q0 q1 s.dtr (hv 0 (by omega)) (h0 ▸ rfl)).trans <|
    (fetchBytes_succ 4 1 s q1 q2 _ (hv 1 (by omega)) (h1 ▸ rfl)).trans <|
    (fetchBytes_succ 3 2 s q2 q3 _ (hv 2 (by omega)) (h2 ▸ rfl)).trans <|
    (fetchBytes_succ 2 3 s q3 q4 _ (hv 3 (by omega)) (h3 ▸ rfl)).trans <|
    (fetchBytes_succ 1 4 s q4 q5 _ (hv 4 (by omega)) (h4 ▸ rfl)).trans <|
    (fetchBytes_succ 0 5 s q5 q6 _ (hv 5 (by omega)) (h5 ▸ rfl)).trans <| by rw [h5]; rfl

/-- The burst where one of its six bytes does not exist: the first such address (R76). -/
theorem fillBurst_fault (s : State) (h : ¬s.BurstValid) :
    fillBurst s = .fault (invalidAddress s (max s.pcAddress s.cfg.memSize)) := by
  have h' : s.cfg.memSize < lin s.cs s.ip.toNat + 0 + 6 := by
    have : ¬ lin s.cs s.ip.toNat + 5 < s.cfg.memSize := h
    omega
  exact fetchBytes_fault 6 0 (s.setQueue s.queue.reset) (Nat.le_refl 6) (by simp) h' (by omega)

/-- All the burst can do. -/
theorem fillBurst_cases (s : State) :
    (s.BurstValid ∧ fillBurst s = .next (fetched s)) ∨
      (¬s.BurstValid ∧ fillBurst s = .fault (invalidAddress s (max s.pcAddress s.cfg.memSize))) := by
  by_cases h : s.BurstValid
  · exact .inl ⟨h, fillBurst_next s h⟩
  · exact .inr ⟨h, fillBurst_fault s h⟩

/-- The decoder's reads after a burst are the bytes at CS:IP (R75). -/
theorem decodeQueue_fetched (s : State) :
    decodeQueue (fetched s) =
      match decode (s.mem.read s.pcAddress) (s.mem.read (s.pcAddress + 1)) (s.mem.read (s.pcAddress + 2))
          (s.mem.read (s.pcAddress + 3)) with
      | .ok p => .next p
      | .error _ => .fault (.unrecognizedOpcode (s.mem.read s.pcAddress) s.cs s.ip) := rfl

section
variable (s : State)
@[simp] theorem fetched_cfg : (fetched s).cfg = s.cfg := rfl
@[simp] theorem fetched_mem : (fetched s).mem = s.mem := rfl
@[simp] theorem fetched_flags : (fetched s).flags = s.flags := rfl
@[simp] theorem fetched_cs : (fetched s).cs = s.cs := rfl
@[simp] theorem fetched_ip : (fetched s).ip = s.ip := rfl
@[simp] theorem fetched_queue : (fetched s).queue = burstQueue s := rfl
@[simp] theorem fetched_reg16 (r : Reg16) : (fetched s).reg16 r = s.reg16 r := by cases r <;> rfl
@[simp] theorem fetched_reg8 (r : Reg8) : (fetched s).reg8 r = s.reg8 r := by cases r <;> rfl
end

/-- What passing a boundary changes: the PIC's answers, nothing else. -/
theorem passBoundary_eq (s : State) : ∃ p, passBoundary s = s.setPic p := by
  unfold passBoundary
  split
  · exact ⟨_, rfl⟩
  · exact ⟨s.pic, rfl⟩
  · exact ⟨s.pic, rfl⟩

/-- An accepted interrupt has a vector to give. -/
theorem nextInt_of_accepted (s : State) (h : interruptAccepted s = true) :
    ∃ v rest, s.pic = some v :: rest ∧ nextInt s = some (v, s.setPic rest) := by
  unfold interruptAccepted hasInt at h
  unfold nextInt
  split at h
  · rename_i v rest hp; exact ⟨v, rest, hp, rfl⟩
  · simp at h
  · simp at h

/-- All a step can do: the recorded fault, one interrupt service, or one instruction (R141). -/
theorem step_cases (s : State) :
    (∃ f, s.fault = some f ∧ step s = .fault f) ∨
    (s.fault = none ∧ interruptAccepted s = true ∧
      ∃ v rest, s.pic = some v :: rest ∧ step s = service v (s.setPic rest)) ∨
    (s.RunsInstruction ∧ ∃ p, passBoundary s = s.setPic p ∧
      step s = andThen (instructionStep (s.setPic p)) fun q => .next q.2) := by
  unfold step clockedStep
  cases hf : s.fault with
  | some f => exact .inl ⟨f, rfl, rfl⟩
  | none =>
    cases hi : interruptAccepted s with
    | true =>
      obtain ⟨v, rest, hp, hn⟩ := nextInt_of_accepted s hi
      refine .inr (.inl ⟨rfl, rfl, v, rest, hp, ?_⟩)
      simp only [if_true, hn]
      cases service v (s.setPic rest) <;> rfl
    | false =>
      obtain ⟨p, hp⟩ := passBoundary_eq s
      exact .inr (.inr ⟨⟨hf, hi⟩, p, hp, by simp only [Bool.false_eq_true, if_false, hp]⟩)

end Sys2Proof.Machine
end

