-- ==== Sys2Proof/Laws/Service.lean ====
section
/-! SUPPORT. What a push, the frame of an interrupt service, and the load of CS:IP leave alone, field by field. -/

namespace Sys2Proof.Machine

section
variable (v : Word) (n : Byte) (s : State)

@[simp] theorem pushed_sp : (pushed v s).sp = s.sp - 2 := rfl
@[simp] theorem pushed_dtr : (pushed v s).dtr = v := rfl
@[simp] theorem pushed_ax : (pushed v s).ax = s.ax := rfl
@[simp] theorem pushed_bx : (pushed v s).bx = s.bx := rfl
@[simp] theorem pushed_cx : (pushed v s).cx = s.cx := rfl
@[simp] theorem pushed_dx : (pushed v s).dx = s.dx := rfl
@[simp] theorem pushed_bp : (pushed v s).bp = s.bp := rfl
@[simp] theorem pushed_si : (pushed v s).si = s.si := rfl
@[simp] theorem pushed_di : (pushed v s).di = s.di := rfl
@[simp] theorem pushed_ds : (pushed v s).ds = s.ds := rfl
@[simp] theorem pushed_es : (pushed v s).es = s.es := rfl
@[simp] theorem pushed_ss : (pushed v s).ss = s.ss := rfl
@[simp] theorem pushed_cs : (pushed v s).cs = s.cs := rfl
@[simp] theorem pushed_ip : (pushed v s).ip = s.ip := rfl
@[simp] theorem pushed_flags : (pushed v s).flags = s.flags := rfl
@[simp] theorem pushed_queue : (pushed v s).queue = s.queue := rfl
@[simp] theorem pushed_defseg : (pushed v s).defseg = s.defseg := rfl
@[simp] theorem pushed_fault : (pushed v s).fault = s.fault := rfl
@[simp] theorem pushed_pic : (pushed v s).pic = s.pic := rfl
@[simp] theorem pushed_draws : (pushed v s).draws = s.draws := rfl
@[simp] theorem pushed_cfg : (pushed v s).cfg = s.cfg := rfl

@[simp] theorem framed_ax : (framed s).ax = s.ax := rfl
@[simp] theorem framed_bx : (framed s).bx = s.bx := rfl
@[simp] theorem framed_cx : (framed s).cx = s.cx := rfl
@[simp] theorem framed_dx : (framed s).dx = s.dx := rfl
@[simp] theorem framed_bp : (framed s).bp = s.bp := rfl
@[simp] theorem framed_si : (framed s).si = s.si := rfl
@[simp] theorem framed_di : (framed s).di = s.di := rfl
@[simp] theorem framed_ds : (framed s).ds = s.ds := rfl
@[simp] theorem framed_es : (framed s).es = s.es := rfl
@[simp] theorem framed_ss : (framed s).ss = s.ss := rfl
@[simp] theorem framed_cs : (framed s).cs = s.cs := rfl
@[simp] theorem framed_ip : (framed s).ip = s.ip := rfl
@[simp] theorem framed_flags : (framed s).flags = s.flags := rfl
@[simp] theorem framed_queue : (framed s).queue = s.queue := rfl
@[simp] theorem framed_defseg : (framed s).defseg = s.defseg := rfl
@[simp] theorem framed_fault : (framed s).fault = s.fault := rfl
@[simp] theorem framed_pic : (framed s).pic = s.pic := rfl
@[simp] theorem framed_draws : (framed s).draws = s.draws := rfl
@[simp] theorem framed_cfg : (framed s).cfg = s.cfg := rfl
@[simp] theorem framed_sp : (framed s).sp = s.sp - 2 - 2 - 2 := rfl

@[simp] theorem serviceFlags_ax : (serviceFlags s).ax = s.ax := by
  unfold serviceFlags; split <;> rfl
@[simp] theorem serviceFlags_bx : (serviceFlags s).bx = s.bx := by
  unfold serviceFlags; split <;> rfl
@[simp] theorem serviceFlags_cx : (serviceFlags s).cx = s.cx := by
  unfold serviceFlags; split <;> rfl
@[simp] theorem serviceFlags_dx : (serviceFlags s).dx = s.dx := by
  unfold serviceFlags; split <;> rfl
@[simp] theorem serviceFlags_bp : (serviceFlags s).bp = s.bp := by
  unfold serviceFlags; split <;> rfl
@[simp] theorem serviceFlags_si : (serviceFlags s).si = s.si := by
  unfold serviceFlags; split <;> rfl
@[simp] theorem serviceFlags_di : (serviceFlags s).di = s.di := by
  unfold serviceFlags; split <;> rfl
@[simp] theorem serviceFlags_ds : (serviceFlags s).ds = s.ds := by
  unfold serviceFlags; split <;> rfl
@[simp] theorem serviceFlags_es : (serviceFlags s).es = s.es := by
  unfold serviceFlags; split <;> rfl
@[simp] theorem serviceFlags_ss : (serviceFlags s).ss = s.ss := by
  unfold serviceFlags; split <;> rfl
@[simp] theorem serviceFlags_queue : (serviceFlags s).queue = s.queue := by
  unfold serviceFlags; split <;> rfl
@[simp] theorem serviceFlags_defseg : (serviceFlags s).defseg = s.defseg := by
  unfold serviceFlags; split <;> rfl
@[simp] theorem serviceFlags_fault : (serviceFlags s).fault = s.fault := by
  unfold serviceFlags; split <;> rfl
@[simp] theorem serviceFlags_pic : (serviceFlags s).pic = s.pic := by
  unfold serviceFlags; split <;> rfl
@[simp] theorem serviceFlags_draws : (serviceFlags s).draws = s.draws := by
  unfold serviceFlags; split <;> rfl
@[simp] theorem serviceFlags_sp : (serviceFlags s).sp = s.sp := by
  unfold serviceFlags; split <;> rfl

@[simp] theorem entered_ax : (entered n s).ax = s.ax := rfl
@[simp] theorem entered_bx : (entered n s).bx = s.bx := rfl
@[simp] theorem entered_cx : (entered n s).cx = s.cx := rfl
@[simp] theorem entered_dx : (entered n s).dx = s.dx := rfl
@[simp] theorem entered_bp : (entered n s).bp = s.bp := rfl
@[simp] theorem entered_si : (entered n s).si = s.si := rfl
@[simp] theorem entered_di : (entered n s).di = s.di := rfl
@[simp] theorem entered_ds : (entered n s).ds = s.ds := rfl
@[simp] theorem entered_es : (entered n s).es = s.es := rfl
@[simp] theorem entered_ss : (entered n s).ss = s.ss := rfl
@[simp] theorem entered_flags : (entered n s).flags = s.flags := rfl
@[simp] theorem entered_queue : (entered n s).queue = s.queue := rfl
@[simp] theorem entered_defseg : (entered n s).defseg = s.defseg := rfl
@[simp] theorem entered_fault : (entered n s).fault = s.fault := rfl
@[simp] theorem entered_pic : (entered n s).pic = s.pic := rfl
@[simp] theorem entered_draws : (entered n s).draws = s.draws := rfl
@[simp] theorem entered_cfg : (entered n s).cfg = s.cfg := rfl
@[simp] theorem entered_sp : (entered n s).sp = s.sp := rfl
@[simp] theorem entered_mem : (entered n s).mem = s.mem := rfl
@[simp] theorem entered_ip : (entered n s).ip = vectorIp n s.mem := rfl
@[simp] theorem entered_cs : (entered n s).cs = vectorCs n s.mem := rfl
@[simp] theorem entered_dtr : (entered n s).dtr = vectorCs n s.mem := rfl

end

/-- Clearing IF and TF on entry keeps the bits that name no flag (R37). -/
theorem serviceFlags_reserved (s : State) :
    (serviceFlags s).flags &&& ~~~namedFlags = s.flags &&& ~~~namedFlags := by
  unfold serviceFlags; split
  · exact (putFlag_reserved .tf false _).trans (putFlag_reserved .intEnable false _)
  · rfl

/-- A push keeps the memory canonical and inside MEM_SIZE. -/
theorem pushed_mem_ok (v : Word) (s : State) (hw : s.mem.wf = true)
    (hi : s.mem.within s.cfg.memSize = true) (h : lin s.ss (s.sp - 2).toNat + 1 < s.cfg.memSize) :
    (pushed v s).mem.wf = true ∧ (pushed v s).mem.within s.cfg.memSize = true :=
  ⟨Memory.wf_write _ _ _ (Memory.wf_write _ _ _ hw),
    Memory.within_write _ _ _ _ (Memory.within_write _ _ _ _ hi (by omega)) h⟩

end Sys2Proof.Machine
end

