-- ==== Sys2Proof/Laws/Step.lean ====
section
/-! SUPPORT. What an instruction and a step can do, said once: every claim about a step starts from these. -/

namespace Sys2Proof.Machine

/-! ### An instruction -/

/-- The elements no MOV writes (R172). -/
structure SameApart (s t : State) : Prop where
  cs : t.cs = s.cs
  ds : t.ds = s.ds
  es : t.es = s.es
  ss : t.ss = s.ss
  ip : t.ip = s.ip
  flags : t.flags = s.flags
  queue : t.queue = s.queue
  defseg : t.defseg = s.defseg
  fault : t.fault = s.fault
  pic : t.pic = s.pic
  draws : t.draws = s.draws
  cfg : t.cfg = s.cfg

/-- The two shapes of a memory effect: nothing, or one or two bytes at valid addresses. -/
inductive Stored (s t : State) : Prop where
  | nothing (h : t.mem = s.mem)
  | byte (a : Nat) (b : Byte) (ha : a < s.cfg.memSize) (h : t.mem = s.mem.write a b)
  | word (a : Nat) (v : Word) (ha : a + 1 < s.cfg.memSize)
      (h : t.mem = (s.mem.write a (lowByte v)).write (a + 1) (highByte v))

theorem setReg8_apart (d : Reg8) (v : Byte) (w : Word) (s : State) :
    SameApart s ((s.setDtr w).setReg8 d v) ∧ ((s.setDtr w).setReg8 d v).mem = s.mem := by
  cases d <;> exact ⟨⟨rfl, rfl, rfl, rfl, rfl, rfl, rfl, rfl, rfl, rfl, rfl, rfl⟩, rfl⟩

theorem setReg16_apart (d : Reg16) (v w : Word) (s : State) :
    SameApart s ((s.setDtr w).setReg16 d v) ∧ ((s.setDtr w).setReg16 d v).mem = s.mem := by
  cases d <;> exact ⟨⟨rfl, rfl, rfl, rfl, rfl, rfl, rfl, rfl, rfl, rfl, rfl, rfl⟩, rfl⟩

theorem memWrite8_apart (a : Nat) (v : Byte) (s t : State) (h : memWrite8 a v s = .next t) :
    SameApart s t ∧ Stored s t := by
  rcases memWrite8_cases a v s with ⟨ha, e⟩ | ⟨_, e⟩ <;> rw [e] at h <;> cases h
  exact ⟨⟨rfl, rfl, rfl, rfl, rfl, rfl, rfl, rfl, rfl, rfl, rfl, rfl⟩, .byte a v ha rfl⟩

theorem memWrite16_apart (a : Nat) (v : Word) (s t : State) (h : memWrite16 a v s = .next t) :
    SameApart s t ∧ Stored s t := by
  rcases memWrite16_cases a v s with ⟨ha, e⟩ | ⟨_, e⟩ | ⟨_, e⟩ <;> rw [e] at h <;> cases h
  exact ⟨⟨rfl, rfl, rfl, rfl, rfl, rfl, rfl, rfl, rfl, rfl, rfl, rfl⟩, .word a v ha rfl⟩

/-- A state is itself with DTR as it is. -/
theorem setDtr_self (s : State) : s.setDtr s.dtr = s := rfl

/-- When an instruction answers a next state, it left everything but the operand registers, memory and DTR
alone, and stored at most two bytes, at valid addresses. -/
theorem exec_apart (i : Instr) (s t : State) (h : exec i s = .next t) : SameApart s t ∧ Stored s t := by
  have half : ∀ d v w, t = (s.setDtr w).setReg8 d v → SameApart s t ∧ Stored s t := by
    rintro d v w rfl
    exact ⟨(setReg8_apart d v w s).1, .nothing (setReg8_apart d v w s).2⟩
  have word : ∀ d v w, t = (s.setDtr w).setReg16 d v → SameApart s t ∧ Stored s t := by
    rintro d v w rfl
    exact ⟨(setReg16_apart d v w s).1, .nothing (setReg16_apart d v w s).2⟩
  cases i with
  | movRm8R8 d r => cases d with
    | reg d => cases h; exact half d _ s.dtr rfl
    | mem m => exact memWrite8_apart _ _ s t h
  | movRm16R16 d r => cases d with
    | reg d => cases h; exact word d _ s.dtr rfl
    | mem m => exact memWrite16_apart _ _ s t h
  | movR8Rm8 d o =>
    obtain ⟨p, hp, hk⟩ := andThen_eq_next.1 h
    cases hk
    rcases readRm8_cases o s with ⟨v, u, e, rfl | rfl⟩ | ⟨a, _, e⟩ <;> rw [e] at hp <;> cases hp
    · exact half d v u.dtr rfl
    · exact half d v _ rfl
  | movR16Rm16 d o =>
    obtain ⟨p, hp, hk⟩ := andThen_eq_next.1 h
    cases hk
    rcases readRm16_cases o s with ⟨v, u, e, rfl | rfl⟩ | ⟨a, _, e⟩ <;> rw [e] at hp <;> cases hp
    · exact word d v u.dtr rfl
    · exact word d v _ rfl
  | movAlMem a =>
    obtain ⟨p, hp, hk⟩ := andThen_eq_next.1 h
    cases hk
    rcases memRead8_cases (operandAddress s (.direct a)) s with ⟨_, e⟩ | ⟨_, e⟩ <;> rw [e] at hp <;> cases hp
    exact half .al _ _ rfl
  | movAxMem a =>
    obtain ⟨p, hp, hk⟩ := andThen_eq_next.1 h
    cases hk
    rcases memRead16_cases (operandAddress s (.direct a)) s with ⟨_, e⟩ | ⟨_, e⟩ | ⟨_, e⟩ <;> rw [e] at hp <;>
      cases hp
    exact word .ax _ _ rfl
  | movMemAl a => exact memWrite8_apart _ _ s t h
  | movMemAx a => exact memWrite16_apart _ _ s t h
  | movR8Imm8 d v => cases h; exact half d v s.dtr rfl
  | movR16Imm16 d v => cases h; exact word d v s.dtr rfl

/-- An instruction does not refuse, and its only fault is an invalid address. -/
theorem exec_stops (i : Instr) (s : State) :
    (∃ t, exec i s = .next t) ∨ ∃ a, s.cfg.memSize ≤ a ∧ exec i s = .fault (invalidAddress s a) := by
  have w8 : ∀ a v, (∃ t, memWrite8 a v s = .next t) ∨
      ∃ a', s.cfg.memSize ≤ a' ∧ memWrite8 a v s = .fault (invalidAddress s a') := fun a v => by
    rcases memWrite8_cases a v s with ⟨_, e⟩ | ⟨h, e⟩
    · exact .inl ⟨_, e⟩
    · exact .inr ⟨_, h, e⟩
  have w16 : ∀ a v, (∃ t, memWrite16 a v s = .next t) ∨
      ∃ a', s.cfg.memSize ≤ a' ∧ memWrite16 a v s = .fault (invalidAddress s a') := fun a v => by
    rcases memWrite16_cases a v s with ⟨_, e⟩ | ⟨h, e⟩ | ⟨h, e⟩
    · exact .inl ⟨_, e⟩
    · exact .inr ⟨_, h, e⟩
    · exact .inr ⟨_, h.le, e⟩
  cases i with
  | movRm8R8 d r => cases d with
    | reg d => exact .inl ⟨_, rfl⟩
    | mem m => exact w8 _ _
  | movRm16R16 d r => cases d with
    | reg d => exact .inl ⟨_, rfl⟩
    | mem m => exact w16 _ _
  | movR8Rm8 d o =>
    rcases readRm8_cases o s with ⟨v, u, e, _⟩ | ⟨a, h, e⟩
    · exact .inl ⟨_, by rw [exec, execMovR8Rm8, e]; rfl⟩
    · exact .inr ⟨a, h, by rw [exec, execMovR8Rm8, e]; rfl⟩
  | movR16Rm16 d o =>
    rcases readRm16_cases o s with ⟨v, u, e, _⟩ | ⟨a, h, e⟩
    · exact .inl ⟨_, by rw [exec, execMovR16Rm16, e]; rfl⟩
    · exact .inr ⟨a, h, by rw [exec, execMovR16Rm16, e]; rfl⟩
  | movAlMem a =>
    rcases memRead8_cases (operandAddress s (.direct a)) s with ⟨_, e⟩ | ⟨h, e⟩
    · exact .inl ⟨_, by rw [exec, execMovAlMem, e]; rfl⟩
    · exact .inr ⟨_, h, by rw [exec, execMovAlMem, e]; rfl⟩
  | movAxMem a =>
    rcases memRead16_cases (operandAddress s (.direct a)) s with ⟨_, e⟩ | ⟨h, e⟩ | ⟨h, e⟩
    · exact .inl ⟨_, by rw [exec, execMovAxMem, e]; rfl⟩
    · exact .inr ⟨_, h, by rw [exec, execMovAxMem, e]; rfl⟩
    · exact .inr ⟨_, h.le, by rw [exec, execMovAxMem, e]; rfl⟩
  | movMemAl a => exact w8 _ _
  | movMemAx a => exact w16 _ _
  | movR8Imm8 d v => exact .inl ⟨_, rfl⟩
  | movR16Imm16 d v => exact .inl ⟨_, rfl⟩

/-! ### A step -/

/-- The decoder's answer for the bytes at CS:IP. -/
abbrev decodedAt (s : State) : Except DecodeError (Instr × Nat) :=
  decode (s.mem.read s.pcAddress) (s.mem.read (s.pcAddress + 1)) (s.mem.read (s.pcAddress + 2))
    (s.mem.read (s.pcAddress + 3))

/-- An instruction step, its burst valid or not. -/
theorem instructionStep_cases (s : State) :
    (¬s.BurstValid ∧ instructionStep s = .fault (invalidAddress s (max s.pcAddress s.cfg.memSize))) ∨
    (s.BurstValid ∧ instructionStep s =
      match decodedAt s with
      | .ok p => andThen (exec p.1 (fetched s)) fun t => .next (instrClocks (fetched s) p.1, t.advanceIp p.2)
      | .error _ => .fault (.unrecognizedOpcode (s.mem.read s.pcAddress) s.cs s.ip)) := by
  rcases fillBurst_cases s with ⟨h, e⟩ | ⟨h, e⟩
  · refine .inr ⟨h, ?_⟩
    rw [instructionStep, e, andThen_next, decodeQueue_fetched]
    unfold decodedAt
    cases decode (s.mem.read s.pcAddress) (s.mem.read (s.pcAddress + 1)) (s.mem.read (s.pcAddress + 2))
      (s.mem.read (s.pcAddress + 3)) <;> rfl
  · exact .inl ⟨h, by rw [instructionStep, e]; rfl⟩

/-- All the ways a step ends in a next state. -/
theorem step_next_cases (s t : State) (h : step s = .next t) :
    (s.fault = none ∧ interruptAccepted s = true ∧ ∃ v rest, s.pic = some v :: rest ∧
      pushFrame (s.setPic rest) = .next (framed (s.setPic rest)) ∧
      t = entered v (serviceFlags (framed (s.setPic rest)))) ∨
    (s.RunsInstruction ∧ s.BurstValid ∧ ∃ p i len u, passBoundary s = s.setPic p ∧
      decodedAt s = .ok (i, len) ∧ exec i (fetched (s.setPic p)) = .next u ∧ t = u.advanceIp len) := by
  rcases step_cases s with ⟨f, _, e⟩ | ⟨hf, hi, v, rest, hp, e⟩ | ⟨hr, p, hp, e⟩ <;> rw [e] at h
  · cases h
  · rcases service_cases v (s.setPic rest) with ⟨h1, _, e2⟩ | ⟨a, _, e2⟩ <;> rw [e2] at h <;> cases h
    exact .inl ⟨hf, hi, v, rest, hp, h1, rfl⟩
  · rcases instructionStep_cases (s.setPic p) with ⟨_, e2⟩ | ⟨hb, e2⟩ <;> rw [e2] at h
    · cases h
    · refine .inr ⟨hr, hb, p, ?_⟩
      rw [show decodedAt (s.setPic p) = decodedAt s from rfl] at h
      cases hd : decodedAt s with
      | error e => rw [hd] at h; cases h
      | ok q =>
        rw [hd] at h
        obtain ⟨x, hx, hk⟩ := andThen_eq_next.1 h
        obtain ⟨u, hu, hk2⟩ := andThen_eq_next.1 hx
        cases hk2; cases hk
        exact ⟨q.1, q.2, u, hp, rfl, hu, rfl⟩

end Sys2Proof.Machine
end

