-- ==== Sys2Proof/Laws/Driver.lean ====
section
/-! SUPPORT. What the driver's calls can do: the state after a fault, one call of the core, one step of one of
several cores, and a port transfer. -/

namespace Sys2Proof.Machine

/-! ### Memory after a fault -/

/-- The bytes a frame's pushes store exist. -/
theorem lt_of_mem_frameBytes (s : State) (ds : List Word) {a : Nat} (h : a ∈ frameBytes s ds) :
    a < s.cfg.memSize := by
  induction ds with
  | nil => exact absurd h List.not_mem_nil
  | cons d rest ih =>
    unfold frameBytes at h
    dsimp only at h
    split at h
    · rcases List.mem_cons.1 h with rfl | h
      · omega
      · rcases List.mem_cons.1 h with rfl | h
        · assumption
        · exact ih h
    · exact absurd h List.not_mem_nil

/-- A frame's pushes store nowhere but in the words below SP. -/
theorem frameBytes_places (s : State) (ds : List Word) {a : Nat} (h : a ∈ frameBytes s ds) :
    ∃ d ∈ ds, a = lin s.ss (s.sp - d).toNat ∨ a = lin s.ss (s.sp - d).toNat + 1 := by
  induction ds with
  | nil => exact absurd h List.not_mem_nil
  | cons d rest ih =>
    unfold frameBytes at h
    dsimp only at h
    split at h
    · rcases List.mem_cons.1 h with h | h
      · exact ⟨d, List.mem_cons_self, .inl h⟩
      · rcases List.mem_cons.1 h with h | h
        · exact ⟨d, List.mem_cons_self, .inr h⟩
        · obtain ⟨e, he, hp⟩ := ih h
          exact ⟨e, List.mem_cons_of_mem d he, hp⟩
    · exact absurd h List.not_mem_nil

/-- An instruction step that faults has written no byte of memory. -/
theorem writtenBeforeFault_instruction (s : State) (h : interruptAccepted s = false) :
    writtenBeforeFault s = [] := by rw [writtenBeforeFault, h]; rfl

theorem lt_of_mem_writtenBeforeFault (s : State) {a : Nat} (h : a ∈ writtenBeforeFault s) :
    a < s.cfg.memSize := by
  unfold writtenBeforeFault at h
  split at h
  · exact lt_of_mem_frameBytes s _ h
  · exact absurd h List.not_mem_nil

section
variable (f : Fault) (s : State)

theorem read_freeBytes_other (as : List Nat) (m : Memory) {x : Nat} (h : x ∉ as) :
    (freeBytes f s as m).read x = m.read x := by
  induction as generalizing m with
  | nil => rfl
  | cons a rest ih =>
    rw [List.mem_cons, not_or] at h
    rw [freeBytes, ih _ h.2, Memory.read_write_other m _ h.1]

theorem wf_freeBytes (as : List Nat) (m : Memory) (hm : m.wf = true) : (freeBytes f s as m).wf = true := by
  induction as generalizing m with
  | nil => exact hm
  | cons a rest ih => exact ih _ (Memory.wf_write m a _ hm)

theorem within_freeBytes (n : Nat) (as : List Nat) (m : Memory) (hm : m.within n = true)
    (h : ∀ a ∈ as, a < n) : (freeBytes f s as m).within n = true := by
  induction as generalizing m with
  | nil => exact hm
  | cons a rest ih =>
    exact ih _ (Memory.within_write n m a _ hm (h a List.mem_cons_self))
      fun b hb => h b (List.mem_cons_of_mem a hb)

@[simp] theorem afterFault_fault : (afterFault f s).fault = some f := rfl
@[simp] theorem afterFault_cfg : (afterFault f s).cfg = s.cfg := rfl
@[simp] theorem afterFault_mem : (afterFault f s).mem = memoryAfterFault f s := rfl

/-- Only bytes the faulting step had written are unspecified after it (U1). -/
theorem read_memoryAfterFault {x : Nat} (h : x ∉ writtenBeforeFault s) :
    (memoryAfterFault f s).read x = s.mem.read x := read_freeBytes_other f s _ _ h

/-- An instruction step that faults leaves memory as it was. -/
theorem memoryAfterFault_instruction (h : interruptAccepted s = false) : memoryAfterFault f s = s.mem := by
  rw [memoryAfterFault, writtenBeforeFault_instruction s h]; rfl

/-- Memory stays canonical over a fault. -/
theorem wf_memoryAfterFault (h : s.mem.wf = true) : (memoryAfterFault f s).wf = true :=
  wf_freeBytes f s _ _ h

/-- Memory stays inside MEM_SIZE over a fault. -/
theorem within_memoryAfterFault (h : s.mem.within s.cfg.memSize = true) :
    (memoryAfterFault f s).within s.cfg.memSize = true :=
  within_freeBytes f s _ _ _ h fun _ ha => lt_of_mem_writtenBeforeFault s ha

end

/-! ### One call of the core -/

/-- All the ways a call ends. -/
theorem cpuStep_cases (s : State) :
    (∃ f, s.fault = some f ∧ cpuStep s = s) ∨
    (s.fault = none ∧ ∃ t, step s = .next t ∧ cpuStep s = t) ∨
    (s.fault = none ∧ ∃ f, step s = .fault f ∧ cpuStep s = afterFault f s) ∨
    (s.fault = none ∧ ∃ r, step s = .refused r ∧ cpuStep s = s) := by
  unfold cpuStep
  cases hf : s.fault with
  | some f => exact .inl ⟨f, rfl, rfl⟩
  | none =>
    cases hs : step s with
    | next t => exact .inr (.inl ⟨rfl, t, rfl, rfl⟩)
    | fault f => exact .inr (.inr (.inl ⟨rfl, f, rfl, rfl⟩))
    | refused r => exact .inr (.inr (.inr ⟨rfl, r, rfl, rfl⟩))

/-! ### Several cores -/

/-- The step of core k of several, whatever it holds. -/
theorem System.stepCore_of {y : System} {k : Nat} {c : State} (h : y.cores[k]? = some c) :
    y.stepCore k =
      ⟨(cpuStep (c.setMem y.shared)).mem, y.cores.set k (cpuStep (c.setMem y.shared))⟩ := by
  rw [System.stepCore, h]

/-- There is no such core, and nothing happens. -/
theorem System.stepCore_none {y : System} {k : Nat} (h : y.cores[k]? = none) : y.stepCore k = y := by
  rw [System.stepCore, h]

/-! ### The peripheral array -/

section
variable (c : Cpu) (p : Port)

@[simp] theorem forward_core (x : PortTransfer) : (c.forward x).core = c.core := rfl
@[simp] theorem forward_forwarded (x : PortTransfer) :
    (c.forward x).array.forwarded = x :: c.array.forwarded := rfl
@[simp] theorem forward_peripherals (x : PortTransfer) :
    (c.forward x).array.peripherals = c.array.peripherals := rfl
@[simp] theorem cpu_step_core : c.step.core = cpuStep c.core := rfl
@[simp] theorem cpu_step_array : c.step.array = c.array := rfl

end

end Sys2Proof.Machine
end

