-- ==== Sys2Proof/Laws/PerInstr.lean ====
section
/-! SUPPORT. Facts about every instruction as syntax, one lemma per constructor of `Instr`. -/

namespace Sys2Proof.Laws.OpcodeByte

/-- The first byte of the encoding is the row's match in the bits of the row's mask (spec/opcode_table.json). -/
def Matches (i : Instr) (mask value : Byte) : Prop := ∃ b rest, encode i = b :: rest ∧ b &&& mask = value

/-- The row of the opcode table an instruction belongs to. -/
def Statement : Instr → Prop
  | i@(.movRm8R8 _ _) => Matches i 0xFF 0x88
  | i@(.movRm16R16 _ _) => Matches i 0xFF 0x89
  | i@(.movR8Rm8 _ _) => Matches i 0xFF 0x8A
  | i@(.movR16Rm16 _ _) => Matches i 0xFF 0x8B
  | i@(.movAlMem _) => Matches i 0xFF 0xA0
  | i@(.movAxMem _) => Matches i 0xFF 0xA1
  | i@(.movMemAl _) => Matches i 0xFF 0xA2
  | i@(.movMemAx _) => Matches i 0xFF 0xA3
  | i@(.movR8Imm8 _ _) => Matches i 0xF8 0xB0
  | i@(.movR16Imm16 _ _) => Matches i 0xF8 0xB8

theorem movRm8R8 (dst : RegMem Reg8) (src : Reg8) : Statement (.movRm8R8 dst src) := ⟨_, _, rfl, by decide⟩
theorem movRm16R16 (dst : RegMem Reg16) (src : Reg16) : Statement (.movRm16R16 dst src) :=
  ⟨_, _, rfl, by decide⟩
theorem movR8Rm8 (dst : Reg8) (src : RegMem Reg8) : Statement (.movR8Rm8 dst src) := ⟨_, _, rfl, by decide⟩
theorem movR16Rm16 (dst : Reg16) (src : RegMem Reg16) : Statement (.movR16Rm16 dst src) :=
  ⟨_, _, rfl, by decide⟩
theorem movAlMem (addr : Word) : Statement (.movAlMem addr) := ⟨_, _, rfl, by decide⟩
theorem movAxMem (addr : Word) : Statement (.movAxMem addr) := ⟨_, _, rfl, by decide⟩
theorem movMemAl (addr : Word) : Statement (.movMemAl addr) := ⟨_, _, rfl, by decide⟩
theorem movMemAx (addr : Word) : Statement (.movMemAx addr) := ⟨_, _, rfl, by decide⟩
theorem movR8Imm8 (dst : Reg8) (imm : Byte) : Statement (.movR8Imm8 dst imm) :=
  ⟨_, _, rfl, by cases dst <;> decide⟩
theorem movR16Imm16 (dst : Reg16) (imm : Word) : Statement (.movR16Imm16 dst imm) :=
  ⟨_, _, rfl, by cases dst <;> decide⟩

end Sys2Proof.Laws.OpcodeByte
end

