-- ==== Sys2Proof/Tests/Slice0.lean ====
section
/-! SUPPORT. The model's own tests. Expected values come from spec/95_test_vectors.md (the vector is named) or,
where a docstring says so, from the encodings of spec/30_encoding.md by hand. Then, for every statement with
hypotheses, a witness that meets them. -/

namespace Sys2Proof.Tests

open Sys2Proof Sys2Proof.Machine

/-! ### Helpers -/

/-- The state a step answers, if it answers one. -/
def answer (s : State) : Option State :=
  match step s with
  | .next t => some t
  | .fault _ => none
  | .refused _ => none

/-- The fault an outcome is, if it is one. -/
def stopOf {σ : Type} (x : Host.Outcome σ Fault Refusal) : Option Fault :=
  match x with
  | .next _ => none
  | .fault f => some f
  | .refused _ => none

/-- The value an outcome answers, if it answers one. -/
def resultOf {σ : Type} (x : Host.Outcome σ Fault Refusal) : Option σ :=
  match x with
  | .next v => some v
  | .fault _ => none
  | .refused _ => none

/-- The common start state of the vectors of section 3: code at 0100:0000. -/
def start : State := { State.reset with cs := 0x0100 }

/-- Bytes placed where the next burst reads them. -/
def code (bytes : List Byte) (s : State) : State := placeBytes (lin s.cs s.ip.toNat) bytes s

/-- Bytes placed as data. -/
def data (a : Nat) (bytes : List Byte) (s : State) : State := placeBytes a bytes s

/-- A field of the state a step answers. -/
def field {α : Type} (f : State → α) (s : State) : Option α := (answer s).map f

/-- A machine with a memory of n bytes, all 0. -/
def small (n : Nat) : State := State.launch { Config.vectorDefault with memSize := n } [] (Vector.replicate 6 0)

/-! ### WellFormed: ill-formed terms are refused (R96, R163: there is no plain [BP] form) -/

theorem test_wf_rm8_r8_plain_bp : (Instr.movRm8R8 (.mem (.base .bp)) .al).wf = false := by decide
theorem test_wf_rm16_r16_plain_bp : (Instr.movRm16R16 (.mem (.base .bp)) .ax).wf = false := by decide
theorem test_wf_r8_rm8_plain_bp : (Instr.movR8Rm8 .al (.mem (.base .bp))).wf = false := by decide
theorem test_wf_r16_rm16_plain_bp : (Instr.movR16Rm16 .ax (.mem (.base .bp))).wf = false := by decide
theorem test_wf_bp_with_displacement : (Instr.movR16Rm16 .ax (.mem (.disp8 .bp 0))).wf = true := by decide

/-! ### Decoding: words written out bit by bit from R92 to R94 -/

/-- E6: 100010 0 0, 01 000 111, 10000000. -/
theorem test_decode_88 : decodeBytes [0b10001000, 0b01000111, 0b10000000] =
    .ok (.movRm8R8 (.mem (.disp8 .bx 0x80)) .al, []) := by rfl

/-- S9: 100010 0 1, 11 000 001. -/
theorem test_decode_89 : decodeBytes [0b10001001, 0b11000001] = .ok (.movRm16R16 (.reg .cx) .ax, []) := by rfl

/-- E7: 100010 1 0, 00 011 110, then 0201 low byte first. -/
theorem test_decode_8A : decodeBytes [0b10001010, 0b00011110, 0x01, 0x02] =
    .ok (.movR8Rm8 .bl (.mem (.direct 0x0201)), []) := by rfl

/-- E5: 100010 1 1, 01 010 110, 00000010. -/
theorem test_decode_8B : decodeBytes [0b10001011, 0b01010110, 0b00000010] =
    .ok (.movR16Rm16 .dx (.mem (.disp8 .bp 2)), []) := by rfl

/-- 101000 0 0, 34 12 (section 3). -/
theorem test_decode_A0 : decodeBytes [0b10100000, 0x34, 0x12] = .ok (.movAlMem 0x1234, []) := by rfl

/-- 101000 0 1, 01 02 (section 3). -/
theorem test_decode_A1 : decodeBytes [0b10100001, 0x01, 0x02] = .ok (.movAxMem 0x0201, []) := by rfl

/-- 101000 1 0, 00 03 (section 3). -/
theorem test_decode_A2 : decodeBytes [0b10100010, 0x00, 0x03] = .ok (.movMemAl 0x0300, []) := by rfl

/-- 101000 1 1, 00 02 (section 3). -/
theorem test_decode_A3 : decodeBytes [0b10100011, 0x00, 0x02] = .ok (.movMemAx 0x0200, []) := by rfl

/-- E3: 1011 0 100, 12. -/
theorem test_decode_B4 : decodeBytes [0b10110100, 0x12] = .ok (.movR8Imm8 .ah 0x12, []) := by rfl

/-- E8: 1011 1 010, FF FF. -/
theorem test_decode_BA : decodeBytes [0b10111010, 0xFF, 0xFF] = .ok (.movR16Imm16 .dx 0xFFFF, []) := by rfl

/-- E2: bytes at the edges of the opcode map, and prefixes of an 8086, are no instructions. -/
theorem test_decode_rejects : ([0x87, 0x8C, 0x9F, 0xA4, 0xAF, 0xC0, 0x00, 0xFF, 0x90, 0x26, 0x2E, 0x36, 0x3E, 0xF0,
    0xF2, 0xF3].all fun b => decode b 0 0 0 = .error (.unrecognizedOpcode b)) = true := by decide

/-- E5 to E8: the same words from the encoder. -/
theorem test_encode : (encode (.movR16Rm16 .dx (.mem (.disp8 .bp 2))), encode (.movRm8R8 (.mem (.disp8 .bx 0x80)) .al),
    encode (.movR8Rm8 .bl (.mem (.direct 0x0201))), encode (.movR16Imm16 .dx 0xFFFF)) =
    ([0x8B, 0x56, 0x02], [0x88, 0x47, 0x80], [0x8A, 0x1E, 0x01, 0x02], [0xBA, 0xFF, 0xFF]) := by decide

/-- The opcode table's numbering: first byte lowest; operand bytes without bits are 0. -/
theorem test_table_word : decodeTableWord 24 0x1234B8 = some (.movR16Imm16 .ax 0x1234) ∧
    decodeTableWord 8 0xFFB4 = some (.movR8Imm8 .ah 0) ∧ decodeTableWord 8 0x90 = none := by decide

/-! ### The MOV instructions, one step each (section 3) -/

theorem test_88_bx_si : field (fun t => (t.ip, t.mem.read 0x120))
    (code [0x88, 0x00] { start with ax := 0x005A, bx := 0x0100, si := 0x0020 }) = some (2, 0x5A) := by decide
theorem test_88_ah_to_cl : field (fun t => (t.cx, t.ax))
    (code [0x88, 0xE1] { start with ax := 0xAB00, cx := 0x1234 }) = some (0x12AB, 0xAB00) := by decide
theorem test_89_odd_word : field (fun t => (t.mem.read 0x301, t.mem.read 0x302))
    (code [0x89, 0x07] { start with ax := 0xBEEF, bx := 0x0301 }) = some (0xEF, 0xBE) := by decide
theorem test_8A_wraps : field (fun t => t.ax)
    (code [0x8A, 0x00] (data 1 [0x55] { start with bx := 0xFFFF, si := 0x0002 })) = some 0x0055 := by decide
theorem test_8A_ah_ah : field (fun t => (t.ax, t.ip)) (code [0x8A, 0xE4] { start with ax := 0x1234 }) =
    some (0x1234, 2) := by decide
theorem test_8B_bp_si_uses_ss : field (fun t => t.ax)
    (code [0x8B, 0x02] (data 0x111 [0x11, 0x22] (data 0x121 [0x33, 0x44]
      { start with bp := 0x0100, si := 0x0001, ss := 0x0001, ds := 0x0002 }))) = some 0x2211 := by decide
theorem test_8B_disp16 : field (fun t => (t.dx, t.ip))
    (code [0x8B, 0x90, 0xFE, 0xFF] (data 0x30E [0xCD, 0xAB] { start with bx := 0x0300, si := 0x0010 })) =
      some (0xABCD, 4) := by decide
theorem test_A0_load : field (fun t => (t.ax, t.dtr)) (code [0xA0, 0x34, 0x12] (data 0x1234 [0x77] start)) =
    some (0x0077, 0x0077) := by decide
theorem test_A0_no_wrap : stopOf (step (code [0xA0, 0xFF, 0xFF] { start with ds := 0xFFFF })) =
    some (.invalidAddress 0x10FFEF 0x0100 0) := by decide
theorem test_A1_odd_word : field (fun t => (t.ax, t.ip)) (code [0xA1, 0x01, 0x02] (data 0x201 [0xEF, 0xBE] start)) =
    some (0xBEEF, 3) := by decide
/-- M5: DTR is the data read. -/
theorem test_A1_dtr : field (fun t => t.dtr) (code [0xA1, 0x00, 0x02] (data 0x200 [0xEF, 0xBE] start)) =
    some 0xBEEF := by decide
theorem test_A2_store : field (fun t => (t.mem.read 0x300, t.ip)) (code [0xA2, 0x00, 0x03] { start with ax := 0x99 }) =
    some (0x99, 3) := by decide
theorem test_A3_store : field (fun t => (t.mem.read 0x200, t.mem.read 0x201))
    (code [0xA3, 0x00, 0x02] { start with ax := 0xBEEF }) = some (0xEF, 0xBE) := by decide
theorem test_A3_last_byte :
    stopOf (step (code [0xA3, 0xFF, 0xFF] { start with ax := 0x1234, ds := 0xF000 })) =
      some (.invalidAddress 0x100000 0x0100 0) := by decide
theorem test_B4_ah : field (fun t => (t.ax, t.ip)) (code [0xB4, 0x12] { start with ax := 0x00FF }) =
    some (0x12FF, 2) := by decide
/-- The IP wrap of section 3. -/
theorem test_B0_ip_wraps : field (fun t => (t.ax, t.ip)) (code [0xB0, 0x01] { start with ip := 0xFFFE }) =
    some (0x0001, 0) := by decide
theorem test_BC_sp : field (fun t => (t.sp, t.ip)) (code [0xBC, 0xFE, 0xFF] start) = some (0xFFFE, 3) := by decide
/-- S8, with the clock cost. -/
theorem test_B8_clocks : (resultOf (clockedStep (code [0xB8, 0x34, 0x12] State.reset))).map
    (fun p => (p.1, p.2.ax)) = some (4, 0x1234) := by decide
/-- S9: no flag moves. -/
theorem test_89_keeps_flags : field (fun t => (t.cx, t.flags))
    (code [0x89, 0xC1] { start with ax := 0x1234, flags := 0x0ED5 }) = some (0x1234, 0x0ED5) := by decide

/-! ### Clock costs (section 3) -/

/-- 88 00: 16, 88 26 FF FF: 15, 88 47 80: 18, 8B 90 FE FF: 19, A1 at an odd address: 14. -/
theorem test_clocks : (instrClocks start (.movRm8R8 (.mem (.base .bxSi)) .al),
    instrClocks start (.movRm8R8 (.mem (.direct 0xFFFF)) .ah),
    instrClocks start (.movRm8R8 (.mem (.disp8 .bx 0x80)) .al),
    instrClocks { start with bx := 0x0300, si := 0x0010 } (.movR16Rm16 .dx (.mem (.disp16 .bxSi 0xFFFE))),
    instrClocks start (.movAxMem 0x0201)) = (16, 15, 18, 19, 14) := by decide
/-- 8B 02 at an odd address: 20. -/
theorem test_clocks_bp_si_odd : instrClocks { start with bp := 0x0100, si := 0x0001, ss := 0x0001 }
    (.movR16Rm16 .ax (.mem (.base .bpSi))) = 20 := by decide

/-! ### The ALU (section 4): result, then CF PF AF ZF SF OF -/

/-- What an operation leaves, from a status word. -/
def alu6 {n : Nat} (op : AluOp) (a b : BitVec n) (flags : DWord) : Nat × List Bool :=
  let p := aluExec op a b { start with flags := flags }
  (p.1.toNat, [Flag.cf, .pf, .af, .zf, .sf, .of].map fun f => hasFlag f p.2.flags)

theorem test_add_overflow : alu6 .add 0x7F#8 0x01#8 0 = (0x80, [false, false, true, false, true, true]) := by decide
theorem test_add_both_carries : alu6 .add 0x8000#16 0x8000#16 0 = (0, [true, true, false, true, false, true]) := by
  decide
theorem test_adc_carry_in : alu6 .adc 0x12#8 0x34#8 1 = (0x47, [false, true, false, false, false, false]) := by decide
theorem test_sub_borrow : alu6 .sub 0x00#8 0x01#8 0 = (0xFF, [true, true, true, false, true, false]) := by decide
theorem test_sbb_twice : alu6 .sbb 0x0000#16 0xFFFF#16 1 = (0, [true, true, true, true, false, false]) := by decide
theorem test_cmp_overflow : alu6 .cmp 0x8000#16 0x0001#16 0 = (0x7FFF, [false, true, true, false, false, true]) := by
  decide
theorem test_inc_keeps_cf : alu6 .inc 0xFF#8 0#8 1 = (0, [true, true, true, true, false, false]) := by decide
theorem test_dec_overflow : alu6 .dec 0x8000#16 0#16 0 = (0x7FFF, [false, true, true, false, false, true]) := by decide
theorem test_neg_min : alu6 .neg 0x80#8 0#8 0 = (0x80, [true, false, false, false, true, true]) := by decide
theorem test_not_keeps_flags : alu6 .not 0x1234#16 0#16 0 = (0xEDCB, [false, false, false, false, false, false]) := by
  decide
theorem test_pass : alu6 .pass 0#16 0xBEEF#16 0 = (0xBEEF, [false, false, false, false, false, false]) := by decide
/-- AND and XOR, the flags but AF, which is a draw. -/
theorem test_and_flags : ([Flag.cf, .pf, .zf, .sf, .of].map fun f =>
    hasFlag f (aluExec .and 0xFFFF#16 0x8001#16 { start with flags := 0x801 }).2.flags) =
      [false, false, false, true, false] := by
  simp [aluExec, alu, aluLogic, logicFlags, resultFlags, applyUpdates, hasFlag_putFlag_other]
  decide
theorem test_xor_flags : ([Flag.cf, .pf, .zf, .sf, .of].map fun f =>
    hasFlag f (aluExec .xor 0xABCD#16 0xABCD#16 start).2.flags) = [false, true, true, false, false] := by
  simp [aluExec, alu, aluLogic, logicFlags, resultFlags, applyUpdates, hasFlag_putFlag_other]
  decide

/-! ### State, addresses and memory (sections 1 and 5) -/

/-- S1. -/
theorem test_halves : (setH 0xAB 0x1234#16, setL 0xCD 0xAB34#16, getH 0xABCD#16, getL 0xABCD#16) =
    (0xAB34, 0xABCD, 0xAB, 0xCD) := by decide
/-- S7. -/
theorem test_flags : (setFlag .iopl 0, clearFlag .iopl 0x3000, setFlag .id 0, resetFlags 0x003F7FD5) =
    (0x3000, 0, 0x200000, 0) := by decide
/-- A1 to A6. -/
theorem test_lin : (lin 0x1234 0x5678, lin 0xFFFF 0x0010, lin 0xFFFF 0xFFFF, lin 0xF000 0xFFFF) =
    (0x179B8, 0x100000, 0x10FFEF, 0xFFFFF) := by decide
/-- H2. -/
theorem test_pointer_wraps : (({ start with sp := 0 }.decPtr .sp 2).sp, ({ start with sp := 0xFFFE }.incPtr .sp 3).sp) =
    (0xFFFE, 0x0001) := by decide
/-- M1. -/
theorem test_write_word : (resultOf (memWrite16 0x200 0xBEEF start)).map
    (fun t => (t.mem.read 0x200, t.mem.read 0x201, t.dtr)) = some (0xEF, 0xBE, 0xBEEF) := by decide
/-- M2. -/
theorem test_write_past_the_end : stopOf (memWrite16 0xFFFFF 0x1234 start) =
    some (.invalidAddress 0x100000 0x0100 0) := by decide
/-- Writing what an unlisted address reads as removes the entry. -/
theorem test_memory_canonical : ((Memory.write [] 5 7).write 5 0, (Memory.write [(9, 1)] 5 7)) =
    ([], [(5, 7), (9, 1)]) := by decide
/-- Q2. -/
theorem test_burst : (resultOf (fillBurst (data 0x10 [0x11, 0x22, 0x33, 0x44, 0x55, 0x66] { start with cs := 0, ip := 0x10 }))).map
    (fun t => (t.queue.buf.toList, t.queue.head, t.queue.tail, t.queue.size)) =
      some ([0x11, 0x22, 0x33, 0x44, 0x55, 0x66], 0, 0, 6) := by decide
/-- Q1: five fills from empty give count 5 and tail 5, and the formula of R40 agrees. -/
theorem test_fills : ([1, 2, 3, 4, 5].foldl (fun (q : Option Queue) (b : Byte) => q.bind (Queue.fill b))
    (some State.reset.queue)).map (fun q => (q.count.val, q.tail.val, (q.tail.val - q.head.val + 6) % 6, q.ok)) =
      some (5, 5, 5, true) := by decide

/-! ### Stack and interrupts (section 6) -/

/-- K1. -/
theorem test_push : (resultOf (push 0xABCD { start with sp := 0x100 })).map
    (fun t => (t.sp, t.mem.read 0xFE, t.mem.read 0xFF)) = some (0xFE, 0xCD, 0xAB) := by decide
/-- K3. -/
theorem test_push_past_the_end : stopOf (push 0xABCD { start with ss := 0xF000, sp := 1 }) =
    some (.invalidAddress 0x100000 0x0100 0) := by decide
/-- K4. -/
theorem test_pop : (resultOf (pop (data 0x10000 [0x34, 0x12] { start with ss := 0x1000 }))).map
    (fun p => (p.1, p.2.sp)) = some (0x1234, 2) := by decide

/-- The state before I1, with the parameters given. -/
def beforeI1 (c : Config) : State :=
  data 0x20 [0x00, 0x00, 0x10, 0x00] { State.reset with ip := 3, flags := 0x301, pic := [some 8], cfg := c }

/-- I1. -/
theorem test_service : field (fun t => ([0xFFFA, 0xFFFB, 0xFFFC, 0xFFFD, 0xFFFE, 0xFFFF].map t.mem.read, t.sp, t.ip,
    t.cs, t.flags, t.dtr)) (beforeI1 Config.vectorDefault) =
      some ([0x03, 0x00, 0x00, 0x00, 0x01, 0x03], 0xFFFA, 0, 0x10, 0x301, 0x10) := by decide
/-- I2. -/
theorem test_service_order : field (fun t => ([0xFFFA, 0xFFFB, 0xFFFC, 0xFFFD].map t.mem.read))
    (beforeI1 { Config.vectorDefault with pushOrder := .flagsIpCs }) = some [0x00, 0x00, 0x03, 0x00] := by decide
/-- I3. -/
theorem test_service_clears : field (fun t => (t.mem.read 0xFFFE, t.mem.read 0xFFFF, t.flags))
    (beforeI1 { Config.vectorDefault with intClearsIfTf := true }) = some (0x01, 0x03, 0x0001) := by decide
/-- I4: the masked interrupt waits and the instruction runs. -/
theorem test_masked : field (fun t => (t.ax, t.pic)) (code [0xB8, 0x34, 0x12]
    { start with pic := [some 8], cfg := { Config.vectorDefault with intGatedByIf := true } }) =
      some (0x1234, [some 8]) := by decide
/-- I7. -/
theorem test_service_faults : stopOf (step { beforeI1 { Config.vectorDefault with memSize := 0xF0003 } with
    ss := 0xF000, sp := 4 }) = some (.invalidAddress 0xF0003 0 3) := by decide

/-! ### Faults and boot (section 7) -/

/-- F1. -/
theorem test_unrecognised : stopOf (step (code [0x90] start)) = some (.unrecognizedOpcode 0x90 0x0100 0) := by decide
/-- F1: later steps do nothing. -/
theorem test_faulted_core_stays : (cpuStep (afterFault (.unrecognizedOpcode 0x90 0x0100 0) start)).fault =
    some (.unrecognizedOpcode 0x90 0x0100 0) := by rfl
/-- U1: a service whose second push faults has written the two bytes of its first, and no others. -/
theorem test_written_before_fault : writtenBeforeFault { beforeI1 { Config.vectorDefault with memSize := 0xF0003 } with
    ss := 0xF000, sp := 3 } = [0xF0001, 0xF0002] ∧ writtenBeforeFault (code [0x90] start) = [] := by decide
/-- F1: memory is as it was after an instruction that faults. -/
theorem test_memory_after_fault : (cpuStep (code [0x90] start)).mem = [(0x1000, 0x90)] := by rfl
/-- F2. -/
theorem test_burst_to_the_last_byte : field (fun t => (t.ax, t.ip)) (code [0xB0, 0x01] { small 0x10 with ip := 0x0A }) =
    some (0x0001, 0x000C) := by decide
/-- F3. -/
theorem test_burst_faults_first : stopOf (step (code [0x90] { small 0x10 with ip := 0x0B })) =
    some (.invalidAddress 0x10 0 0x0B) := by decide
/-- F5. -/
theorem test_image_too_large : stopOf (boot [] ⟨some ⟨some "0xFFFF0".toList, .image (List.replicate 0x20 1)⟩, none⟩
    State.reset) = some (.configurationError .bios .imageTooLarge) := by decide
/-- F6. -/
theorem test_base_numerals : (parseBase "0x1G".toList, parseBase "4096".toList, parseBase "0x1000".toList,
    parseBase "".toList, parseBase "0x".toList) = (none, some 0x1000, some 0x1000, none, none) := by decide
/-- R1 and R255: an image is loaded and the machine reset. -/
theorem test_boot : (resultOf (boot [] ⟨some ⟨some "4096".toList, .image [0xB8, 0x34]⟩, none⟩
    { start with flags := 0x301, sp := 5 })).map (fun t => (t.mem, t.flags, t.sp, t.cs)) =
      some ([(0x1000, 0xB8), (0x1001, 0x34)], 0, 0, 0) := by decide

/-- R223 and R255: a bootloader that does not fit stops the boot, after the BIOS is loaded. -/
theorem test_boot_stops : (powerUp [] ⟨some ⟨some "16".toList, .image [7]⟩, some ⟨none, .image [9]⟩⟩ start).fault =
    some (.configurationError .bootloader .baseMissing) ∧
    (powerUp [] ⟨some ⟨some "16".toList, .image [7]⟩, some ⟨none, .image [9]⟩⟩ start).mem = [(16, 7)] := by decide

/-- R71: the last byte of memory reads, and there is no byte past it. -/
theorem test_host_read : (hostRead 0xFFFFF (data 0xFFFFF [0x77] start), hostRead 0x100000 start) = (some 0x77, none) := by
  decide

/-- R84: port transfers reach the array in their order and leave the core alone. -/
theorem test_ports : (portWrite16 0xFFFF 0xBEEF (portWrite8 0x0060 0x12 ⟨start, ⟨[.pit], []⟩⟩)) =
    ⟨start, ⟨[.pit], [.write16 0xFFFF 0xBEEF, .write8 0x0060 0x12]⟩⟩ := by decide

/-- The host's placement: the very next step runs the word, from reset and from a core that faulted with an
interrupt pending. -/
theorem test_withFetchWord : field (fun t => (t.ax, t.ip)) (State.reset.withFetchWord 24 0x1234B8) =
    some (0x1234, 3) ∧
    field (fun t => (t.ax, t.pic)) (State.withFetchWord { start with
      fault := some (.unrecognizedOpcode 0 0 0), pic := [some 8] } 16 0x12B4) = some (0x1200, [some 8]) := by decide

/-! ### Witnesses: states and operands that meet the hypotheses of each statement -/

/-- Code for one step of each kind: `8B 56 02` at 0100:0000. -/
def running : State := code [0x8B, 0x56, 0x02] { start with flags := 0x301 }

/-- An interrupt of vector 8 is accepted at the coming boundary. -/
def interrupted : State := beforeI1 Config.vectorDefault

/-- DS reaches the end of memory: offset FFFF is the last byte, MEM_SIZE - 1. -/
def nearEnd : State := { start with ds := 0xF000, ax := 0x1234 }

/-- DS reaches past the end: offset 0010 is MEM_SIZE itself. -/
def pastEnd : State := { start with ds := 0xFFFF, ax := 0x1234 }

/-- SS reaches the end of memory, SP at 2 above the last word. -/
def stackAtEnd : State := { start with ss := 0xF000, sp := 0 }

theorem witness_DecodeOfEncodeIsIdentity : (Instr.movR16Rm16 .dx (.mem (.disp8 .bp 2))).WellFormed ∧
    (Instr.movRm8R8 (.mem (.base .bxSi)) .al).WellFormed ∧ (Instr.movMemAx 0x0200).WellFormed := by decide

theorem witness_EncodeOfDecodeIsIdentity :
    decodeValue 0x88 0x47 0x80 0 = some (.rm false false 1 0 7 0xFF80) ∧
    decodeBytes [0x8A, 0x1E, 0x01, 0x02, 0xFF] = .ok (.movR8Rm8 .bl (.mem (.direct 0x0201)), [0xFF]) := by
  exact ⟨by decide, by rfl⟩

theorem witness_DecoderAcceptsExactlyTheMap :
    ([0x88#8, 0x8B, 0xA0, 0xA3, 0xB0, 0xBF].all fun b => (0x88 ≤ b.toNat && b.toNat ≤ 0x8B) ||
      (0xA0 ≤ b.toNat && b.toNat ≤ 0xA3) || (0xB0 ≤ b.toNat && b.toNat ≤ 0xBF)) = true ∧
    ([0x00#8, 0x87, 0x8C, 0x9F, 0xA4, 0xAF, 0xC0, 0xFF].any fun b => (0x88 ≤ b.toNat && b.toNat ≤ 0x8B) ||
      (0xA0 ≤ b.toNat && b.toNat ≤ 0xA3) || (0xB0 ≤ b.toNat && b.toNat ≤ 0xBF)) = false ∧
    (0x0201#16).toNat = (0x01#8).toNat + 256 * (0x02#8).toNat ∧
    (0xFFFF#16).toNat = (0xFF#8).toNat + 256 * (0xFF#8).toNat := by decide

theorem witness_DisplacementAndInstructionLengths :
    decode 0xB0 0 0 0 = .ok (.movR8Imm8 .al 0, 2) ∧ isImmToReg 0xB0 = true ∧
    decode 0xBF 0 0x80 0 = .ok (.movR16Imm16 .di 0x8000, 3) ∧ isImmToReg 0xBF = true ∧
    decode 0xA3 0 2 0 = .ok (.movMemAx 0x200, 3) ∧ isMemAcc 0xA3 = true ∧
    decode 0x88 0x06 0 2 = .ok (.movRm8R8 (.mem (.direct 0x200)) .al, 4) ∧ isRegMemReg 0x88 = true ∧
    displen 0 6 = 2 ∧ displen 1 0 = 1 ∧ displen 3 6 = 0 := by
  exact ⟨by rfl, by decide, by rfl, by decide, by rfl, by decide, by rfl, by decide, by decide, by decide, by decide⟩

theorem witness_EffectiveAddressIsTheTable : (0#2 ≠ 3#2 ∧ displen 0#2 6#3 = 2) ∧ (0#2 ≠ 3#2 ∧ displen 0#2 7#3 = 0) ∧
    (1#2 ≠ 3#2 ∧ displen 1#2 0#3 = 1) ∧ (2#2 ≠ 3#2 ∧ displen 2#2 6#3 = 2) := by decide

theorem witness_OperandSegmentRule :
    { start with cfg := { Config.vectorDefault with dataSegMode := .defaultField } }.cfg.dataSegMode = .defaultField ∧
    start.cfg.dataSegMode = .seg8086 ∧ rmOperand Reg16.ofNum 0 6 0x0201 = .mem (.direct 0x0201) ∧
    rmOperand Reg16.ofNum 1 6 2 = .mem (.disp8 .bp 2) ∧ rmOperand Reg16.ofNum 0 2 0 = .mem (.base .bpSi) := by decide

theorem witness_MemReadRule : 0xFFFFF < start.cfg.memSize ∧ start.cfg.memSize ≤ 0x100000 ∧
    0xFFFFE + 1 < start.cfg.memSize ∧ (0xFFFFF < start.cfg.memSize ∧ start.cfg.memSize ≤ 0xFFFFF + 1) := by decide

theorem witness_MemWriteRule : (data 0xFFFFF [0x77] start).mem.wf = true ∧ 0xFFFFF < start.cfg.memSize ∧
    start.cfg.memSize ≤ 0x100000 ∧ 0xFFFFE + 1 < start.cfg.memSize ∧
    (0xFFFFF < start.cfg.memSize ∧ start.cfg.memSize ≤ 0xFFFFF + 1) := by decide

theorem witness_HalvesAreIndependent : 16 ≤ 8 * RegWidth.w2.bytes ∧ 16 ≤ 8 * RegWidth.w8.bytes := by decide

theorem witness_RegisterWriteIsMaskedAndAlone : Reg16.bx ≠ .ax ∧ Reg8.ah ≠ .al ∧ Reg16.bx ≠ Reg8.whole .ah ∧
    SegReg.ds ≠ .cs := by decide

theorem witness_PointerArithmeticWraps : Reg16.bp ≠ PtrReg.sp.reg := by decide

theorem witness_FlagOperationsTargetOneFlag : (Flag.mask .iopl).getLsbD 12 = true ∧
    (Flag.mask .iopl).getLsbD 11 = false ∧ (Flag.mask .iopl).getLsbD 14 = false ∧
    (Flag.mask .cf).getLsbD 0 = true ∧ (Flag.mask .cf).getLsbD 32 = false := by decide

theorem witness_ReservedFlagBitsAreKept : 0x003F7FD5#32 &&& ~~~namedFlags = 0#32 ∧
    (∃ t, step running = .next t) ∧ ∃ t, step interrupted = .next t := ⟨by decide, ⟨_, rfl⟩, _, rfl⟩

theorem witness_AddIntegerLaws :
    (AluOp.add = .add ∧ 0 = 0 ∨ AluOp.add = .adc ∧ 0 = (hasFlag .cf running.flags).toNat) ∧
    (AluOp.adc = .add ∧ 1 = 0 ∨ AluOp.adc = .adc ∧ 1 = (hasFlag .cf running.flags).toNat) := by decide

theorem witness_SubtractIntegerLaws :
    ((AluOp.cmp = .sub ∨ AluOp.cmp = .cmp) ∧ 0 = 0 ∨ AluOp.cmp = .sbb ∧ 0 = (hasFlag .cf running.flags).toNat) ∧
    ((AluOp.sbb = .sub ∨ AluOp.sbb = .cmp) ∧ 1 = 0 ∨ AluOp.sbb = .sbb ∧ 1 = (hasFlag .cf running.flags).toNat) := by
  decide

theorem witness_UnaryIntegerLaws : (8 = 8 ∨ 8 = 16) ∧ (16 = 8 ∨ 16 = 16) := by decide

theorem witness_LogicOperationLaws : 7 < 8 ∧ (AluOp.test = .and ∨ AluOp.test = .or ∨ AluOp.test = .xor ∨
    AluOp.test = .test) := by decide

theorem witness_ResultFlagLaws : (8 = 8 ∨ 8 = 16) ∧ AluOp.cmp ≠ .not ∧ AluOp.cmp ≠ .pass := by decide

theorem witness_AluWritesOnlyTheFlagsItLists : (∀ k ∈ [1, 12, 13], ∀ f ∈ ([.cf, .pf, .af, .zf, .sf, .of] : List Flag),
      f.mask.getLsbD k = false) ∧
    (Flag.intEnable ≠ .cf ∧ Flag.intEnable ≠ .pf ∧ Flag.intEnable ≠ .af ∧
    Flag.intEnable ≠ .zf ∧ Flag.intEnable ≠ .sf ∧ Flag.intEnable ≠ .of) ∧
    (AluOp.dec = .inc ∨ AluOp.dec = .dec) ∧ (AluOp.pass = .not ∨ AluOp.pass = .pass) := by decide

theorem witness_QueueFillAppends : (⟨Vector.replicate 6 7, 4, 3, 5⟩ : Queue).ok = true ∧
    (⟨Vector.replicate 6 7, 4, 3, 5⟩ : Queue).size < 6 ∧ 4 < (⟨Vector.replicate 6 7, 4, 3, 5⟩ : Queue).size ∧
    (burstQueue running).ok = true ∧ (burstQueue running).isFull = true ∧ (burstQueue running).size ≤ 6 := by decide

theorem witness_BurstFillsTheQueue : (small 6).BurstValid ∧ running.BurstValid := by decide

theorem witness_BurstPastTheEndFaults : (small 5).RunsInstruction ∧
    (small 5).cfg.memSize ≤ lin (small 5).cs (small 5).ip.toNat + 5 ∧
    { small 0x10 with ip := 0x0B }.cfg.memSize ≤ lin 0 (0x0B#16).toNat + 5 := by decide

theorem witness_StepRunsDecodedInstruction : running.RunsInstruction ∧ running.BurstValid ∧
    decodedAt running = .ok (.movR16Rm16 .dx (.mem (.disp8 .bp 2)), 3) := ⟨by decide, by decide, by rfl⟩

theorem witness_StepRunsEncodedInstruction : running.RunsInstruction ∧ running.BurstValid ∧
    (Instr.movR16Rm16 .dx (.mem (.disp8 .bp 2))).WellFormed ∧
    bytesAt running.mem running.pcAddress (encode (.movR16Rm16 .dx (.mem (.disp8 .bp 2)))) :=
  ⟨by decide, by decide, by decide, by decide, by decide, by decide, trivial⟩

theorem witness_UnrecognisedByteFaults : ∀ b ∈ [0x00#8, 0x87, 0x8C, 0x9F, 0xA4, 0xAF, 0xC0, 0xFF],
    (code [b] start).RunsInstruction ∧ (code [b] start).BurstValid ∧
    ((code [b] start).mem.read (code [b] start).pcAddress = b) ∧
    ¬((0x88 ≤ b.toNat ∧ b.toNat ≤ 0x8B) ∨ (0xA0 ≤ b.toNat ∧ b.toNat ≤ 0xA3) ∨
      (0xB0 ≤ b.toNat ∧ b.toNat ≤ 0xBF)) := by decide

theorem witness_InstructionStepAdvancesIp : running.RunsInstruction ∧ ∃ t, step running = .next t :=
  ⟨by decide, _, rfl⟩

theorem witness_OnlyServicesChangeCsAndFlags : (∃ t, step running = .next t) ∧ interruptAccepted running = false ∧
    ∃ t, step interrupted = .next t := ⟨⟨_, rfl⟩, by decide, _, rfl⟩

theorem witness_EveryStepKeepsTheInvariant : (running.Inv ∧ ∃ t, step running = .next t) ∧
    interrupted.Inv ∧ ∃ t, step interrupted = .next t := ⟨⟨by decide, _, rfl⟩, by decide, _, rfl⟩

theorem witness_ResetMeetsTheInvariant : Config.vectorDefault.ok ∧ Memory.wf [(0, 0xB8), (0xFFFFF, 1)] = true ∧
    Memory.within Config.vectorDefault.memSize [(0, 0xB8), (0xFFFFF, 1)] = true := by decide

theorem witness_StepFaultsArePrecise : ((code [0x90] start).fault = none ∧
      step (code [0x90] start) = .fault (.unrecognizedOpcode 0x90 0x0100 0)) ∧
    (small 5).fault = none ∧ step (small 5) = .fault (.invalidAddress 5 0 0) := ⟨⟨rfl, rfl⟩, rfl, rfl⟩

/-- A service whose second push reaches past the end of memory, after its first has stored. -/
def serviceFaults : State := { beforeI1 { Config.vectorDefault with memSize := 0xF0003 } with ss := 0xF000, sp := 3 }

theorem witness_AFaultEndsTheRun : ((code [0x90] start).fault = none ∧
      step (code [0x90] start) = .fault (.unrecognizedOpcode 0x90 0x0100 0) ∧
      interruptAccepted (code [0x90] start) = false) ∧
    (serviceFaults.fault = none ∧ step serviceFaults = .fault (.invalidAddress 0xFFFFF 0 3) ∧
      0xF0001 ∈ writtenBeforeFault serviceFaults ∧ 0xF0000 ∉ writtenBeforeFault serviceFaults ∧
      0xFFFFF ∉ writtenBeforeFault serviceFaults) ∧
    (start.setFault (some (.invalidAddress 5 0 0))).fault = some (.invalidAddress 5 0 0) :=
  ⟨⟨rfl, rfl, by decide⟩, ⟨rfl, rfl, by decide, by decide, by decide⟩, rfl⟩

theorem witness_NoStepReadsTheOldQueue : running.RunsInstruction ∧ interrupted.fault = none ∧
    interruptAccepted interrupted = true := by decide

theorem witness_StepReportsTheClockCost : (running.RunsInstruction ∧ running.BurstValid ∧
      decodedAt running = .ok (.movR16Rm16 .dx (.mem (.disp8 .bp 2)), 3) ∧ ∃ t, step running = .next t) ∧
    (interrupted.fault = none ∧ interruptAccepted interrupted = true ∧ ∃ t, step interrupted = .next t) ∧
    rmOperand Reg16.ofNum 0 6 0x0201 = .mem (.direct 0x0201) ∧ rmOperand Reg16.ofNum 2 7 1 = .mem (.disp16 .bx 1) :=
  ⟨⟨by decide, by decide, by rfl, _, rfl⟩, ⟨by decide, by decide, _, rfl⟩, by decide, by decide⟩

/-- Its last clause. -/
theorem witness_StepReportsTheClockCost_B8 : (code [0xB8, 0x34, 0x12] start).cfg.ok ∧
    (code [0xB8, 0x34, 0x12] start).RunsInstruction ∧ (code [0xB8, 0x34, 0x12] start).BurstValid ∧
    bytesAt (code [0xB8, 0x34, 0x12] start).mem (code [0xB8, 0x34, 0x12] start).pcAddress [0xB8, 0x34, 0x12] :=
  ⟨by decide, by decide, by decide, by decide, by decide, by decide, trivial⟩

theorem witness_NoMovReadsOrWritesFlags : ∃ t, exec (.movMemAx 0x0200) running = .next t := ⟨_, rfl⟩

theorem witness_EveryMovWritesOneDestination : (∃ t, exec (.movMemAx 0xFFFE) nearEnd = .next t) ∧
    (∃ t, exec (.movR8Imm8 .ah 0x12) running = .next t) ∧ ∃ t, exec (.movR16Rm16 .dx (.mem (.disp8 .bp 2))) running =
      .next t := ⟨⟨_, rfl⟩, ⟨_, rfl⟩, _, rfl⟩

theorem witness_MovRm8R8Rule : nearEnd.mem.wf = true ∧ accessible nearEnd (operandAddress nearEnd (.direct 0xFFFF)) 1 ∧
    pastEnd.cfg.memSize ≤ operandAddress pastEnd (.direct 0x0010) := by decide

theorem witness_MovRm16R16Rule : nearEnd.mem.wf = true ∧ accessible nearEnd (operandAddress nearEnd (.direct 0xFFFE)) 2 ∧
    ¬accessible nearEnd (operandAddress nearEnd (.direct 0xFFFF)) 2 ∧
    ¬accessible pastEnd (operandAddress pastEnd (.direct 0x0010)) 2 := by decide

theorem witness_MovR8Rm8Rule : accessible nearEnd (operandAddress nearEnd (.direct 0xFFFF)) 1 ∧
    pastEnd.cfg.memSize ≤ operandAddress pastEnd (.direct 0x0010) := by decide

theorem witness_MovR16Rm16Rule : accessible nearEnd (operandAddress nearEnd (.direct 0xFFFE)) 2 ∧
    ¬accessible nearEnd (operandAddress nearEnd (.direct 0xFFFF)) 2 ∧
    ¬accessible pastEnd (operandAddress pastEnd (.direct 0x0010)) 2 := by decide

theorem witness_AccumulatorLoadsRule : accessible nearEnd (operandAddress nearEnd (.direct 0xFFFF)) 1 ∧
    pastEnd.cfg.memSize ≤ operandAddress pastEnd (.direct 0x0010) ∧
    accessible nearEnd (operandAddress nearEnd (.direct 0xFFFE)) 2 ∧
    ¬accessible nearEnd (operandAddress nearEnd (.direct 0xFFFF)) 2 := by decide

theorem witness_AccumulatorStoresRule : nearEnd.mem.wf = true ∧ pastEnd.mem.wf = true ∧
    accessible nearEnd (operandAddress nearEnd (.direct 0xFFFF)) 1 ∧
    pastEnd.cfg.memSize ≤ operandAddress pastEnd (.direct 0x0010) ∧
    accessible nearEnd (operandAddress nearEnd (.direct 0xFFFE)) 2 ∧
    ¬accessible nearEnd (operandAddress nearEnd (.direct 0xFFFF)) 2 := by decide

theorem witness_PushRule : stackAtEnd.mem.wf = true ∧ accessible stackAtEnd (lin stackAtEnd.ss (stackAtEnd.sp - 2).toNat) 2 ∧
    ¬accessible { stackAtEnd with sp := 1 } (lin 0xF000 (1#16 - 2).toNat) 2 := by decide

theorem witness_PopRule : accessible { stackAtEnd with sp := 0xFFFE } (lin 0xF000 (0xFFFE#16).toNat) 2 ∧
    ¬accessible { stackAtEnd with sp := 0xFFFF } (lin 0xF000 (0xFFFF#16).toNat) 2 := by decide

theorem witness_PopAfterPushReturnsTheWord : stackAtEnd.mem.wf = true ∧ ∃ t, push 0xABCD stackAtEnd = .next t :=
  ⟨by decide, _, rfl⟩

/-- An interrupt that IF masks. -/
def masked : State := code [0xB8, 0x34, 0x12]
  { start with pic := [some 8], cfg := { Config.vectorDefault with intGatedByIf := true } }

theorem witness_InterruptAcceptance : masked.pic = some 8 :: [] ∧ masked.cfg.intGatedByIf = true ∧
    hasFlag .intEnable masked.flags = false ∧ ∃ t, step masked = .next t := ⟨rfl, by decide, by decide, _, rfl⟩

theorem witness_InterruptServiceRule : interrupted.fault = none ∧ interruptAccepted interrupted = true ∧
    interrupted.pic = some 8 :: [] ∧ interrupted.mem.wf = true ∧
    accessible interrupted (lin interrupted.ss (interrupted.sp - 2).toNat) 2 ∧
    accessible interrupted (lin interrupted.ss (interrupted.sp - 4).toNat) 2 ∧
    accessible interrupted (lin interrupted.ss (interrupted.sp - 6).toNat) 2 ∧
    accessible interrupted (4 * (8#8).toNat) 4 := by decide

theorem witness_InterruptServiceRule_parameters :
    interruptAccepted (beforeI1 { Config.vectorDefault with intClearsIfTf := true, intGatedByIf := true }) = true ∧
    ((Flag.mask .intEnable).getLsbD 12 = false ∧ (Flag.mask .tf).getLsbD 12 = false) ∧
    (∀ d : Word, d = 2 ∨ d = 4 ∨ d = 6 → 0x20 ≠ lin 0 (0#16 - d).toNat ∧ 0x20 ≠ lin 0 (0#16 - d).toNat + 1) :=
  ⟨by decide, by decide, by rintro d (rfl | rfl | rfl) <;> decide⟩

theorem witness_ServiceComesBeforeTheInstruction : interrupted.fault = none ∧ interruptAccepted interrupted = true ∧
    interrupted.pic = some 8 :: [] ∧
    interruptAccepted { interrupted with ss := 0xF000, sp := 1 } = true ∧
    ¬accessible interrupted (lin 0xF000 (1#16 - 2).toNat) 2 ∧
    (accessible interrupted (lin 0xF000 (3#16 - 2).toNat) 2 ∧
      ¬accessible interrupted (lin 0xF000 (3#16 - 4).toNat) 2) ∧
    (accessible interrupted (lin 0xF000 (5#16 - 2).toNat) 2 ∧ accessible interrupted (lin 0xF000 (5#16 - 4).toNat) 2 ∧
      ¬accessible interrupted (lin 0xF000 (5#16 - 6).toNat) 2) := by decide

/-- Its last clause: the frame fits and the vector's entry does not, in whole or in part. -/
theorem witness_ServiceComesBeforeTheInstruction_vector :
    interruptAccepted { small 14 with sp := 8, pic := [some 3] } = true ∧
    (accessible (small 14) (lin 0 (8#16 - 2).toNat) 2 ∧ accessible (small 14) (lin 0 (8#16 - 4).toNat) 2 ∧
      accessible (small 14) (lin 0 (8#16 - 6).toNat) 2) ∧
    ¬accessible (small 14) (4 * (3#8).toNat) 4 ∧ ¬accessible (small 14) (4 * (4#8).toNat) 4 := by decide

theorem witness_ResetAction : 6 ≤ (small 6).cfg.memSize := by decide

theorem witness_BootLoadRule : Memory.wf [(3, 1)] = true ∧ parseBase "0x1000".toList = some 0x1000 ∧
    0x1000 + [0xB8#8, 0x34].length ≤ 0x1002 ∧ parseBase "0x1G".toList = none ∧
    0x1001 < 0x1000 + [0xB8#8, 0x34].length := by decide

/-- Its numerals: one of each radix. -/
theorem witness_BootLoadRule_numerals : spells 10 decimalDigits ['4', '0', '9', '6'] 4096 ∧
    spells 16 hexDigits ['f', 'F', '0'] 0xFF0 :=
  ⟨⟨by decide, [4, 0, 9, 6], rfl, rfl⟩, by decide, [15, 15, 0], rfl, rfl⟩

theorem witness_BootOrder : Memory.wf [(3, 1)] = true ∧ loadable 0x100000 none 0 [] ∧
    loadable 0x100000 (some ⟨some ['0'], .image [0xB8]⟩) 0 [0xB8] ∧
    loadable 0x100000 (some ⟨some ['0', 'x', 'F', 'F', 'F', 'F', 'F'], .image [1]⟩) 0xFFFFF [1] :=
  ⟨by decide, rfl, ⟨rfl, ⟨_, rfl, by decide⟩, by decide⟩, rfl, ⟨_, rfl, by decide⟩, by decide⟩

/-- Its failing boots: a resource that is missing, and an image one byte too long. -/
theorem witness_BootOrder_failing : (¬∃ base image, loadable 0x100000 (some ⟨some ['0'], .missing⟩) base image) ∧
    (¬∃ base image, loadable 1 (some ⟨some ['1'], .image [1]⟩) base image) ∧
    boot [] ⟨some ⟨some ['0'], .missing⟩, none⟩ start = .fault (.configurationError .bios .resourceMissing) := by
  refine ⟨fun ⟨_, _, h, _⟩ => (nomatch h), fun ⟨base, image, h1, ⟨cs, h2, h3⟩, h⟩ => ?_, rfl⟩
  cases h1; cases h2; cases (show parseBase ['1'] = some 1 by decide).symm.trans h3
  exact absurd h (by decide)

theorem witness_CoresShareOnlyMemory : (⟨[], [running, start]⟩ : System).cores[1]? = some start ∧ 0 ≠ 1 ∧
    (start.fault = none ∧ step (start.setMem []) = .fault (.unrecognizedOpcode 0 0x0100 0) ∧
      interruptAccepted start = false) ∧
    (serviceFaults.fault = none ∧ step (serviceFaults.setMem []) = .fault (.invalidAddress 0xFFFFF 0 3) ∧
      0xF0001 ∈ writtenBeforeFault (serviceFaults.setMem []) ∧ 0xF0000 ∉ writtenBeforeFault (serviceFaults.setMem [])) ∧
    (start.setFault (some (.invalidAddress 5 0 0))).fault = some (.invalidAddress 5 0 0) ∧
    Memory.wf [(3, 1)] = true :=
  ⟨rfl, by decide, ⟨rfl, rfl, by decide⟩, ⟨rfl, rfl, by decide, by decide⟩, rfl, by decide⟩

end Sys2Proof.Tests
end

section
/-! The register model (R22, R24, R25): what a write of a half, of a register and of a pointer register stores,
and what it leaves alone. -/

namespace Sys2Proof.Machine

/-! ### Halves of a register of any width

The laws for 16 bits are `getH_setH` and its neighbours; a write of a half reads back once the register has the
bits it is kept in, and the other half is kept whatever the width. -/

theorem getH_setH_of_le {n : Nat} (v : Byte) (x : BitVec n) (hn : 16 ≤ n) : getH (setH v x) = v := by
  apply BitVec.eq_of_getLsbD_eq; intro i hi
  have h16 : 8 + i < 16 := by omega
  have hin : 8 + i < n := by omega
  simp only [getH, BitVec.getLsbD_extractLsb', getLsbD_setH]
  simp [hi, h16, hin]

theorem getL_setL_of_le {n : Nat} (v : Byte) (x : BitVec n) (hn : 8 ≤ n) : getL (setL v x) = v := by
  apply BitVec.eq_of_getLsbD_eq; intro i hi
  have hin : i < n := by omega
  simp only [getL, BitVec.getLsbD_extractLsb', getLsbD_setL]
  simp [hi, hin]

theorem getL_setH_anyWidth {n : Nat} (v : Byte) (x : BitVec n) : getL (setH v x) = getL x := by
  apply BitVec.eq_of_getLsbD_eq; intro i hi
  have h8 : ¬ 8 ≤ i := by omega
  simp [getL, getLsbD_setH, h8]

theorem getH_setL_anyWidth {n : Nat} (v : Byte) (x : BitVec n) : getH (setL v x) = getH x := by
  apply BitVec.eq_of_getLsbD_eq; intro i hi
  have h8 : ¬ 8 + i < 8 := by omega
  simp [getH, getLsbD_setL, h8]

theorem getLsbD_setH_above {n : Nat} (v : Byte) (x : BitVec n) {k : Nat} (hk : 16 ≤ k) :
    (setH v x).getLsbD k = x.getLsbD k := by
  rw [getLsbD_setH, if_neg (by omega)]

theorem getLsbD_setL_above {n : Nat} (v : Byte) (x : BitVec n) {k : Nat} (hk : 8 ≤ k) :
    (setL v x).getLsbD k = x.getLsbD k := by
  rw [getLsbD_setL, if_neg (by omega)]

/-- Settles O13: R24 bit by bit, from what `setH` and `setL` make of each bit. -/
theorem halvesAreIndependent : Obligations.HalvesAreIndependent := by
  unfold Obligations.HalvesAreIndependent
  intro n v x hn
  have hmask : (BitVec.ofNat 8 v).toNat = v &&& 0xFF :=
    (BitVec.toNat_ofNat v 8).trans (Nat.and_two_pow_sub_one_eq_mod v 8).symm
  refine ⟨?_, getL_setH_anyWidth _ x, ?_, getH_setL_anyWidth _ x, fun k hk => ⟨?_, ?_⟩⟩
  · rw [getH_setH_of_le _ x hn, hmask]
  · rw [getL_setL_of_le _ x (by omega), hmask]
  · exact getLsbD_setH_above _ x hk
  · exact getLsbD_setL_above _ x (by omega)

/-! ### The three groups of registers

Operand registers, segment registers and IP: a write of one group leaves the others alone. -/

@[simp] theorem setReg16_seg (s : State) (r : Reg16) (v : Word) (g : SegReg) :
    (s.setReg16 r v).seg g = s.seg g := by
  cases g <;> simp [State.seg]

@[simp] theorem setReg8_seg (s : State) (r : Reg8) (v : Byte) (g : SegReg) : (s.setReg8 r v).seg g = s.seg g :=
  setReg16_seg s _ _ g

@[simp] theorem setIp_seg (s : State) (v : Word) (g : SegReg) : (s.setIp v).seg g = s.seg g := by
  cases g <;> rfl

theorem seg_setSeg (s : State) (d g : SegReg) (v : Word) :
    (s.setSeg d v).seg g = if g = d then v else s.seg g := by
  cases d <;> cases g <;> rfl

@[simp] theorem seg_setSeg_same (s : State) (g : SegReg) (v : Word) : (s.setSeg g v).seg g = v :=
  (seg_setSeg s g g v).trans (if_pos rfl)

theorem seg_setSeg_other (s : State) (d g : SegReg) (v : Word) (h : g ≠ d) : (s.setSeg d v).seg g = s.seg g :=
  (seg_setSeg s d g v).trans (if_neg h)

@[simp] theorem setSeg_reg16 (s : State) (g : SegReg) (v : Word) (r : Reg16) :
    (s.setSeg g v).reg16 r = s.reg16 r := by
  cases g <;> cases r <;> rfl

@[simp] theorem setSeg_ip (s : State) (g : SegReg) (v : Word) : (s.setSeg g v).ip = s.ip := by
  cases g <;> rfl

/-- Settles O14: the value is masked by the width of the word stored, and each group of registers has its
same-register law and its frame. -/
theorem registerWriteIsMaskedAndAlone : Obligations.RegisterWriteIsMaskedAndAlone := by
  unfold Obligations.RegisterWriteIsMaskedAndAlone
  refine ⟨fun w v => BitVec.toNat_ofNat v _, fun s r v => ?operand, fun s g v => ?segment, fun s v => ?ip,
    fun s r v => ?half⟩
  case operand =>
    refine ⟨?_, fun r' h => reg16_setReg16_other s r r' _ h, setReg16_seg s r _, State.setReg16_ip s r _⟩
    rw [reg16_setReg16_same, BitVec.toNat_ofNat]
  case segment =>
    refine ⟨?_, fun g' h => seg_setSeg_other s g g' _ h, setSeg_reg16 s g _, setSeg_ip s g _⟩
    rw [seg_setSeg_same, BitVec.toNat_ofNat]
  case ip =>
    refine ⟨?_, State.setIp_reg16 s _, setIp_seg s _⟩
    rw [State.setIp_ip, BitVec.toNat_ofNat]
  case half =>
    exact ⟨reg8_setReg8_same s r v, fun r' h => reg8_setReg8_other s r r' v h,
      fun r' h => reg16_setReg8_other s r r' v h, setReg8_seg s r v, State.setReg8_ip s r v⟩

/-! ### Pointer arithmetic -/

theorem toNat_reg16_incPtr (s : State) (r : PtrReg) (d : Nat) :
    ((s.incPtr r d).reg16 r.reg).toNat = ((s.reg16 r.reg).toNat + d) % 0x10000 := by
  rw [State.incPtr, reg16_setReg16_same, BitVec.toNat_add, BitVec.toNat_ofNat, Nat.add_mod_mod]

/-- The difference as an integer: a delta above the register's value borrows from 2^16. -/
theorem toNat_reg16_decPtr (s : State) (r : PtrReg) (d : Nat) :
    (((s.decPtr r d).reg16 r.reg).toNat : Int) = ((s.reg16 r.reg).toNat - (d : Int)) % 0x10000 := by
  rw [State.decPtr, reg16_setReg16_same, BitVec.toNat_sub, BitVec.toNat_ofNat]
  omega

/-- Settles O15: both operations are one write of the register, so the frame is that of `setReg16`. -/
theorem pointerArithmeticWraps : Obligations.PointerArithmeticWraps := by
  unfold Obligations.PointerArithmeticWraps
  intro s r d
  exact ⟨toNat_reg16_incPtr s r d, toNat_reg16_decPtr s r d,
    fun r' h => ⟨reg16_setReg16_other s r.reg r' _ h, reg16_setReg16_other s r.reg r' _ h⟩,
    fun g => ⟨setReg16_seg s r.reg _ g, setReg16_seg s r.reg _ g⟩,
    State.setReg16_ip s r.reg _, State.setReg16_ip s r.reg _⟩

end Sys2Proof.Machine
end

section
/-! Addresses, memory reads and the fetch burst (R60 to R63, R75, R76): the linear address and its bound, the
value a read answers, what a burst leaves in the queue, and the step a burst ends. -/

namespace Sys2Proof.Machine

/-! ### Linear addresses -/

theorem lin_eq_shiftLeft (seg : Word) (off : Nat) : lin seg off = (seg.toNat <<< 4) + off := by
  rw [lin, Nat.shiftLeft_eq]

/-- The bound 0x10FFEF is 0xFFFF * 16 + 0xFFFF. -/
theorem lin_le (seg off : Word) : lin seg off.toNat ≤ 0x10FFEF := by
  have hseg := seg.isLt
  have hoff := off.isLt
  rw [lin]
  omega

theorem isValidAddress_iff (s : State) (a : Nat) : isValidAddress s a = true ↔ a < s.cfg.memSize :=
  decide_eq_true_iff

/-- Settles O8: the bound is attained at FFFF:FFFF. -/
theorem linearAddressFormula : Obligations.LinearAddressFormula := by
  unfold Obligations.LinearAddressFormula
  exact ⟨fun seg off => ⟨lin_eq_shiftLeft seg off.toNat, lin_le seg off⟩, ⟨0xFFFF, 0xFFFF, rfl⟩,
    fun _ _ => rfl, isValidAddress_iff⟩

/-! ### Memory reads -/

theorem toNat_leWord (lo hi : Byte) : (leWord lo hi).toNat = lo.toNat + 256 * hi.toNat := by
  rw [leWord, BitVec.toNat_append, ← Nat.shiftLeft_add_eq_or_of_lt lo.isLt, Nat.shiftLeft_eq]
  omega

/-- Settles O11: the laws of the Memory Accessor, with a word's value from its two bytes. -/
theorem memReadRule : Obligations.MemReadRule := by
  unfold Obligations.MemReadRule
  intro a s
  refine ⟨memRead8_next a s, memRead8_fault a s, fun h => ⟨_, memRead16_next a s h, toNat_leWord _ _⟩,
    memRead16_fault_first a s, fun ⟨hfirst, hsecond⟩ => memRead16_fault_second a s ?_⟩
  omega

/-! ### The burst -/

theorem peek_burstQueue (s : State) {k : Nat} (hk : k < 6) :
    (burstQueue s).peek k = some (s.mem.read (s.pcAddress + k)) := by
  interval_cases k <;> rfl

/-- Settles O25: the burst answers `fetched s`, which is s with the queue and DTR replaced. -/
theorem burstFillsTheQueue : Obligations.BurstFillsTheQueue := by
  unfold Obligations.BurstFillsTheQueue
  intro s h
  exact ⟨fetched s, fillBurst_next s h, fun _ hk => peek_burstQueue s hk, rfl, rfl, rfl, rfl, rfl, rfl, rfl⟩

/-- The fault of the burst is the fault of the step: passing the boundary before it changes neither CS:IP nor
MEM_SIZE (R76). -/
theorem step_of_not_burstValid (s : State) (hr : s.RunsInstruction) (h : ¬s.BurstValid) :
    step s = .fault (invalidAddress s (max s.pcAddress s.cfg.memSize)) := by
  obtain ⟨hnone, hquiet⟩ := hr
  rcases step_cases s with ⟨f, hf, _⟩ | ⟨_, hi, _⟩ | ⟨_, p, _, hstep⟩
  · exact nomatch hnone.symm.trans hf
  · exact nomatch hquiet.symm.trans hi
  · rcases instructionStep_cases (s.setPic p) with ⟨_, e⟩ | ⟨hvalid, _⟩
    · rw [hstep, e]
      rfl
    · exact absurd hvalid h

/-- Settles O26: the first burst address outside memory is the larger of CS:IP and MEM_SIZE. -/
theorem burstPastTheEndFaults : Obligations.BurstPastTheEndFaults := by
  unfold Obligations.BurstPastTheEndFaults
  intro s hr h
  exact step_of_not_burstValid s hr (Nat.not_lt.2 h)

end Sys2Proof.Machine
end

section
/-! The encoding (R91 to R104, R112): what the bytes of the ModRM class stand for, the lengths the decoder reports,
and re-assembly of everything that decodes. -/

namespace Sys2Proof

open Machine

/-! ### The displacement -/

/-- The displacement table as a formula (R96). -/
theorem displen_eq_ite (mod : BitVec 2) (r : BitVec 3) :
    displen mod r = if (mod = 0 ∧ r = 6) ∨ mod = 2 then 2 else if mod = 1 then 1 else 0 := by
  revert mod r; decide

section
variable {mod : BitVec 2} {r : BitVec 3}

theorem dispValue_of_displen_two (b3 b4 : Byte) (h : displen mod r = 2) : dispValue mod r b3 b4 = leWord b3 b4 := by
  simp only [dispValue, h]

theorem dispValue_of_displen_one (b3 b4 : Byte) (h : displen mod r = 1) : dispValue mod r b3 b4 = sext16 b3 := by
  simp only [dispValue, h]

theorem dispValue_of_displen_zero (b3 b4 : Byte) (h : displen mod r = 0) : dispValue mod r b3 b4 = 0 := by
  simp only [dispValue, h]

end

/-- The displacement has one of the three lengths of R96. -/
theorem displen_cases (mod : BitVec 2) (r : BitVec 3) :
    displen mod r = 0 ∨ displen mod r = 1 ∨ displen mod r = 2 := by
  have := displen_le mod r
  omega

/-- The displacement bytes of a displacement value are the bytes it was taken from (R97, R112). -/
theorem dispBytes_dispValue (mod : BitVec 2) (r : BitVec 3) (b3 b4 : Byte) :
    dispBytes (displen mod r) (dispValue mod r b3 b4) = [b3, b4].take (displen mod r) := by
  rcases displen_cases mod r with h | h | h
  · simp [dispBytes, h]
  · simp [dispBytes, dispValue_of_displen_one b3 b4 h, h]
  · simp [dispBytes, dispValue_of_displen_two b3 b4 h, h]

theorem dispBytes_displen (mod : BitVec 2) (r : BitVec 3) (disp : Word) :
    dispBytes (displen mod r) disp = if displen mod r = 1 then [lowByte disp]
      else if displen mod r = 2 then [lowByte disp, highByte disp] else [] := by
  rcases displen_cases mod r with h | h | h <;> rw [h] <;> rfl

/-! ### Phase 1 and the lengths -/

theorem phaseOne_of_isImmToReg {b : Byte} (h : isImmToReg b = true) :
    phaseOne b = some (.ir (b.getLsbD 3) (b.extractLsb' 0 3)) := if_pos h

theorem phaseOne_of_isMemAcc {b : Byte} (h : isMemAcc b = true) :
    phaseOne b = some (.ma (b.getLsbD 1) (b.getLsbD 0)) := by
  revert b; decide

theorem phaseOne_of_isRegMemReg {b : Byte} (h : isRegMemReg b = true) :
    phaseOne b = some (.rm (b.getLsbD 1) (b.getLsbD 0)) := by
  revert b; decide

section
variable {q0 q1 q2 q3 : Byte} {v : InstructionValue} {i : Instr} {len : Nat}

/-- What decodes is what the rest of decoding makes of phase 1's answer (R137). -/
theorem decodeValue_eq_some :
    decodeValue q0 q1 q2 q3 = some v ↔ ∃ p, phaseOne q0 = some p ∧ finishDecode p q1 q2 q3 = v :=
  Option.map_eq_some_iff

/-- The decoder answers the instruction and the length of an Instruction value (R138). -/
theorem decode_eq_ok (h : decode q0 q1 q2 q3 = .ok (i, len)) :
    ∃ v, decodeValue q0 q1 q2 q3 = some v ∧ v.toInstr = i ∧ v.length = len := by
  rw [decode] at h
  cases hv : decodeValue q0 q1 q2 q3 with
  | none => rw [hv] at h; cases h
  | some v => rw [hv] at h; cases h; exact ⟨v, rfl, rfl, rfl⟩

/-- The length the decoder reports, from what phase 1 answers. -/
theorem length_of_decode {p : PhaseOne} (h : decode q0 q1 q2 q3 = .ok (i, len)) (hp : phaseOne q0 = some p) :
    len = (finishDecode p q1 q2 q3).length := by
  obtain ⟨v, hv, -, rfl⟩ := decode_eq_ok h
  obtain ⟨p', hp', rfl⟩ := decodeValue_eq_some.1 hv
  cases hp.symm.trans hp'
  rfl

end

theorem toNat_lowByte (v : Word) : (lowByte v).toNat = v.toNat % 256 := by
  rw [lowByte, BitVec.extractLsb'_toNat, Nat.shiftRight_zero]

/-- Settles O5: the table is finite, the value follows the displacement's length, and the length of an
instruction follows what phase 1 answers for its class. -/
theorem displacementAndInstructionLengths : Obligations.DisplacementAndInstructionLengths := by
  unfold Obligations.DisplacementAndInstructionLengths
  refine ⟨displen_eq_ite, fun mod r b3 b4 => ⟨fun h => ?two, fun h => ?one, dispValue_of_displen_zero b3 b4⟩,
    fun q0 q1 q2 q3 i len h => ⟨fun hc => ?ir, fun hc => ?ma, fun hc => ?rm⟩⟩
  case two => rw [dispValue_of_displen_two b3 b4 h, toNat_leWord]
  case one => rw [dispValue_of_displen_one b3 b4 h, ← toNat_lowByte, lowByte_sext16]
  case ir => exact length_of_decode h (phaseOne_of_isImmToReg hc)
  case ma => exact length_of_decode h (phaseOne_of_isMemAcc hc)
  case rm => exact length_of_decode h (phaseOne_of_isRegMemReg hc)

/-! ### The ModRM operand -/

/-- The five addressing forms of (mod, rm) (R96): direct address, base alone, 8-bit displacement, 16-bit
displacement, register. -/
theorem modRm_cases (mod : BitVec 2) (r : BitVec 3) :
    (mod = 0 ∧ r = 6) ∨ (mod = 0 ∧ r ≠ 6) ∨ mod = 1 ∨ mod = 2 ∨ mod = 3 := by
  revert mod r; decide

section
variable {ρ : Type} (regOf : BitVec 3 → ρ) (numOf : ρ → BitVec 3)

/-- mod = 00 with rm ≠ 110 names a base alone. -/
theorem rmOperand_base {r : BitVec 3} (disp : Word) (h : r ≠ 6) :
    rmOperand regOf 0 r disp = .mem (.base (EaBase.ofNum r)) := if_neg h

theorem displen_base {r : BitVec 3} (h : r ≠ 6) : displen 0 r = 0 := if_neg h

/-- The operand of any ModRM byte is one the encodings can spell: rm = 110 with mod = 00 is the direct address,
never a plain [BP] (R96). -/
theorem wf_rmOperand (mod : BitVec 2) (r : BitVec 3) (disp : Word) : (rmOperand regOf mod r disp).wf = true := by
  rcases modRm_cases mod r with ⟨rfl, rfl⟩ | ⟨rfl, h⟩ | rfl | rfl | rfl
  · rfl
  · have hbp : EaBase.ofNum r ≠ .bp := by rwa [ne_eq, ← EaBase.num_eq_six, EaBase.num_ofNum]
    rw [rmOperand_base regOf disp h, RegMem.wf, MemOperand.wf]
    exact decide_eq_true fun e => hbp (MemOperand.base.inj e)
  · rfl
  · rfl
  · rfl

/-- The operand of a ModRM byte keeps its mod and rm fields and the displacement, so it spells the same value. -/
theorem rmValue_rmOperand (hnum : ∀ n, numOf (regOf n) = n) (d w : Bool) (mod : BitVec 2) (reg r : BitVec 3)
    (b3 b4 : Byte) :
    rmValue numOf d w (rmOperand regOf mod r (dispValue mod r b3 b4)) (regOf reg) =
      .rm d w mod reg r (dispValue mod r b3 b4) := by
  rw [rmValue, hnum]
  rcases modRm_cases mod r with ⟨rfl, rfl⟩ | ⟨rfl, h⟩ | rfl | rfl | rfl
  · rfl
  · rw [rmOperand_base regOf _ h, dispValue_of_displen_zero b3 b4 (displen_base h)]
    simp [RegMem.modField, RegMem.rmField, RegMem.dispField]
  · simp [rmOperand, dispValue, displen, RegMem.modField, RegMem.rmField, RegMem.dispField]
  · simp [rmOperand, RegMem.modField, RegMem.rmField, RegMem.dispField]
  · simp [rmOperand, dispValue, displen, RegMem.modField, RegMem.rmField, RegMem.dispField, hnum]

end

/-! ### Re-assembly -/

theorem wellFormed_toInstr (v : InstructionValue) : v.toInstr.WellFormed := by
  cases v with
  | ir w reg imm => cases w <;> rfl
  | ma d w disp => cases d <;> cases w <;> rfl
  | rm d w mod reg r disp => cases d <;> cases w <;> exact wf_rmOperand _ mod r disp

/-- The instruction selected by what decodes spells the same value again: no field is lost in the dispatch. -/
theorem toValue_toInstr_finishDecode (p : PhaseOne) (q1 q2 q3 : Byte) :
    (finishDecode p q1 q2 q3).toInstr.toValue = finishDecode p q1 q2 q3 := by
  cases p with
  | ir w reg => cases w <;> simp [finishDecode, InstructionValue.toInstr, Instr.toValue]
  | ma d w => cases d <;> cases w <;> rfl
  | rm d w =>
    cases d <;> cases w
    · exact rmValue_rmOperand _ _ Reg8.num_ofNum ..
    · exact rmValue_rmOperand _ _ Reg16.num_ofNum ..
    · exact rmValue_rmOperand _ _ Reg8.num_ofNum ..
    · exact rmValue_rmOperand _ _ Reg16.num_ofNum ..

/-- Re-assembly of what phase 1 and the operand bytes make gives the bytes back, as many as the instruction has. -/
theorem encode_finishDecode (p : PhaseOne) (q1 q2 q3 : Byte) :
    (finishDecode p q1 q2 q3).encode = [p.opcodeByte, q1, q2, q3].take (finishDecode p q1 q2 q3).length := by
  cases p with
  | ir w reg => cases w <;> simp [finishDecode, InstructionValue.encode, InstructionValue.length, PhaseOne.opcodeByte]
  | ma d w => simp [finishDecode, InstructionValue.encode, InstructionValue.length, PhaseOne.opcodeByte]
  | rm d w =>
    simp only [finishDecode, phaseTwo, InstructionValue.encode, InstructionValue.length, PhaseOne.opcodeByte,
      modRmByte_fields, dispBytes_dispValue, Nat.add_comm 2, List.take_succ_cons]

theorem InstructionValue.length_le (v : InstructionValue) : v.length ≤ 4 := by
  cases v with
  | ir w reg imm => cases w <;> simp [length]
  | ma d w disp => exact Nat.le_succ 3
  | rm d w mod reg r disp => exact Nat.add_le_add_left (displen_le mod r) 2

theorem encode_of_decodeValue {q0 q1 q2 q3 : Byte} {v : InstructionValue} (h : decodeValue q0 q1 q2 q3 = some v) :
    v.encode = [q0, q1, q2, q3].take v.length ∧ v.toInstr.toValue = v := by
  obtain ⟨p, hp, rfl⟩ := decodeValue_eq_some.1 h
  rw [← opcodeByte_of_phaseOne q0 p hp]
  exact ⟨encode_finishDecode p q1 q2 q3, toValue_toInstr_finishDecode p q1 q2 q3⟩

/-! ### Byte strings -/

/-- The bytes the decoder looks at, past the end read as 0, are the string's own as far as it goes. -/
theorem take_getD_window (q0 : Byte) (tl : List Byte) {n : Nat} (hn : n ≤ 4) (hlen : n ≤ (q0 :: tl).length) :
    [q0, tl.getD 0 0, tl.getD 1 0, tl.getD 2 0].take n = (q0 :: tl).take n := by
  apply List.ext_getElem (by simp at hlen ⊢; omega)
  intro k hk hk'
  have hwindow : k < 4 := by simp at hk; omega
  rw [List.getElem_take, List.getElem_take]
  interval_cases k
  · rfl
  · exact List.getD_eq_getElem _ _ _
  · exact List.getD_eq_getElem _ _ _
  · exact List.getD_eq_getElem _ _ _

/-- A byte string decodes to the instruction of its first bytes, all of which it has. -/
theorem decodeBytes_eq_ok {bs rest : List Byte} {i : Instr} (h : decodeBytes bs = .ok (i, rest)) :
    ∃ q0 tl v, bs = q0 :: tl ∧ decodeValue q0 (tl.getD 0 0) (tl.getD 1 0) (tl.getD 2 0) = some v ∧
      v.toInstr = i ∧ v.length ≤ bs.length ∧ rest = bs.drop v.length := by
  cases bs with
  | nil => cases h
  | cons q0 tl =>
    rw [decodeBytes] at h
    split at h
    next => cases h
    next i' len hd =>
      split at h
      next hlen =>
        cases h
        obtain ⟨v, hv, hi, rfl⟩ := decode_eq_ok hd
        exact ⟨q0, tl, v, rfl, hv, hi, hlen, rfl⟩
      next => cases h

theorem encode_append_of_decodeBytes {bs rest : List Byte} {i : Instr} (h : decodeBytes bs = .ok (i, rest)) :
    bs = encode i ++ rest ∧ i.WellFormed := by
  obtain ⟨q0, tl, v, rfl, hv, rfl, hlen, rfl⟩ := decodeBytes_eq_ok h
  obtain ⟨henc, hval⟩ := encode_of_decodeValue hv
  refine ⟨?_, wellFormed_toInstr v⟩
  rw [encode, hval, henc, take_getD_window q0 tl v.length_le hlen, List.take_append_drop]

/-- Settles O2: the formulas are the definition's, and re-assembly undoes each stage of decoding: the opcode byte,
the ModRM byte, the operand bytes, and the dispatch to an instruction. -/
theorem encodeOfDecodeIsIdentity : Obligations.EncodeOfDecodeIsIdentity := by
  unfold Obligations.EncodeOfDecodeIsIdentity
  refine ⟨fun _ _ _ => rfl, fun _ _ _ => rfl, fun d w mod reg r disp => ?_,
    fun _ _ _ _ _ => encode_of_decodeValue, fun _ _ _ => encode_append_of_decodeBytes⟩
  rw [← dispBytes_displen]
  rfl

end Sys2Proof
end

section
/-! The instruction step (R141, R145): how it completes, and where it leaves CS:IP. -/

namespace Sys2Proof.Machine

theorem toNat_advanceIp_ip (s : State) (n : Nat) : (s.advanceIp n).ip.toNat = (s.ip.toNat + n) % 0x10000 := by
  rw [advanceIp_ip, BitVec.toNat_add, BitVec.toNat_ofNat, Nat.add_mod_mod]

@[simp] theorem advanceIp_cs (s : State) (n : Nat) : (s.advanceIp n).cs = s.cs := rfl

/-- An instruction step that answers a next state executed what the bytes at CS:IP decode to and then advanced IP:
of the two ways a step completes, the interrupt service is not this one. -/
theorem step_next_instruction {s t : State} (hr : s.RunsInstruction) (h : step s = .next t) :
    ∃ p i len u, decodedAt s = .ok (i, len) ∧ exec i (fetched (s.setPic p)) = .next u ∧ t = u.advanceIp len := by
  obtain ⟨_, hquiet⟩ := hr
  rcases step_next_cases s t h with ⟨_, haccepted, _⟩ | ⟨_, _, p, i, len, u, _, hdecoded, hexec, ht⟩
  · exact nomatch hquiet.symm.trans haccepted
  · exact ⟨p, i, len, u, hdecoded, hexec, ht⟩

/-- Settles O30: neither the burst nor any MOV writes CS or IP, so the advance starts from the CS:IP of the step. -/
theorem instructionStepAdvancesIp : Obligations.InstructionStepAdvancesIp := by
  unfold Obligations.InstructionStepAdvancesIp
  intro s t hr h
  obtain ⟨p, i, len, u, hdecoded, hexec, rfl⟩ := step_next_instruction hr h
  obtain ⟨hapart, _⟩ := exec_apart i _ u hexec
  have hip : u.ip = s.ip := hapart.ip
  have hcs : u.cs = s.cs := hapart.cs
  refine ⟨i, len, hdecoded, ?_, ?_⟩
  · rw [toNat_advanceIp_ip, hip]
  · rw [advanceIp_cs, hcs]

end Sys2Proof.Machine
end

section
/-! The stack (R210 to R214): a word access that does not fit faults with the first address outside memory; a push
and a pop as one state each, the bytes they store or read, and what they leave alone. -/

namespace Sys2Proof.Machine

/-! ### A word access that does not fit -/

/-- The first invalid address is a itself or, where only a + 1 lies outside, MEM_SIZE (R65). -/
theorem memRead16_fault {a : Nat} {s : State} (h : ¬accessible s a 2) :
    memRead16 a s = .fault (invalidAddress s (max a s.cfg.memSize)) := by
  rcases memRead16_cases a s with ⟨hfits, _⟩ | ⟨hout, e⟩ | ⟨hsecond, e⟩
  · exact absurd hfits h
  · rw [e, Nat.max_eq_left hout]
  · rw [e, hsecond, Nat.max_eq_right (Nat.le_succ a)]

/-- As `memRead16_fault`: a store checks both bytes before it writes one (R64). -/
theorem memWrite16_fault {a : Nat} {s : State} (v : Word) (h : ¬accessible s a 2) :
    memWrite16 a v s = .fault (invalidAddress s (max a s.cfg.memSize)) := by
  rcases memWrite16_cases a v s with ⟨hfits, _⟩ | ⟨hout, e⟩ | ⟨hsecond, e⟩
  · exact absurd hfits h
  · rw [e, Nat.max_eq_left hout]
  · rw [e, hsecond, Nat.max_eq_right (Nat.le_succ a)]

/-! ### Push -/

/-- The fault is raised after SP is decremented, which changes neither CS:IP nor MEM_SIZE (R214). -/
theorem push_fault {s : State} (v : Word) (h : ¬accessible s (lin s.ss (s.sp - 2).toNat) 2) :
    push v s = .fault (invalidAddress s (max (lin s.ss (s.sp - 2).toNat) s.cfg.memSize)) :=
  memWrite16_fault (s := s.decPtr .sp 2) v h

section
variable (v : Word) (s : State)

/-- A push is one register write, one memory write and the transfer through DTR. -/
theorem pushed_eq_writes :
    pushed v s = ((s.setReg16 .sp (s.sp - 2)).setMem (pushed v s).mem).setDtr v := rfl

theorem pushed_reg16_other {r : Reg16} (h : r ≠ .sp) : (pushed v s).reg16 r = s.reg16 r := by
  rw [pushed_eq_writes, State.setDtr_reg16, State.setMem_reg16, reg16_setReg16_other s .sp r _ h]

theorem sameControl_pushed : sameControl s (pushed v s) :=
  ⟨rfl, rfl, rfl, rfl, rfl, rfl, rfl, rfl, rfl, rfl, rfl, rfl⟩

theorem sameMemoryOutside_pushed : sameMemoryOutside (lin s.ss (s.sp - 2).toNat) 2 s (pushed v s) := by
  intro x hx
  exact (Memory.read_write_other _ _ (by omega)).trans (Memory.read_write_other _ _ (by omega))

/-- The second byte is stored above the first and leaves it alone. -/
theorem pushed_read_low (hw : s.mem.wf = true) :
    (pushed v s).mem.read (lin s.ss (s.sp - 2).toNat) = lowByte v :=
  (Memory.read_write_other _ _ (Nat.ne_of_lt (Nat.lt_succ_self _))).trans
    ((Memory.read_write _ _ _ _ hw).trans (if_pos rfl))

theorem pushed_read_high (hw : s.mem.wf = true) :
    (pushed v s).mem.read (lin s.ss (s.sp - 2).toNat + 1) = highByte v :=
  (Memory.read_write _ _ _ _ (Memory.wf_write _ _ _ hw)).trans (if_pos rfl)

end

/-- Settles O50: a push that fits answers `pushed v s`, whose two bytes and frame are known. -/
theorem pushRule : Obligations.PushRule := by
  unfold Obligations.PushRule
  intro s v
  refine ⟨fun hw hfits => ?_, push_fault v⟩
  exact ⟨pushed v s, push_next v s hfits, toNat_reg16_decPtr s .sp 2, pushed_read_low v s hw,
    pushed_read_high v s hw, pushed_dtr v s, sameMemoryOutside_pushed v s, fun _ => pushed_reg16_other v s,
    sameControl_pushed v s⟩

/-! ### Pop -/

/-- The word at SS:SP, low byte at the lower address (R212, R215). -/
def stackWord (s : State) : Word :=
  leWord (s.mem.read (lin s.ss s.sp.toNat)) (s.mem.read (lin s.ss s.sp.toNat + 1))

/-- The state after a pop: DTR the word read, SP two higher. -/
def popped (s : State) : State := (s.setDtr (stackWord s)).incPtr .sp 2

theorem pop_next {s : State} (h : accessible s (lin s.ss s.sp.toNat) 2) :
    pop s = .next (stackWord s, popped s) := by
  rw [pop, memRead16_next _ s h]
  rfl

theorem pop_fault {s : State} (h : ¬accessible s (lin s.ss s.sp.toNat) 2) :
    pop s = .fault (invalidAddress s (max (lin s.ss s.sp.toNat) s.cfg.memSize)) := by
  rw [pop, memRead16_fault h, andThen_fault]

section
variable (s : State)

@[simp] theorem popped_sp : (popped s).sp = s.sp + 2 := rfl
@[simp] theorem popped_dtr : (popped s).dtr = stackWord s := rfl
@[simp] theorem popped_mem : (popped s).mem = s.mem := rfl

theorem popped_reg16_other {r : Reg16} (h : r ≠ .sp) : (popped s).reg16 r = s.reg16 r :=
  (reg16_setReg16_other _ .sp r _ h).trans (State.setDtr_reg16 ..)

theorem sameControl_popped : sameControl s (popped s) :=
  ⟨rfl, rfl, rfl, rfl, rfl, rfl, rfl, rfl, rfl, rfl, rfl, rfl⟩

end

/-- Settles O51: a pop that fits answers the word at SS:SP and `popped s`, which has the memory of s. -/
theorem popRule : Obligations.PopRule := by
  unfold Obligations.PopRule
  intro s
  refine ⟨fun hfits => ?_, pop_fault⟩
  exact ⟨stackWord s, popped s, pop_next hfits, lowByte_leWord _ _, highByte_leWord _ _,
    toNat_reg16_incPtr (s.setDtr (stackWord s)) .sp 2, popped_dtr s, fun x => by rw [popped_mem],
    fun _ => popped_reg16_other s, sameControl_popped s⟩

/-! ### A pop after a push -/

theorem sameControl_trans {s t u : State} (hst : sameControl s t) (htu : sameControl t u) : sameControl s u := by
  unfold sameControl at hst htu ⊢
  simp only [htu, hst, and_self]

/-- The only way a push completes. -/
theorem push_eq_next {s t : State} {v : Word} (h : push v s = .next t) :
    accessible s (lin s.ss (s.sp - 2).toNat) 2 ∧ t = pushed v s := by
  rcases push_cases v s with ⟨hfits, e⟩ | ⟨_, _, e⟩
  · exact ⟨hfits, Host.Outcome.next.inj (h.symm.trans e)⟩
  · exact nomatch h.symm.trans e

/-- A push leaves its word at SS:SP. -/
theorem stackWord_pushed (v : Word) (s : State) (hw : s.mem.wf = true) : stackWord (pushed v s) = v := by
  rw [stackWord, pushed_ss, pushed_sp, pushed_read_low v s hw, pushed_read_high v s hw, leWord_bytes]

theorem popped_pushed_sp (v : Word) (s : State) : (popped (pushed v s)).sp = s.sp := by
  rw [popped_sp, pushed_sp, BitVec.sub_add_cancel]

theorem sameRegisters_popped_pushed (v : Word) (s : State) : sameRegisters s (popped (pushed v s)) := by
  intro r
  by_cases hr : r = .sp
  · rw [hr]
    exact popped_pushed_sp v s
  · rw [popped_reg16_other _ hr, pushed_reg16_other v s hr]

/-- Settles O52: the pop reads the two bytes the push stored, at the SP the push left, so it fits where the push
did. -/
theorem popAfterPushReturnsTheWord : Obligations.PopAfterPushReturnsTheWord := by
  unfold Obligations.PopAfterPushReturnsTheWord
  intro s t v hw h
  obtain ⟨hfits, rfl⟩ := push_eq_next h
  refine ⟨popped (pushed v s), ?_, popped_pushed_sp v s, sameRegisters_popped_pushed v s,
    sameControl_trans (sameControl_pushed v s) (sameControl_popped _)⟩
  have hpop : pop (pushed v s) = .next (stackWord (pushed v s), popped (pushed v s)) := pop_next hfits
  rw [hpop, stackWord_pushed v s hw]

end Sys2Proof.Machine
end

section
/-! The unrecognised opcode (R105, R106, R139, R222): the ranges of the three classes, what the decoder answers
outside them, and the fault of an instruction step whose bytes do not decode. -/

namespace Sys2Proof

/-! ### The opcode map -/

section
variable {b : Byte}

theorem isImmToReg_iff : isImmToReg b = true ↔ 0xB0 ≤ b.toNat ∧ b.toNat ≤ 0xBF := by
  revert b; decide

theorem isMemAcc_iff : isMemAcc b = true ↔ 0xA0 ≤ b.toNat ∧ b.toNat ≤ 0xA3 := by
  revert b; decide

theorem isRegMemReg_iff : isRegMemReg b = true ↔ 0x88 ≤ b.toNat ∧ b.toNat ≤ 0x8B := by
  revert b; decide

/-- Phase 1 rejects a byte that no class recognises (R139). -/
theorem phaseOne_eq_none (hir : ¬isImmToReg b = true) (hma : ¬isMemAcc b = true) (hrm : ¬isRegMemReg b = true) :
    phaseOne b = none := by
  rw [phaseOne, if_neg hir, if_neg hma, if_neg hrm]

/-- The opcode map is the union of the three classes' ranges (R105, R106). -/
theorem phaseOne_eq_none_of_outside_map
    (h : ¬((0x88 ≤ b.toNat ∧ b.toNat ≤ 0x8B) ∨ (0xA0 ≤ b.toNat ∧ b.toNat ≤ 0xA3) ∨
      (0xB0 ≤ b.toNat ∧ b.toNat ≤ 0xBF))) : phaseOne b = none := by
  obtain ⟨hrm, hrest⟩ := not_or.1 h
  obtain ⟨hma, hir⟩ := not_or.1 hrest
  exact phaseOne_eq_none (mt isImmToReg_iff.1 hir) (mt isMemAcc_iff.1 hma) (mt isRegMemReg_iff.1 hrm)

end

/-- Phase 1 alone rejects: the operand bytes do not matter (R139). -/
theorem decode_of_phaseOne_none {q0 : Byte} (q1 q2 q3 : Byte) (h : phaseOne q0 = none) :
    decode q0 q1 q2 q3 = .error (.unrecognizedOpcode q0) := by
  rw [decode, decodeValue, h, Option.map_none]

namespace Machine

/-! ### The step -/

/-- An instruction step with a whole burst is `instructionStep` on s but for the PIC's answers, so bytes that do
not decode stop it with the first of them and the CS:IP of the step (R220, R222). -/
theorem step_of_decodedAt_error {s : State} {e : DecodeError} (hr : s.RunsInstruction) (hvalid : s.BurstValid)
    (h : decodedAt s = .error e) :
    step s = .fault (.unrecognizedOpcode (s.mem.read s.pcAddress) s.cs s.ip) := by
  obtain ⟨hnone, hquiet⟩ := hr
  rcases step_cases s with ⟨f, hf, _⟩ | ⟨_, hi, _⟩ | ⟨_, p, _, hstep⟩
  · exact nomatch hnone.symm.trans hf
  · exact nomatch hquiet.symm.trans hi
  · have hp : decodedAt (s.setPic p) = .error e := h
    rcases instructionStep_cases (s.setPic p) with ⟨hshort, _⟩ | ⟨_, hinstr⟩
    · exact absurd hvalid hshort
    · rw [hstep, hinstr, hp]
      rfl

/-- Settles O29: a byte outside the three classes' ranges fails phase 1, and the step answers the fault the decoder
names. -/
theorem unrecognisedByteFaults : Obligations.UnrecognisedByteFaults := by
  unfold Obligations.UnrecognisedByteFaults
  intro s hr hvalid hout
  exact step_of_decodedAt_error hr hvalid (decode_of_phaseOne_none _ _ _ (phaseOne_eq_none_of_outside_map hout))

end Machine
end Sys2Proof
end

section
/-! The encoding and the decoder (R95 to R106, R112, R131 to R144): decoding undoes encoding, the opcode map row by
row, and what the ModRM operand's address and segment are. -/

namespace Sys2Proof

open Machine

/-! ### Decoding what was encoded -/

/-- The values an instruction spells: what the encoding does not carry, the high byte of an 8-bit immediate and of a
short displacement, is as the decoder fills it in (R97, R103). -/
def InstructionValue.Spelled : InstructionValue → Prop
  | .ir w _ imm => w = false → imm = (lowByte imm).setWidth 16
  | .ma .. => True
  | .rm _ _ mod _ r disp => dispValue mod r (lowByte disp) (highByte disp) = disp

section
variable {ρ : Type} {regOf : BitVec 3 → ρ} {numOf : ρ → BitVec 3}

theorem spelled_rmValue (d w : Bool) {o : RegMem ρ} (ho : o.wf = true) (r : ρ) :
    (rmValue numOf d w o r).Spelled := by
  match o with
  | .reg _ => simp [rmValue, InstructionValue.Spelled, RegMem.modField, RegMem.dispField, dispValue, displen]
  | .mem (.direct a) =>
    simp [rmValue, InstructionValue.Spelled, RegMem.modField, RegMem.rmField, RegMem.dispField, dispValue, displen]
  | .mem (.base b) =>
    have hbp : b.num ≠ 6 := fun e => of_decide_eq_true ho (congrArg MemOperand.base ((EaBase.num_eq_six b).1 e))
    exact dispValue_of_displen_zero _ _ (displen_base hbp)
  | .mem (.disp8 b d) =>
    simp [rmValue, InstructionValue.Spelled, RegMem.modField, RegMem.dispField, dispValue, displen]
  | .mem (.disp16 b d) =>
    simp [rmValue, InstructionValue.Spelled, RegMem.modField, RegMem.dispField, dispValue, displen]

/-- The fields an operand is spelled with name it again (R96, R98, R99). -/
theorem rmOperand_fields (hreg : ∀ r, regOf (numOf r) = r) {o : RegMem ρ} (ho : o.wf = true) :
    rmOperand regOf o.modField (o.rmField numOf) o.dispField = o := by
  match o with
  | .reg r => simp [RegMem.modField, RegMem.rmField, rmOperand, hreg]
  | .mem (.direct a) => rfl
  | .mem (.base b) =>
    have hbp : b.num ≠ 6 := fun e => of_decide_eq_true ho (congrArg MemOperand.base ((EaBase.num_eq_six b).1 e))
    exact (rmOperand_base regOf _ hbp).trans (by rw [EaBase.ofNum_num])
  | .mem (.disp8 b d) => simp [RegMem.modField, RegMem.rmField, RegMem.dispField, rmOperand]
  | .mem (.disp16 b d) => simp [RegMem.modField, RegMem.rmField, RegMem.dispField, rmOperand]

end

theorem spelled_toValue {i : Instr} (h : i.WellFormed) : i.toValue.Spelled := by
  cases i with
  | movRm8R8 dst src => exact spelled_rmValue _ _ h _
  | movRm16R16 dst src => exact spelled_rmValue _ _ h _
  | movR8Rm8 dst src => exact spelled_rmValue _ _ h _
  | movR16Rm16 dst src => exact spelled_rmValue _ _ h _
  | movAlMem _ | movAxMem _ | movMemAl _ | movMemAx _ => trivial
  | movR8Imm8 dst imm => exact fun _ => by rw [lowByte_setWidth]
  | movR16Imm16 dst imm => exact nofun

/-- The dispatch of R144 finds the instruction a value was spelled from. -/
theorem toInstr_toValue {i : Instr} (h : i.WellFormed) : i.toValue.toInstr = i := by
  cases i with
  | movRm8R8 dst src =>
    simp only [Instr.toValue, rmValue, InstructionValue.toInstr, rmOperand_fields Reg8.ofNum_num h, Reg8.ofNum_num]
  | movRm16R16 dst src =>
    simp only [Instr.toValue, rmValue, InstructionValue.toInstr, rmOperand_fields Reg16.ofNum_num h, Reg16.ofNum_num]
  | movR8Rm8 dst src =>
    simp only [Instr.toValue, rmValue, InstructionValue.toInstr, rmOperand_fields Reg8.ofNum_num h, Reg8.ofNum_num]
  | movR16Rm16 dst src =>
    simp only [Instr.toValue, rmValue, InstructionValue.toInstr, rmOperand_fields Reg16.ofNum_num h, Reg16.ofNum_num]
  | movAlMem _ | movAxMem _ | movMemAl _ | movMemAx _ => rfl
  | movR8Imm8 dst imm => simp only [Instr.toValue, InstructionValue.toInstr, Reg8.ofNum_num, lowByte_setWidth]
  | movR16Imm16 dst imm => simp only [Instr.toValue, InstructionValue.toInstr, Reg16.ofNum_num]

/-- Where the bytes of a spelled value stand first, both phases read that value, whatever follows (R137). -/
theorem decodeValue_of_take_eq_encode {v : InstructionValue} (hv : v.Spelled) {q0 q1 q2 q3 : Byte}
    (h : [q0, q1, q2, q3].take v.length = v.encode) : decodeValue q0 q1 q2 q3 = some v := by
  rw [decodeValue_eq_some]
  cases v with
  | ir w reg imm =>
    refine ⟨.ir w reg, ?_⟩
    cases w with
    | true =>
      obtain ⟨rfl, rfl, rfl⟩ : q0 = irOpcode true reg ∧ q1 = lowByte imm ∧ q2 = highByte imm := by
        simpa [InstructionValue.length, InstructionValue.encode] using h
      simp [finishDecode]
    | false =>
      obtain ⟨rfl, rfl⟩ : q0 = irOpcode false reg ∧ q1 = lowByte imm := by
        simpa [InstructionValue.length, InstructionValue.encode] using h
      simp [finishDecode, ← hv rfl]
  | ma d w disp =>
    obtain ⟨rfl, rfl, rfl⟩ : q0 = maOpcode d w ∧ q1 = lowByte disp ∧ q2 = highByte disp := by
      simpa [InstructionValue.length, InstructionValue.encode] using h
    exact ⟨.ma d w, phaseOne_maOpcode d w, by simp [finishDecode]⟩
  | rm d w mod reg r disp =>
    obtain ⟨rfl, rfl, hdisp⟩ : q0 = rmOpcode d w ∧ q1 = modRmByte mod reg r ∧
        [q2, q3].take (displen mod r) = dispBytes (displen mod r) disp := by
      simpa [InstructionValue.length, InstructionValue.encode, Nat.add_comm 2] using h
    refine ⟨.rm d w, phaseOne_rmOpcode d w, ?_⟩
    have hvalue : dispValue mod r q2 q3 = disp := by
      refine Eq.trans ?_ hv
      rcases displen_cases mod r with hn | hn | hn <;> rw [hn] at hdisp
      · rw [dispValue_of_displen_zero _ _ hn, dispValue_of_displen_zero _ _ hn]
      · obtain rfl : q2 = lowByte disp := by simpa [dispBytes] using hdisp
        rw [dispValue_of_displen_one _ _ hn, dispValue_of_displen_one _ _ hn]
      · obtain ⟨rfl, rfl⟩ : q2 = lowByte disp ∧ q3 = highByte disp := by simpa [dispBytes] using hdisp
        rfl
    simp [finishDecode, phaseTwo, hvalue]

/-- Where the bytes of a well-formed instruction stand first, the decoder answers it with its length. -/
theorem decode_of_take_eq_encode {i : Instr} (h : i.WellFormed) {q0 q1 q2 q3 : Byte}
    (htake : [q0, q1, q2, q3].take i.length = encode i) : decode q0 q1 q2 q3 = .ok (i, i.length) := by
  have hvalue : decodeValue q0 q1 q2 q3 = some i.toValue := decodeValue_of_take_eq_encode (spelled_toValue h) htake
  rw [decode, hvalue]
  exact congrArg (fun j => Except.ok (j, i.length)) (toInstr_toValue h)

theorem encode_ne_nil (i : Instr) : encode i ≠ [] := by
  cases i <;> exact List.cons_ne_nil _ _

/-- Settles O1: the bytes of a well-formed instruction are the first that the decoder reads, and from them it reads
each field back. -/
theorem decodeOfEncodeIsIdentity : Obligations.DecodeOfEncodeIsIdentity := by
  unfold Obligations.DecodeOfEncodeIsIdentity
  intro i h rest
  obtain ⟨q0, tl, hbytes⟩ : ∃ q0 tl, encode i ++ rest = q0 :: tl :=
    List.exists_cons_of_ne_nil (List.append_ne_nil_of_left_ne_nil (encode_ne_nil i) rest)
  have hlen : i.length ≤ (q0 :: tl).length := by
    rw [← hbytes, List.length_append, length_encode]
    exact Nat.le_add_right _ _
  have hwindow : [q0, tl.getD 0 0, tl.getD 1 0, tl.getD 2 0].take i.length = encode i := by
    have hfour : i.length ≤ 4 := i.toValue.length_le
    rw [take_getD_window q0 tl hfour hlen, ← hbytes, ← length_encode, List.take_left]
  rw [hbytes, decodeBytes, decode_of_take_eq_encode h hwindow]
  simp only [if_pos hlen]
  rw [← hbytes, ← length_encode, List.drop_left]

/-! ### The opcode map -/

/-- A recogniser of an interval of bytes accepts as many as the interval has. -/
theorem countP_bytes_of_interval {f : Byte → Bool} {lo hi : Nat} (hhi : hi < 256)
    (h : ∀ b, f b = true ↔ lo ≤ b.toNat ∧ b.toNat ≤ hi) :
    (List.range 256).countP (fun n => f (BitVec.ofNat 8 n)) = hi + 1 - lo := by
  have hfilter : {k ∈ Finset.range 256 | f (BitVec.ofNat 8 k) = true} = Finset.Icc lo hi := by
    ext k
    rw [Finset.mem_filter, Finset.mem_range, Finset.mem_Icc, h, BitVec.toNat_ofNat]
    omega
  calc (List.range 256).countP (fun n => f (BitVec.ofNat 8 n))
      = Nat.count (fun n => f (BitVec.ofNat 8 n) = true) 256 := by simp only [Nat.count, Bool.decide_eq_true]
    _ = hi + 1 - lo := by rw [Nat.count_eq_card_filter_range, hfilter, Nat.card_Icc]

/-- Settles O3: each recogniser accepts a range of bytes, and the three ranges do not meet. -/
theorem recognisersPartitionTheMap : Obligations.RecognisersPartitionTheMap := by
  unfold Obligations.RecognisersPartitionTheMap
  refine ⟨fun b => ⟨isImmToReg_iff, isMemAcc_iff, isRegMemReg_iff, ?_, ?_, ?_⟩,
    countP_bytes_of_interval (by omega) fun _ => isImmToReg_iff,
    countP_bytes_of_interval (by omega) fun _ => isMemAcc_iff,
    countP_bytes_of_interval (by omega) fun _ => isRegMemReg_iff⟩
  · rw [isImmToReg_iff, isMemAcc_iff]; omega
  · rw [isImmToReg_iff, isRegMemReg_iff]; omega
  · rw [isMemAcc_iff, isRegMemReg_iff]; omega

/-- Phase 1 accepts every byte of the map, as one class's recogniser does (R105, R133). -/
theorem phaseOne_of_inside_map {b : Byte}
    (h : (0x88 ≤ b.toNat ∧ b.toNat ≤ 0x8B) ∨ (0xA0 ≤ b.toNat ∧ b.toNat ≤ 0xA3) ∨
      (0xB0 ≤ b.toNat ∧ b.toNat ≤ 0xBF)) : ∃ p, phaseOne b = some p := by
  rcases h with h | h | h
  · exact ⟨_, phaseOne_of_isRegMemReg (isRegMemReg_iff.2 h)⟩
  · exact ⟨_, phaseOne_of_isMemAcc (isMemAcc_iff.2 h)⟩
  · exact ⟨_, phaseOne_of_isImmToReg (isImmToReg_iff.2 h)⟩

/-- The decoder's answer from what phase 1 answers. -/
theorem decode_of_phaseOne {q0 : Byte} {p : PhaseOne} (h : phaseOne q0 = some p) (q1 q2 q3 : Byte) :
    decode q0 q1 q2 q3 = .ok ((finishDecode p q1 q2 q3).toInstr, (finishDecode p q1 q2 q3).length) := by
  rw [decode, decodeValue, h, Option.map_some]

theorem InstructionValue.two_le_length (v : InstructionValue) : 2 ≤ v.length := by
  cases v with
  | ir w reg imm => cases w <;> simp [length]
  | ma d w disp => simp [length]
  | rm d w mod reg r disp => exact Nat.le_add_right 2 _

theorem modRmByte_eq_append (mod : BitVec 2) (reg r : BitVec 3) : modRmByte mod reg r = mod ++ reg ++ r := by
  revert mod reg r; decide

theorem irOpcode_false (reg : BitVec 3) : irOpcode false reg = 0b10110#5 ++ reg := by revert reg; decide
theorem irOpcode_true (reg : BitVec 3) : irOpcode true reg = 0b10111#5 ++ reg := by revert reg; decide

/-- Class RM: the four opcode bytes by direction and width, with any ModRM byte (R92, R135). -/
theorem decode_rmOpcode (d w : Bool) (mod : BitVec 2) (reg r : BitVec 3) (q2 q3 : Byte) :
    decode (rmOpcode d w) (mod ++ reg ++ r) q2 q3 =
      .ok ((InstructionValue.rm d w mod reg r (dispValue mod r q2 q3)).toInstr, 2 + displen mod r) := by
  rw [← modRmByte_eq_append, decode_of_phaseOne (phaseOne_rmOpcode d w)]
  simp only [finishDecode, phaseTwo, modField_modRmByte, regField_modRmByte, rmField_modRmByte]
  rfl

/-- Class MA: the four opcode bytes by direction and width (R93, R136). -/
theorem decode_maOpcode (d w : Bool) (q1 q2 q3 : Byte) :
    decode (maOpcode d w) q1 q2 q3 = .ok ((InstructionValue.ma d w (leWord q1 q2)).toInstr, 3) :=
  decode_of_phaseOne (phaseOne_maOpcode d w) q1 q2 q3

/-- Class IR with an 8-bit register (R94, R136). -/
theorem decode_irOpcode_false (reg : BitVec 3) (q1 q2 q3 : Byte) :
    decode (0b10110#5 ++ reg) q1 q2 q3 = .ok (.movR8Imm8 (Reg8.ofNum reg) q1, 2) := by
  rw [← irOpcode_false, decode_of_phaseOne (phaseOne_irOpcode false reg)]
  simp [finishDecode, InstructionValue.toInstr, InstructionValue.length]

/-- Class IR with a 16-bit register (R94, R136). -/
theorem decode_irOpcode_true (reg : BitVec 3) (q1 q2 q3 : Byte) :
    decode (0b10111#5 ++ reg) q1 q2 q3 = .ok (.movR16Imm16 (Reg16.ofNum reg) (leWord q1 q2), 3) := by
  rw [← irOpcode_true]
  exact decode_of_phaseOne (phaseOne_irOpcode true reg) q1 q2 q3

/-- Settles O4: acceptance is phase 1's, and each class reads its operands from its own fields and bytes. -/
theorem decoderAcceptsExactlyTheMap : Obligations.DecoderAcceptsExactlyTheMap := by
  unfold Obligations.DecoderAcceptsExactlyTheMap
  refine ⟨fun q0 q1 q2 q3 => ⟨fun h => ?accepts, fun h => ?rejects⟩, fun mod reg r q2 q3 => ?rm,
    fun q1 q2 q3 w hw => ?ma, by decide, fun _ _ => ⟨rfl, rfl⟩⟩
  case accepts =>
    obtain ⟨p, hp⟩ := phaseOne_of_inside_map h
    exact ⟨_, _, decode_of_phaseOne hp q1 q2 q3, wellFormed_toInstr _, InstructionValue.two_le_length _,
      InstructionValue.length_le _⟩
  case rejects => exact decode_of_phaseOne_none q1 q2 q3 (phaseOne_eq_none_of_outside_map h)
  case rm =>
    exact ⟨decode_rmOpcode false false mod reg r q2 q3, decode_rmOpcode false true mod reg r q2 q3,
      decode_rmOpcode true false mod reg r q2 q3, decode_rmOpcode true true mod reg r q2 q3⟩
  case ma =>
    obtain rfl : w = leWord q1 q2 := BitVec.eq_of_toNat_eq (hw.trans (toNat_leWord q1 q2).symm)
    exact ⟨decode_maOpcode false false q1 q2 q3, decode_maOpcode false true q1 q2 q3,
      decode_maOpcode true false q1 q2 q3, decode_maOpcode true true q1 q2 q3,
      fun reg => ⟨decode_irOpcode_false reg q1 q2 q3, decode_irOpcode_true reg q1 q2 q3⟩⟩

/-- Settles O7: the decoder is run on each word. -/
theorem writtenWordsDecode : Obligations.WrittenWordsDecode := by
  unfold Obligations.WrittenWordsDecode
  exact ⟨rfl, rfl, rfl, rfl, rfl, rfl, rfl, rfl, rfl, rfl⟩

/-! ### The memory operand -/

theorem toNat_sext16 (b : Byte) : (sext16 b).toNat = if b.toNat < 128 then b.toNat else b.toNat + 0xFF00 := by
  revert b; decide

/-- The displacement value as a number, by its length (R97). -/
theorem toNat_dispValue (mod : BitVec 2) (r : BitVec 3) (b3 b4 : Byte) :
    (dispValue mod r b3 b4).toNat =
      if displen mod r = 0 then 0
      else if displen mod r = 1 then (if b3.toNat < 128 then b3.toNat else b3.toNat + 0xFF00)
      else b3.toNat + 256 * b4.toNat := by
  rcases displen_cases mod r with h | h | h
  · rw [dispValue_of_displen_zero _ _ h, if_pos h]; rfl
  · rw [dispValue_of_displen_one _ _ h, toNat_sext16, h]; rfl
  · rw [dispValue_of_displen_two _ _ h, toNat_leWord, h]; rfl

/-- A ModRM byte with mod ≠ 11 names one memory operand in both widths. Its effective address is the base of rm and
the displacement, without a base in the direct form (R99). -/
theorem rmOperand_eq_mem {mod : BitVec 2} (hmod : mod ≠ 3) (r : BitVec 3) (b3 b4 : Byte) :
    ∃ m, (∀ {ρ : Type} (regOf : BitVec 3 → ρ), rmOperand regOf mod r (dispValue mod r b3 b4) = .mem m) ∧
      ∀ s, effectiveAddress s m =
        (if mod = 0 ∧ r = 6 then 0 else eaBase s (EaBase.ofNum r)) + dispValue mod r b3 b4 := by
  rcases modRm_cases mod r with ⟨rfl, rfl⟩ | ⟨rfl, h⟩ | rfl | rfl | rfl
  · exact ⟨_, fun _ => rfl, fun s => (BitVec.zero_add _).symm⟩
  · refine ⟨_, fun regOf => rmOperand_base regOf _ h, fun s => ?_⟩
    rw [if_neg fun e => h e.2, dispValue_of_displen_zero _ _ (displen_base h)]
    exact (BitVec.add_zero _).symm
  · refine ⟨_, fun _ => rfl, fun s => ?_⟩
    rw [dispValue_of_displen_one (mod := 1) b3 b4 rfl]
    simp [effectiveAddress]
  · exact ⟨_, fun _ => rfl, fun s => rfl⟩
  · exact absurd rfl hmod

/-- The eight values of rm, 110 first, which alone needs mod to tell what it names (R99). -/
theorem rm_cases (r : BitVec 3) : r = 6 ∨ r = 0 ∨ r = 1 ∨ r = 2 ∨ r = 3 ∨ r = 4 ∨ r = 5 ∨ r = 7 := by
  revert r; decide

/-- Settles O9: the table has one line for each rm, and the sum of words is the sum of naturals modulo 2^16. -/
theorem effectiveAddressIsTheTable : Obligations.EffectiveAddressIsTheTable := by
  unfold Obligations.EffectiveAddressIsTheTable
  intro s mod r b3 b4
  refine ⟨toNat_dispValue mod r b3 b4, fun hmod => ?_⟩
  obtain ⟨m, hm, hea⟩ := rmOperand_eq_mem hmod r b3 b4
  refine ⟨m, hm _, hm _, ?_⟩
  rw [hea, BitVec.toNat_add]
  generalize dispValue mod r b3 b4 = disp
  rcases rm_cases r with rfl | rfl | rfl | rfl | rfl | rfl | rfl | rfl
  · by_cases h0 : mod = 0#2
    · simp [h0]
    · simp [h0, EaBase.ofNum, eaBase]
  all_goals simp [EaBase.ofNum, eaBase]

/-- Of the eight values of rm, three use BP (R101). -/
theorem usesBp_ofNum (r : BitVec 3) : usesBp (EaBase.ofNum r) = decide (r = 2 ∨ r = 3 ∨ r = 6) := by
  revert r; decide

/-- The operands whose SEG_8086 segment is SS, by mod and rm (R101). -/
theorem stackBased_of_rmOperand {ρ : Type} {regOf : BitVec 3 → ρ} {mod : BitVec 2} {r : BitVec 3} {disp : Word}
    {m : MemOperand} (h : rmOperand regOf mod r disp = .mem m) :
    stackBased m = true ↔ r = 2 ∨ r = 3 ∨ (r = 6 ∧ (mod = 1 ∨ mod = 2)) := by
  rcases modRm_cases mod r with ⟨rfl, rfl⟩ | ⟨rfl, h6⟩ | rfl | rfl | rfl
  · cases h; simp [stackBased]
  · rw [rmOperand_base regOf disp h6] at h
    cases h
    rw [stackBased, usesBp_ofNum, decide_eq_true_iff]
    simp [show ¬r = 6#3 from h6]
  · cases h; simp [stackBased, usesBp_ofNum]
  · cases h; simp [stackBased, usesBp_ofNum]
  · cases h

theorem operandSegment_seg8086 {s : State} (h : s.cfg.dataSegMode = .seg8086) (m : MemOperand) :
    operandSegment s m = if stackBased m then s.ss else s.ds := by
  rw [operandSegment, h]

theorem operandSegment_defaultField {s : State} (h : s.cfg.dataSegMode = .defaultField) (m : MemOperand) :
    operandSegment s m = s.defseg := by
  rw [operandSegment, h]

/-- Settles O10: under SEG_8086 the segment is SS exactly for the operands that use BP. -/
theorem operandSegmentRule : Obligations.OperandSegmentRule := by
  unfold Obligations.OperandSegmentRule
  refine ⟨fun _ _ => rfl, fun s m h => operandSegment_defaultField h m, fun s a h => operandSegment_seg8086 h _,
    fun s mod r disp m h hm => ?_⟩
  rw [operandSegment_seg8086 h]
  exact if_congr (stackBased_of_rmOperand hm) rfl rfl

end Sys2Proof
end

section
/-! Memory writes, the status word and the ALU (R34 to R38, R64, R180 to R197): the bytes a store leaves, the bits a
flag operation touches, and the operations as operations on integers. -/

namespace Sys2Proof.Machine

/-! ### Memory writes -/

theorem read_write_same {m : Memory} (hw : m.wf = true) (a : Nat) (b : Byte) : (m.write a b).read a = b :=
  (Memory.read_write m a b a hw).trans (if_pos rfl)

/-- Memory after a word is stored, low byte at the lower address (R64, R67). -/
def storedWord (m : Memory) (a : Nat) (v : Word) : Memory := (m.write a (lowByte v)).write (a + 1) (highByte v)

section
variable (m : Memory) (a : Nat) (v : Word)

theorem read_storedWord_low (hw : m.wf = true) : (storedWord m a v).read a = lowByte v :=
  (Memory.read_write_other _ _ (Nat.ne_of_lt (Nat.lt_succ_self a))).trans (read_write_same hw a _)

theorem read_storedWord_high (hw : m.wf = true) : (storedWord m a v).read (a + 1) = highByte v :=
  read_write_same (Memory.wf_write m a _ hw) (a + 1) _

theorem read_storedWord_other {x : Nat} (ha : x ≠ a) (ha1 : x ≠ a + 1) : (storedWord m a v).read x = m.read x :=
  (Memory.read_write_other _ _ ha1).trans (Memory.read_write_other _ _ ha)

end

/-- The law of the word store, by the memory it leaves. -/
theorem memWrite16_stores {a : Nat} {s : State} (v : Word) (h : a + 1 < s.cfg.memSize) :
    memWrite16 a v s = .next ((s.setMem (storedWord s.mem a v)).setDtr v) := memWrite16_next a s v h

/-- Settles O12: a write that fits stores its bytes into memory in canonical form, and one that does not faults before
it stores any. -/
theorem memWriteRule : Obligations.MemWriteRule := by
  unfold Obligations.MemWriteRule
  intro a s hw
  refine ⟨fun v h => ?byte, fun v h => memWrite8_fault a s v h, fun v h => ?word,
    fun v h => memWrite16_fault_first a s v h, fun v ⟨hfirst, hsecond⟩ => memWrite16_fault_second a s v (by omega)⟩
  case byte =>
    exact ⟨_, memWrite8_next a s v h, read_write_same hw a v, fun x hx => Memory.read_write_other _ v hx⟩
  case word =>
    exact ⟨_, memWrite16_stores v h, read_storedWord_low _ a v hw, read_storedWord_high _ a v hw,
      fun x => read_storedWord_other _ a v⟩

/-! ### The status word -/

/-- A bit in a flag's mask takes the value put. -/
theorem getLsbD_putFlag_mask (f : Flag) (b : Bool) (w : DWord) {k : Nat} (h : f.mask.getLsbD k = true) :
    (putFlag f b w).getLsbD k = b := by
  cases b
  · simp [putFlag, clearFlag, h]
  · simp [putFlag, setFlag, h]

/-- A flag is seen where one of its bits is 1 (R35). -/
theorem hasFlag_iff_exists_bit (f : Flag) (w : DWord) :
    hasFlag f w = true ↔ ∃ k, f.mask.getLsbD k = true ∧ w.getLsbD k = true := by
  have hbit : ∀ k, (w &&& f.mask).getLsbD k = true ↔ f.mask.getLsbD k = true ∧ w.getLsbD k = true := fun k => by
    rw [BitVec.getLsbD_and, Bool.and_eq_true, and_comm]
  rw [hasFlag, bne_iff_ne]
  constructor
  · intro h
    by_contra hnone
    refine h (BitVec.eq_of_getLsbD_eq fun k _ => ?_)
    rw [BitVec.getLsbD_zero, ← Bool.not_eq_true, hbit]
    exact fun hk => hnone ⟨k, hk⟩
  · rintro ⟨k, hk⟩ hzero
    have hone := (hbit k).2 hk
    rw [hzero, BitVec.getLsbD_zero] at hone
    exact Bool.noConfusion hone

/-- The one bit of a mask `1 << p`. -/
theorem getLsbD_one_shiftLeft {p : Nat} (hp : p < 32) (k : Nat) : (1#32 <<< p).getLsbD k = decide (k = p) := by
  rw [← BitVec.twoPow_eq, BitVec.getLsbD_twoPow]
  simp [hp, eq_comm]

/-- Settles O16: setFlag and clearFlag put a value into the bits of the flag's mask and no other, and each mask is
written out. -/
theorem flagOperationsTargetOneFlag : Obligations.FlagOperationsTargetOneFlag := by
  unfold Obligations.FlagOperationsTargetOneFlag
  refine ⟨fun f w => ⟨hasFlag_setFlag f w, hasFlag_clearFlag f w, fun k h => ?inside, fun k h => ?outside,
    hasFlag_iff_exists_bit f w⟩, by decide, fun p hp j => ?places, fun _ => rfl⟩
  case inside => exact ⟨getLsbD_putFlag_mask f true w h, getLsbD_putFlag_mask f false w h⟩
  case outside => exact ⟨getLsbD_putFlag_other f true w k h, getLsbD_putFlag_other f false w k h⟩
  case places =>
    have hmask : p.1.mask = 1#32 <<< p.2 ∧ p.2 < 32 := by revert p; decide
    rw [hmask.1, getLsbD_one_shiftLeft hmask.2]

/-- The unnamed bits of the low word are masked off in a whole-value write (R37, R38). -/
theorem writeFlagsLow_reserved (v : Word) {w : DWord} (h : w &&& ~~~namedFlags = 0#32) :
    writeFlagsLow v w &&& ~~~namedFlags = 0#32 := by
  apply BitVec.eq_of_getLsbD_eq
  intro k hk
  have hw := congrArg (·.getLsbD k) h
  simp only [BitVec.getLsbD_and, BitVec.getLsbD_zero, BitVec.getLsbD_not] at hw
  simp only [writeFlagsLow, BitVec.getLsbD_and, BitVec.getLsbD_or, BitVec.getLsbD_zero, BitVec.getLsbD_not]
  cases hn : namedFlags.getLsbD k
  · rw [hn] at hw
    simp_all
  · simp

/-- What a step does to the unnamed bits: an instruction writes no flag, a service clears named ones. -/
theorem step_keeps_reserved {s t : State} (h : step s = .next t) :
    t.flags &&& ~~~namedFlags = s.flags &&& ~~~namedFlags := by
  rcases step_next_cases s t h with ⟨_, _, v, rest, _, _, rfl⟩ | ⟨_, _, p, i, len, u, _, _, hexec, rfl⟩
  · exact serviceFlags_reserved (framed (s.setPic rest))
  · obtain ⟨hapart, _⟩ := exec_apart i _ u hexec
    have hflags : (u.advanceIp len).flags = s.flags := hapart.flags
    rw [hflags]

/-- Settles O17: every operation puts named flags only. -/
theorem reservedFlagBitsAreKept : Obligations.ReservedFlagBitsAreKept := by
  unfold Obligations.ReservedFlagBitsAreKept
  exact ⟨fun f w => ⟨putFlag_reserved f true w, putFlag_reserved f false w⟩, fun v w => writeFlagsLow_reserved v,
    fun n op a b s => applyUpdates_reserved _ s, fun s t => step_keeps_reserved⟩

/-! ### The flags an operation lists -/

theorem applyUpdates_append (u v : List (Flag × FlagUpdate)) (s : State) :
    applyUpdates (u ++ v) s = applyUpdates v (applyUpdates u s) := by
  induction u generalizing s with
  | nil => rfl
  | cons p rest ih =>
    obtain ⟨f, u⟩ := p
    cases u with
    | put b => exact ih _
    | draw => exact ih _

/-- A flag that a list gives a value has it, if no later entry names it (R196). -/
theorem hasFlag_applyUpdates_put (pre post : List (Flag × FlagUpdate)) (f : Flag) (b : Bool) (s : State)
    (h : ∀ p ∈ post, p.1 ≠ f) : hasFlag f (applyUpdates (pre ++ (f, .put b) :: post) s).flags = b := by
  rw [applyUpdates_append, applyUpdates, applyUpdates_other post _ f h]
  exact hasFlag_putFlag f b _

/-- Nothing after its entry changes a flag that is none of the result flags. -/
theorem hasFlag_applyUpdates_resultFlags {n : Nat} (r : BitVec n) (s : State) (f : Flag)
    (hf : f ∉ ([.sf, .zf, .pf] : List Flag)) : hasFlag f (applyUpdates (resultFlags r) s).flags = hasFlag f s.flags :=
  applyUpdates_other _ s f fun _ hp e =>
    hf (e ▸ (List.mem_map_of_mem hp : _ ∈ (resultFlags r).map Prod.fst))

section
variable {n : Nat} (cf af o : Bool) (r : BitVec n) (s : State)

@[simp] theorem hasFlag_cf_arithFlags : hasFlag .cf (applyUpdates (arithFlags cf af o r) s).flags = cf := by
  rw [arithFlags, applyUpdates_append, hasFlag_applyUpdates_resultFlags r _ .cf (by decide)]
  exact hasFlag_applyUpdates_put [] _ .cf cf s (by simp)

@[simp] theorem hasFlag_af_arithFlags : hasFlag .af (applyUpdates (arithFlags cf af o r) s).flags = af := by
  rw [arithFlags, applyUpdates_append, hasFlag_applyUpdates_resultFlags r _ .af (by decide)]
  exact hasFlag_applyUpdates_put [_] _ .af af s (by simp)

@[simp] theorem hasFlag_of_arithFlags : hasFlag .of (applyUpdates (arithFlags cf af o r) s).flags = o := by
  rw [arithFlags, applyUpdates_append, hasFlag_applyUpdates_resultFlags r _ .of (by decide)]
  exact hasFlag_applyUpdates_put [_, _] _ .of o s (by simp)

@[simp] theorem hasFlag_cf_stepFlags :
    hasFlag .cf (applyUpdates (stepFlags af o r) s).flags = hasFlag .cf s.flags := by
  rw [stepFlags, applyUpdates_append, hasFlag_applyUpdates_resultFlags r _ .cf (by decide)]
  exact applyUpdates_other _ s .cf (by simp)

@[simp] theorem hasFlag_af_stepFlags : hasFlag .af (applyUpdates (stepFlags af o r) s).flags = af := by
  rw [stepFlags, applyUpdates_append, hasFlag_applyUpdates_resultFlags r _ .af (by decide)]
  exact hasFlag_applyUpdates_put [] _ .af af s (by simp)

@[simp] theorem hasFlag_of_stepFlags : hasFlag .of (applyUpdates (stepFlags af o r) s).flags = o := by
  rw [stepFlags, applyUpdates_append, hasFlag_applyUpdates_resultFlags r _ .of (by decide)]
  exact hasFlag_applyUpdates_put [_] _ .of o s (by simp)

@[simp] theorem hasFlag_cf_logicFlags : hasFlag .cf (applyUpdates (logicFlags r) s).flags = false := by
  rw [logicFlags, applyUpdates_append, hasFlag_applyUpdates_resultFlags r _ .cf (by decide)]
  exact hasFlag_applyUpdates_put [] _ .cf false s (by simp)

@[simp] theorem hasFlag_of_logicFlags : hasFlag .of (applyUpdates (logicFlags r) s).flags = false := by
  rw [logicFlags, applyUpdates_append, hasFlag_applyUpdates_resultFlags r _ .of (by decide)]
  exact hasFlag_applyUpdates_put [_] _ .of false s (by simp)

/-- AF after a logic operation is the draw at the count of the state before, which CF and OF do not move (R196). -/
@[simp] theorem hasFlag_af_logicFlags :
    hasFlag .af (applyUpdates (logicFlags r) s).flags = Config.freeFlag s.draws := by
  rw [logicFlags, applyUpdates_append, hasFlag_applyUpdates_resultFlags r _ .af (by decide)]
  exact hasFlag_putFlag .af _ _

@[simp] theorem draws_logicFlags : (applyUpdates (logicFlags r) s).draws = s.draws + 1 := rfl

@[simp] theorem hasFlag_sf_resultFlags : hasFlag .sf (applyUpdates (resultFlags r) s).flags = signOf r :=
  hasFlag_applyUpdates_put [] _ .sf _ s (by simp)

@[simp] theorem hasFlag_zf_resultFlags : hasFlag .zf (applyUpdates (resultFlags r) s).flags = zeroOf r :=
  hasFlag_applyUpdates_put [_] _ .zf _ s (by simp)

@[simp] theorem hasFlag_pf_resultFlags : hasFlag .pf (applyUpdates (resultFlags r) s).flags = parityOf r :=
  hasFlag_applyUpdates_put [_, _] _ .pf _ s (by simp)

end

/-! ### Addition and subtraction -/

section
variable {n : Nat} (hn : n = 8 ∨ n = 16) (a b : BitVec n) {c : Nat} (hc : c ≤ 1)
include hn hc

/-- Operands of one sign and a result of the other: exactly when the signed sum leaves the range (R182, R183). -/
theorem overflowAdd_iff : overflowAdd a b (BitVec.ofNat n (a.toNat + b.toNat + c)) = true ↔
    a.toInt + b.toInt + c < -2 ^ (n - 1) ∨ 2 ^ (n - 1) ≤ a.toInt + b.toInt + c := by
  rcases hn with rfl | rfl
  all_goals
    have ha := a.isLt
    have hb := b.isLt
    simp only [overflowAdd, BitVec.msb_eq_decide, BitVec.toInt_eq_toNat_cond, BitVec.toNat_ofNat, Bool.and_eq_true,
      beq_iff_eq, bne_iff_ne, ne_eq, decide_eq_decide]
    omega

/-- Operands of different signs and a result unlike the first: exactly when the signed difference leaves the range
(R184, R185). -/
theorem overflowSub_iff : overflowSub a b (BitVec.ofInt n ((a.toNat : Int) - b.toNat - c)) = true ↔
    a.toInt - b.toInt - c < -2 ^ (n - 1) ∨ 2 ^ (n - 1) ≤ a.toInt - b.toInt - c := by
  rcases hn with rfl | rfl
  all_goals
    have ha := a.isLt
    have hb := b.isLt
    simp only [overflowSub, BitVec.msb_eq_decide, BitVec.toInt_eq_toNat_cond, BitVec.toNat_ofInt, Bool.and_eq_true,
      bne_iff_ne, ne_eq, decide_eq_decide]
    omega

end

/-- A result modulo 2^n, as an integer. -/
theorem toNat_ofInt_emod (n : Nat) (x : Int) : ((BitVec.ofInt n x).toNat : Int) = x % 2 ^ n := by
  rw [BitVec.toNat_ofInt, Int.toNat_of_nonneg (Int.emod_nonneg _ (by positivity))]
  norm_cast

/-- Settles O18: ADD and ADC are one operation with the carry given. -/
theorem addIntegerLaws : Obligations.AddIntegerLaws := by
  unfold Obligations.AddIntegerLaws
  intro n hn op a b s c hop
  have hc : c ≤ 1 := by
    rcases hop with ⟨_, rfl⟩ | ⟨_, rfl⟩
    · exact Nat.zero_le 1
    · exact Bool.toNat_le _
  have halu : alu op a b (hasFlag .cf s.flags) = aluAdd a b c := by
    rcases hop with ⟨rfl, rfl⟩ | ⟨rfl, rfl⟩ <;> rfl
  rw [aluExec, halu]
  simp only [aluAdd, hasFlag_cf_arithFlags, hasFlag_af_arithFlags, hasFlag_of_arithFlags]
  exact ⟨BitVec.toNat_ofNat .., decide_eq_true_iff, decide_eq_true_iff, overflowAdd_iff hn a b hc⟩

/-- Settles O19: SUB, SBB and CMP are one operation with the borrow given. -/
theorem subtractIntegerLaws : Obligations.SubtractIntegerLaws := by
  unfold Obligations.SubtractIntegerLaws
  intro n hn op a b s c hop
  have hc : c ≤ 1 := by
    rcases hop with ⟨_, rfl⟩ | ⟨_, rfl⟩
    · exact Nat.zero_le 1
    · exact Bool.toNat_le _
  have halu : alu op a b (hasFlag .cf s.flags) = aluSub a b c := by
    rcases hop with ⟨rfl | rfl, rfl⟩ | ⟨rfl, rfl⟩ <;> rfl
  rw [aluExec, halu]
  simp only [aluSub, hasFlag_cf_arithFlags, hasFlag_af_arithFlags, hasFlag_of_arithFlags]
  exact ⟨toNat_ofInt_emod n _, decide_eq_true_iff, decide_eq_true_iff, overflowSub_iff hn a b hc⟩

/-! ### The unary operations -/

section
variable {n : Nat} (hn : n = 8 ∨ n = 16) (a : BitVec n)
include hn

/-- INC leaves the signed range at the largest value alone (R187). -/
theorem isMaxSigned_iff : isMaxSigned a = true ↔ 2 ^ (n - 1) ≤ a.toInt + 1 := by
  rcases hn with rfl | rfl
  all_goals
    have ha := a.isLt
    simp only [isMaxSigned, beq_iff_eq, ← BitVec.toNat_inj, BitVec.toNat_ofNat, BitVec.toInt_eq_toNat_cond]
    omega

theorem isMinSigned_iff : isMinSigned a = true ↔ a.toInt = -2 ^ (n - 1) := by
  rcases hn with rfl | rfl
  all_goals
    have ha := a.isLt
    simp only [isMinSigned, beq_iff_eq, ← BitVec.toNat_inj, BitVec.toNat_ofNat, BitVec.toInt_eq_toNat_cond]
    omega

/-- DEC leaves the signed range at the smallest value alone (R188). -/
theorem isMinSigned_iff_pred : isMinSigned a = true ↔ a.toInt - 1 < -2 ^ (n - 1) := by
  have hmin := BitVec.le_toInt a
  rw [isMinSigned_iff hn a]
  omega

/-- So does NEG, whose result there is 2^(n-1) (R189). -/
theorem isMinSigned_iff_neg : isMinSigned a = true ↔ 2 ^ (n - 1) ≤ -a.toInt := by
  have hmin := BitVec.le_toInt a
  rw [isMinSigned_iff hn a]
  omega

end

/-- Settles O20: the flags of each operation are those it lists, with OF read as a bound on the signed result. -/
theorem unaryIntegerLaws : Obligations.UnaryIntegerLaws := by
  unfold Obligations.UnaryIntegerLaws
  intro n hn a b s
  simp only [aluExec, alu, aluInc, aluDec, aluNeg, hasFlag_cf_stepFlags, hasFlag_af_stepFlags, hasFlag_of_stepFlags,
    hasFlag_cf_arithFlags, hasFlag_af_arithFlags, hasFlag_of_arithFlags]
  refine ⟨BitVec.toNat_ofNat .., toNat_ofInt_emod n _, ?neg, trivial, trivial, ?negCf, isMaxSigned_iff hn a,
    isMinSigned_iff_pred hn a, isMinSigned_iff_neg hn a, decide_eq_true_iff, decide_eq_true_iff, decide_eq_true_iff⟩
  case neg => rw [toNat_ofInt_emod, Int.zero_sub]
  case negCf =>
    rw [decide_eq_true_iff, ne_eq, ← BitVec.toNat_inj, BitVec.toNat_ofNat, Nat.zero_mod]
    exact Nat.pos_iff_ne_zero.symm

/-! ### The logic operations -/

/-- The four operations whose flags are those of a logic result. -/
theorem alu_eq_aluLogic {op : AluOp} (h : op = .and ∨ op = .or ∨ op = .xor ∨ op = .test) {n : Nat} (a b : BitVec n)
    (cin : Bool) : ∃ r, alu op a b cin = aluLogic r := by
  rcases h with rfl | rfl | rfl | rfl <;> exact ⟨_, rfl⟩

/-- Settles O21: each result is the bitwise operation, and the four with flags list those of a logic result. -/
theorem logicOperationLaws : Obligations.LogicOperationLaws := by
  unfold Obligations.LogicOperationLaws
  intro n a b s
  refine ⟨fun k => BitVec.getLsbD_and, fun k => BitVec.getLsbD_and, fun k => BitVec.getLsbD_or,
    fun k => BitVec.getLsbD_xor, fun k hk => ?_, rfl, fun op hop => ?_, rfl, rfl⟩
  · exact BitVec.getLsbD_not.trans (by simp [hk])
  · obtain ⟨r, hr⟩ := alu_eq_aluLogic hop a b (hasFlag .cf s.flags)
    rw [aluExec, hr]
    exact ⟨hasFlag_cf_logicFlags r s, hasFlag_of_logicFlags r s, hasFlag_af_logicFlags r s, draws_logicFlags r s⟩

/-! ### The result flags and the frame -/

/-- Every operation that writes flags ends its list with SF, ZF and PF of its result (R181). -/
theorem alu_upd_eq_append {op : AluOp} (hnot : op ≠ .not) (hpass : op ≠ .pass) {n : Nat} (a b : BitVec n)
    (cin : Bool) : ∃ pre, (alu op a b cin).upd = pre ++ resultFlags (alu op a b cin).r := by
  cases op with
  | not => exact absurd rfl hnot
  | pass => exact absurd rfl hpass
  | _ => exact ⟨_, rfl⟩

theorem countP_eq_sum_toNat (p : Nat → Bool) (l : List Nat) : l.countP p = (l.map fun k => (p k).toNat).sum := by
  induction l with
  | nil => rfl
  | cons k rest ih =>
    rw [List.countP_cons, ih, List.map_cons, List.sum_cons, Nat.add_comm]
    cases p k <;> rfl

/-- Settles O22: the list of updates ends with the result flags, so nothing overwrites them. -/
theorem resultFlagLaws : Obligations.ResultFlagLaws := by
  unfold Obligations.ResultFlagLaws
  intro n hn op a b s hnot hpass
  obtain ⟨pre, hupd⟩ := alu_upd_eq_append hnot hpass a b (hasFlag .cf s.flags)
  rw [aluExec, hupd, applyUpdates_append, hasFlag_sf_resultFlags, hasFlag_zf_resultFlags, hasFlag_pf_resultFlags]
  generalize (alu op a b (hasFlag .cf s.flags)).r = r
  refine ⟨BitVec.msb_eq_getLsbD_last r, ?_, ?_⟩
  · rw [zeroOf, beq_iff_eq, ← BitVec.toNat_inj, BitVec.toNat_ofNat, Nat.zero_mod]
  · rw [parityOf, beq_iff_eq, lowOnes, countP_eq_sum_toNat]

/-- The flags an operation lists, in the order of its updates (R182 to R195). -/
def AluOp.listedFlags : AluOp → List Flag
  | .add | .adc | .sub | .sbb | .cmp | .neg => [.cf, .af, .of, .sf, .zf, .pf]
  | .and | .or | .xor | .test => [.cf, .of, .af, .sf, .zf, .pf]
  | .inc | .dec => [.af, .of, .sf, .zf, .pf]
  | .not | .pass => []

theorem map_fst_alu_upd (op : AluOp) {n : Nat} (a b : BitVec n) (cin : Bool) :
    (alu op a b cin).upd.map Prod.fst = op.listedFlags := by
  cases op <;> rfl

theorem fst_mem_listedFlags {op : AluOp} {n : Nat} {a b : BitVec n} {cin : Bool} {p : Flag × FlagUpdate}
    (h : p ∈ (alu op a b cin).upd) : p.1 ∈ op.listedFlags :=
  map_fst_alu_upd op a b cin ▸ List.mem_map_of_mem h

/-- No operation lists a flag outside the six arithmetic ones (R180). -/
theorem listedFlags_subset (op : AluOp) : ∀ f ∈ op.listedFlags, f ∈ ([.cf, .pf, .af, .zf, .sf, .of] : List Flag) := by
  cases op <;> decide

/-- A flag an operation does not list keeps its value (R196). -/
theorem hasFlag_aluExec_unlisted {op : AluOp} {n : Nat} (a b : BitVec n) (s : State) {f : Flag}
    (h : f ∉ op.listedFlags) : hasFlag f (aluExec op a b s).2.flags = hasFlag f s.flags :=
  applyUpdates_other _ s f fun _ hp e => h (e ▸ fst_mem_listedFlags hp)

/-- Settles O23: whatever an operation does is a list of updates, of the flags it lists. -/
theorem aluWritesOnlyTheFlagsItLists : Obligations.AluWritesOnlyTheFlagsItLists := by
  unfold Obligations.AluWritesOnlyTheFlagsItLists
  intro n op a b s
  refine ⟨fun f hcf hpf haf hzf hsf hof => ?flag, fun k hk => ?bit, fun hop => ?carry, fun hop => ?none,
    applyUpdates_eq _ s⟩
  case flag =>
    refine hasFlag_aluExec_unlisted a b s fun h => ?_
    have hsix := listedFlags_subset op f h
    simp [hcf, hpf, haf, hzf, hsf, hof] at hsix
  case bit =>
    exact getLsbD_applyUpdates_other _ s k fun p hp => hk p.1 (listedFlags_subset op p.1 (fst_mem_listedFlags hp))
  case carry =>
    refine hasFlag_aluExec_unlisted a b s ?_
    rcases hop with rfl | rfl <;> decide
  case none => rcases hop with rfl | rfl <;> rfl

end Sys2Proof.Machine
end

section
/-! The queue and the MOV instructions (R40 to R45, R160 to R172): a fill, the two stores and the two loads every MOV
is made of, and their frames. -/

namespace Sys2Proof.Machine

/-! ### The queue -/

/-- The cell a queue in agreement fills is the first past its bytes (R40). -/
theorem tail_of_ok {q : Queue} (h : q.ok = true) : q.tail.val = (q.head.val + q.count.val) % 6 := of_decide_eq_true h

theorem peek_of_lt {q : Queue} {k : Nat} (h : k < q.count.val) :
    q.peek k = some (q.buf[(q.head.val + k) % 6]'(Nat.mod_lt _ (by decide))) := if_pos h

theorem peek_of_ge {q : Queue} {k : Nat} (h : q.count.val ≤ k) : q.peek k = none := if_neg (Nat.not_lt.2 h)

/-- A byte filled in is found at the old count, and the bytes before it stay: their cells are others (R42, R44). -/
theorem fill_appends {q : Queue} (b : Byte) (hok : q.ok = true) (hroom : q.count.val < 6) :
    ∃ q', q.fill b = some q' ∧ q'.ok = true ∧ q'.size = q.size + 1 ∧ q'.peek q.size = some b ∧
      ∀ k, k < q.size → q'.peek k = q.peek k := by
  obtain ⟨q', hfill, hcount, hhead, htail, hbuf⟩ := fill_eq_some b q hroom
  have hcell := tail_of_ok hok
  refine ⟨q', hfill, ?_, hcount, ?_, fun k hk => ?_⟩
  · rw [Queue.ok, decide_eq_true_iff, htail, hcount, hhead, Fin.val_add, hcell]
    exact Nat.mod_add_mod ..
  · rw [peek_of_lt (by rw [hcount]; exact Nat.lt_succ_self _)]
    simp only [hbuf, hhead, Queue.size, ← hcell]
    simp
  · have hk' : k < q.count.val := hk
    rw [peek_of_lt hk', peek_of_lt (by omega)]
    have hne : q.tail.val ≠ (q.head.val + k) % 6 := by omega
    simp only [hbuf, hhead, Option.some_inj]
    exact Vector.getElem_set_ne _ _ hne

/-- Settles O24: a queue with room is filled at its tail, and one that is full has no room. -/
theorem queueFillAppends : Obligations.QueueFillAppends := by
  unfold Obligations.QueueFillAppends
  intro q b hok
  refine ⟨fill_appends b hok, fun hfull => ?_, fun k => peek_of_ge, rfl, rfl, rfl⟩
  have hcount : q.count = 6 := eq_of_beq hfull
  exact dif_neg (by rw [hcount]; decide)

/-! ### Frames -/

theorem SameApart.sameControl {s t : State} (h : SameApart s t) : sameControl s t :=
  ⟨h.cs, h.ds, h.es, h.ss, h.ip, h.flags, h.queue, h.defseg, h.fault, h.pic, h.draws, h.cfg⟩

section
variable (s : State)

/-- A half written, and DTR, is all that changes. -/
theorem changesOnly_setReg8 (d : Reg8) (v : Byte) (w : Word) :
    changesOnly (.half d) s ((s.setDtr w).setReg8 d v) := by
  obtain ⟨hapart, hmem⟩ := setReg8_apart d v w s
  refine ⟨hapart.sameControl, ⟨fun r hr => ?_, fun r hr => ?_⟩, fun x => by rw [hmem]⟩
  · rw [reg8_setReg8_other _ d r v hr, State.setDtr_reg8]
  · rw [reg16_setReg8_other _ d r v hr, State.setDtr_reg16]

/-- A register written, and DTR, is all that changes. -/
theorem changesOnly_setReg16 (d : Reg16) (v w : Word) :
    changesOnly (.reg d) s ((s.setDtr w).setReg16 d v) := by
  obtain ⟨hapart, hmem⟩ := setReg16_apart d v w s
  refine ⟨hapart.sameControl, fun r hr => ?_, fun x => by rw [hmem]⟩
  rw [reg16_setReg16_other _ d r v hr, State.setDtr_reg16]

/-- New memory and DTR is all that changes, if the new memory differs in the destination's bytes only. -/
theorem changesOnly_setMem {m : MemOperand} {n : Nat} {mem : Memory} (w : Word)
    (hmem : ∀ x, x < operandAddress s m ∨ operandAddress s m + n ≤ x → mem.read x = s.mem.read x) :
    changesOnly (.bytes m n) s ((s.setMem mem).setDtr w) :=
  ⟨⟨rfl, rfl, rfl, rfl, rfl, rfl, rfl, rfl, rfl, rfl, rfl, rfl⟩,
    fun r => by rw [State.setDtr_reg16, State.setMem_reg16], hmem⟩

end

/-! ### The two stores -/

section
variable {s : State} {m : MemOperand}

theorem store8_frame {v : Byte} {t : State} (h : memWrite8 (operandAddress s m) v s = .next t) :
    changesOnly (.bytes m 1) s t := by
  rcases memWrite8_cases (operandAddress s m) v s with ⟨_, e⟩ | ⟨_, e⟩ <;> cases h.symm.trans e
  exact changesOnly_setMem s _ fun x hx => Memory.read_write_other _ v (by omega)

theorem store16_frame {v : Word} {t : State} (h : memWrite16 (operandAddress s m) v s = .next t) :
    changesOnly (.bytes m 2) s t := by
  rcases memWrite16_cases (operandAddress s m) v s with ⟨_, e⟩ | ⟨_, e⟩ | ⟨_, e⟩ <;> cases h.symm.trans e
  exact changesOnly_setMem s _ fun x hx => read_storedWord_other _ _ v (by omega) (by omega)

theorem store8_completes (v : Byte) (hw : s.mem.wf = true) (h : accessible s (operandAddress s m) 1) :
    ∃ t, memWrite8 (operandAddress s m) v s = .next t ∧ t.mem.read (operandAddress s m) = v ∧
      t.dtr = v.setWidth 16 ∧ changesOnly (.bytes m 1) s t :=
  have hnext := memWrite8_next _ s v h
  ⟨_, hnext, read_write_same hw _ v, rfl, store8_frame hnext⟩

theorem store16_completes (v : Word) (hw : s.mem.wf = true) (h : accessible s (operandAddress s m) 2) :
    ∃ t, memWrite16 (operandAddress s m) v s = .next t ∧ t.mem.read (operandAddress s m) = lowByte v ∧
      t.mem.read (operandAddress s m + 1) = highByte v ∧ t.dtr = v ∧ changesOnly (.bytes m 2) s t :=
  have hnext := memWrite16_stores v h
  ⟨_, hnext, read_storedWord_low _ _ v hw, read_storedWord_high _ _ v hw, rfl, store16_frame hnext⟩

end

/-! ### The two loads -/

/-- The byte at a into the half d, as MOV r8, r/m8 and MOV AL, [addr16] do it (R163, R165). -/
def load8 (d : Reg8) (a : Nat) (s : State) : Next := andThen (memRead8 a s) fun p => .next (p.2.setReg8 d p.1)

/-- The word at a into the register d, as MOV r16, r/m16 and MOV AX, [addr16] do it (R164, R166). -/
def load16 (d : Reg16) (a : Nat) (s : State) : Next := andThen (memRead16 a s) fun p => .next (p.2.setReg16 d p.1)

section
variable {s : State} {a : Nat}

theorem load8_next (d : Reg8) (h : accessible s a 1) :
    load8 d a s = .next ((s.setDtr ((s.mem.read a).setWidth 16)).setReg8 d (s.mem.read a)) := by
  rw [load8, memRead8_next a s h, andThen_next]

theorem load16_next (d : Reg16) (h : accessible s a 2) :
    load16 d a s = .next ((s.setDtr (leWord (s.mem.read a) (s.mem.read (a + 1)))).setReg16 d
      (leWord (s.mem.read a) (s.mem.read (a + 1)))) := by
  rw [load16, memRead16_next a s h, andThen_next]

theorem load8_fault (d : Reg8) (h : s.cfg.memSize ≤ a) : load8 d a s = .fault (invalidAddress s a) := by
  rw [load8, memRead8_fault a s h, andThen_fault]

theorem load16_fault (d : Reg16) (h : ¬accessible s a 2) :
    load16 d a s = .fault (invalidAddress s (max a s.cfg.memSize)) := by
  rw [load16, memRead16_fault h, andThen_fault]

theorem load8_completes (d : Reg8) (h : accessible s a 1) :
    ∃ t, load8 d a s = .next t ∧ t.reg8 d = s.mem.read a ∧ t.dtr = (s.mem.read a).setWidth 16 ∧
      changesOnly (.half d) s t :=
  ⟨_, load8_next d h, reg8_setReg8_same .., State.setReg8_dtr .., changesOnly_setReg8 ..⟩

theorem load16_completes (d : Reg16) (h : accessible s a 2) :
    ∃ t, load16 d a s = .next t ∧ lowByte (t.reg16 d) = s.mem.read a ∧ highByte (t.reg16 d) = s.mem.read (a + 1) ∧
      t.dtr = t.reg16 d ∧ changesOnly (.reg d) s t := by
  refine ⟨_, load16_next d h, ?_, ?_, ?_, changesOnly_setReg16 ..⟩
  · rw [reg16_setReg16_same, lowByte_leWord]
  · rw [reg16_setReg16_same, highByte_leWord]
  · rw [reg16_setReg16_same, State.setReg16_dtr, State.setDtr_dtr]

theorem load8_frame {d : Reg8} {t : State} (h : load8 d a s = .next t) : changesOnly (.half d) s t := by
  rcases Nat.lt_or_ge a s.cfg.memSize with hfits | hout
  · cases h.symm.trans (load8_next d hfits)
    exact changesOnly_setReg8 ..
  · cases h.symm.trans (load8_fault d hout)

theorem load16_frame {d : Reg16} {t : State} (h : load16 d a s = .next t) : changesOnly (.reg d) s t := by
  by_cases hfits : accessible s a 2
  · cases h.symm.trans (load16_next d hfits)
    exact changesOnly_setReg16 ..
  · cases h.symm.trans (load16_fault d hfits)

end

/-! ### The MOV instructions -/

section
variable (s : State) (m : MemOperand) (a : Word)

/-- The loads of class RM (R163, R164) and of class MA (R165, R166). -/
theorem exec_movR8Rm8_mem (d : Reg8) : exec (.movR8Rm8 d (.mem m)) s = load8 d (operandAddress s m) s := rfl
theorem exec_movR16Rm16_mem (d : Reg16) : exec (.movR16Rm16 d (.mem m)) s = load16 d (operandAddress s m) s := rfl
theorem exec_movAlMem : exec (.movAlMem a) s = load8 .al (operandAddress s (.direct a)) s := rfl
theorem exec_movAxMem : exec (.movAxMem a) s = load16 .ax (operandAddress s (.direct a)) s := rfl

end

/-- Settles O42: each MOV writes a register, or is one of the two stores or the two loads. -/
theorem everyMovWritesOneDestination : Obligations.EveryMovWritesOneDestination := by
  unfold Obligations.EveryMovWritesOneDestination
  intro i s t h
  cases i with
  | movRm8R8 dst src => cases dst with
    | reg d => cases h; exact changesOnly_setReg8 s d _ s.dtr
    | mem m => exact store8_frame h
  | movRm16R16 dst src => cases dst with
    | reg d => cases h; exact changesOnly_setReg16 s d _ s.dtr
    | mem m => exact store16_frame h
  | movR8Rm8 d src => cases src with
    | reg r => cases h; exact changesOnly_setReg8 s d _ s.dtr
    | mem m => exact load8_frame h
  | movR16Rm16 d src => cases src with
    | reg r => cases h; exact changesOnly_setReg16 s d _ s.dtr
    | mem m => exact load16_frame h
  | movAlMem a => exact load8_frame h
  | movAxMem a => exact load16_frame h
  | movMemAl a => exact store8_frame h
  | movMemAx a => exact store16_frame h
  | movR8Imm8 d v => cases h; exact changesOnly_setReg8 s d v s.dtr
  | movR16Imm16 d v => cases h; exact changesOnly_setReg16 s d v s.dtr

/-- A half written without a transfer. -/
theorem setReg8_completes (s : State) (d : Reg8) (v : Byte) :
    ∃ t, (.next (s.setReg8 d v) : Next) = .next t ∧ t.reg8 d = v ∧ t.dtr = s.dtr ∧ changesOnly (.half d) s t :=
  ⟨_, rfl, reg8_setReg8_same s d v, State.setReg8_dtr s d v, changesOnly_setReg8 s d v s.dtr⟩

/-- A register written without a transfer. -/
theorem setReg16_completes (s : State) (d : Reg16) (v : Word) :
    ∃ t, (.next (s.setReg16 d v) : Next) = .next t ∧ t.reg16 d = v ∧ t.dtr = s.dtr ∧ changesOnly (.reg d) s t :=
  ⟨_, rfl, reg16_setReg16_same s d v, State.setReg16_dtr s d v, changesOnly_setReg16 s d v s.dtr⟩

/-- Settles O43: the memory form is a byte store at the operand's address. -/
theorem movRm8R8Rule : Obligations.MovRm8R8Rule := by
  unfold Obligations.MovRm8R8Rule
  exact fun s src => ⟨fun d => setReg8_completes s d _, fun m hw h => store8_completes _ hw h,
    fun m h => memWrite8_fault _ s _ h⟩

/-- Settles O44: the memory form is a word store at the operand's address. -/
theorem movRm16R16Rule : Obligations.MovRm16R16Rule := by
  unfold Obligations.MovRm16R16Rule
  exact fun s src => ⟨fun d => setReg16_completes s d _, fun m hw h => store16_completes _ hw h,
    fun m h => memWrite16_fault _ h⟩

/-- Settles O45: the memory form is a byte load from the operand's address. -/
theorem movR8Rm8Rule : Obligations.MovR8Rm8Rule := by
  unfold Obligations.MovR8Rm8Rule
  simp only [exec_movR8Rm8_mem]
  exact fun s dst => ⟨fun r => setReg8_completes s dst _, fun m h => load8_completes dst h,
    fun m h => load8_fault dst h⟩

/-- Settles O46: the memory form is a word load from the operand's address. -/
theorem movR16Rm16Rule : Obligations.MovR16Rm16Rule := by
  unfold Obligations.MovR16Rm16Rule
  simp only [exec_movR16Rm16_mem]
  exact fun s dst => ⟨fun r => setReg16_completes s dst _, fun m h => load16_completes dst h,
    fun m h => load16_fault dst h⟩

/-- Settles O47: the loads from the direct address, into AL and into AX; AH is another half than AL. -/
theorem accumulatorLoadsRule : Obligations.AccumulatorLoadsRule := by
  unfold Obligations.AccumulatorLoadsRule
  intro s addr
  rw [exec_movAlMem, exec_movAxMem]
  refine ⟨fun h => ?_, fun h => load8_fault .al h, fun h => load16_completes .ax h, fun h => load16_fault .ax h⟩
  obtain ⟨t, hnext, hal, hdtr, hframe⟩ := load8_completes .al h
  obtain ⟨_, ⟨hhalves, _⟩, _⟩ := id hframe
  exact ⟨t, hnext, hal, hhalves .ah nofun, hdtr, hframe⟩

/-- Settles O48: the stores to the direct address, of AL and of AX. -/
theorem accumulatorStoresRule : Obligations.AccumulatorStoresRule := by
  unfold Obligations.AccumulatorStoresRule
  exact fun s addr hw => ⟨fun h => store8_completes _ hw h, fun h => memWrite8_fault _ s _ h,
    fun h => store16_completes _ hw h, fun h => memWrite16_fault _ h⟩

/-- Settles O49: each is one register write. -/
theorem immediateMovesRule : Obligations.ImmediateMovesRule := by
  unfold Obligations.ImmediateMovesRule
  exact ⟨fun s d imm => setReg8_completes s d imm, fun s d imm => setReg16_completes s d imm⟩

/-- Settles O6: both execute as the one register write, and their opcode bytes differ. -/
theorem redundantEncodingsExecuteTheSame : Obligations.RedundantEncodingsExecuteTheSame := by
  unfold Obligations.RedundantEncodingsExecuteTheSame
  have hopcode : ∀ w : Bool, rmOpcode false w ≠ rmOpcode true w := by decide
  exact ⟨fun a b s => ⟨rfl, fun h => hopcode true (List.head_eq_of_cons_eq h)⟩,
    fun a b s => ⟨rfl, fun h => hopcode false (List.head_eq_of_cons_eq h)⟩, rfl, rfl⟩

/-! ### Changes that no operand access sees -/

/-- A change that commutes with a computation commutes with what follows it, if it does with each part. -/
theorem andThen_commutes {σ τ : Type} {x x' : Host.Outcome σ Fault Refusal} {g : σ → σ} {g' : τ → τ}
    {k k' : σ → Host.Outcome τ Fault Refusal} (hx : x' = andThen x fun a => .next (g a))
    (hk : ∀ a, k' (g a) = andThen (k a) fun b => .next (g' b)) :
    andThen x' k' = andThen (andThen x k) fun b => .next (g' b) := by
  rw [hx]
  cases x with
  | next a => exact hk a
  | fault f => rfl
  | refused r => rfl

/-- A change of the state outside what an operand access reads, which commutes with what it writes. -/
structure Invisible (g : State → State) : Prop where
  mem : ∀ s, (g s).mem = s.mem
  reg16 : ∀ s r, (g s).reg16 r = s.reg16 r
  seg : ∀ s r, (g s).seg r = s.seg r
  defseg : ∀ s, (g s).defseg = s.defseg
  ip : ∀ s, (g s).ip = s.ip
  memSize : ∀ s, (g s).cfg.memSize = s.cfg.memSize
  dataSegMode : ∀ s, (g s).cfg.dataSegMode = s.cfg.dataSegMode
  setDtr : ∀ s v, g (s.setDtr v) = (g s).setDtr v
  setMem : ∀ s m, g (s.setMem m) = (g s).setMem m
  setReg16 : ∀ s r v, g (s.setReg16 r v) = (g s).setReg16 r v

theorem invisible_setFlags (w : DWord) : Invisible (State.setFlags w) where
  mem _ := rfl
  reg16 s r := State.setFlags_reg16 s w r
  seg s r := by cases r <;> rfl
  defseg _ := rfl
  ip _ := rfl
  memSize _ := rfl
  dataSegMode _ := rfl
  setDtr _ _ := rfl
  setMem _ _ := rfl
  setReg16 s r v := by cases r <;> rfl

namespace Invisible

variable {g : State → State} (hg : Invisible g) (s : State)
include hg

theorem invalidAddress (a : Nat) : Machine.invalidAddress (g s) a = Machine.invalidAddress s a := by
  have hcs : (g s).cs = s.cs := hg.seg s .cs
  rw [Machine.invalidAddress, Machine.invalidAddress, hcs, hg.ip]

theorem isValidAddress (a : Nat) : Machine.isValidAddress (g s) a = Machine.isValidAddress s a := by
  rw [Machine.isValidAddress, Machine.isValidAddress, hg.memSize]

theorem reg8 (r : Reg8) : (g s).reg8 r = s.reg8 r := by
  rw [State.reg8, State.reg8, hg.reg16]

theorem setReg8 (r : Reg8) (v : Byte) : g (s.setReg8 r v) = (g s).setReg8 r v := by
  simp only [State.setReg8, hg.reg16, hg.setReg16]

theorem eaBase (b : EaBase) : Machine.eaBase (g s) b = Machine.eaBase s b := by
  have hreg := hg.reg16 s
  cases b with
  | bxSi => exact congrArg₂ (· + ·) (hreg .bx) (hreg .si)
  | bxDi => exact congrArg₂ (· + ·) (hreg .bx) (hreg .di)
  | bpSi => exact congrArg₂ (· + ·) (hreg .bp) (hreg .si)
  | bpDi => exact congrArg₂ (· + ·) (hreg .bp) (hreg .di)
  | si => exact hreg .si
  | di => exact hreg .di
  | bp => exact hreg .bp
  | bx => exact hreg .bx

theorem operandAddress (m : MemOperand) : Machine.operandAddress (g s) m = Machine.operandAddress s m := by
  have hea : effectiveAddress (g s) m = effectiveAddress s m := by
    cases m <;> simp only [effectiveAddress, hg.eaBase]
  have hss : (g s).ss = s.ss := hg.seg s .ss
  have hds : (g s).ds = s.ds := hg.seg s .ds
  have hseg : operandSegment (g s) m = operandSegment s m := by
    simp only [operandSegment, hg.dataSegMode, hg.defseg, hss, hds]
  rw [Machine.operandAddress, Machine.operandAddress, hea, hseg]

theorem memRead8 (a : Nat) :
    Machine.memRead8 a (g s) = andThen (Machine.memRead8 a s) fun p => .next (p.1, g p.2) := by
  unfold Machine.memRead8
  rw [hg.isValidAddress, hg.invalidAddress, hg.mem]
  split
  · rw [andThen_next, hg.setDtr]
  · rfl

theorem memRead16 (a : Nat) :
    Machine.memRead16 a (g s) = andThen (Machine.memRead16 a s) fun p => .next (p.1, g p.2) := by
  unfold Machine.memRead16
  simp only [hg.isValidAddress, hg.invalidAddress, hg.mem]
  split
  · split
    · rw [andThen_next, hg.setDtr]
    · rfl
  · rfl

theorem memWrite8 (a : Nat) (v : Byte) :
    Machine.memWrite8 a v (g s) = andThen (Machine.memWrite8 a v s) fun t => .next (g t) := by
  unfold Machine.memWrite8
  rw [hg.isValidAddress, hg.invalidAddress, hg.mem]
  split
  · rw [andThen_next, hg.setDtr, hg.setMem]
  · rfl

theorem memWrite16 (a : Nat) (v : Word) :
    Machine.memWrite16 a v (g s) = andThen (Machine.memWrite16 a v s) fun t => .next (g t) := by
  unfold Machine.memWrite16
  simp only [hg.isValidAddress, hg.invalidAddress, hg.mem]
  split
  · split
    · rw [andThen_next, hg.setDtr, hg.setMem]
    · rfl
  · rfl

theorem load8 (d : Reg8) (a : Nat) :
    Machine.load8 d a (g s) = andThen (Machine.load8 d a s) fun t => .next (g t) :=
  andThen_commutes (g := fun p => (p.1, g p.2)) (hg.memRead8 s a) fun p => by rw [andThen_next, hg.setReg8]

theorem load16 (d : Reg16) (a : Nat) :
    Machine.load16 d a (g s) = andThen (Machine.load16 d a s) fun t => .next (g t) :=
  andThen_commutes (g := fun p => (p.1, g p.2)) (hg.memRead16 s a) fun p => by rw [andThen_next, hg.setReg16]

/-! The six shapes of an instruction. -/

theorem movesToHalf (d : Reg8) {v v' : Byte} (h : v' = v) :
    (.next ((g s).setReg8 d v') : Next) = andThen (.next (s.setReg8 d v)) fun t => .next (g t) := by
  rw [andThen_next, hg.setReg8, h]

theorem movesToRegister (d : Reg16) {v v' : Word} (h : v' = v) :
    (.next ((g s).setReg16 d v') : Next) = andThen (.next (s.setReg16 d v)) fun t => .next (g t) := by
  rw [andThen_next, hg.setReg16, h]

theorem storesByte (m : MemOperand) {v v' : Byte} (h : v' = v) :
    Machine.memWrite8 (Machine.operandAddress (g s) m) v' (g s) =
      andThen (Machine.memWrite8 (Machine.operandAddress s m) v s) fun t => .next (g t) := by
  rw [hg.operandAddress, hg.memWrite8, h]

theorem storesWord (m : MemOperand) {v v' : Word} (h : v' = v) :
    Machine.memWrite16 (Machine.operandAddress (g s) m) v' (g s) =
      andThen (Machine.memWrite16 (Machine.operandAddress s m) v s) fun t => .next (g t) := by
  rw [hg.operandAddress, hg.memWrite16, h]

theorem loadsByte (d : Reg8) (m : MemOperand) :
    Machine.load8 d (Machine.operandAddress (g s) m) (g s) =
      andThen (Machine.load8 d (Machine.operandAddress s m) s) fun t => .next (g t) := by
  rw [hg.operandAddress, hg.load8]

theorem loadsWord (d : Reg16) (m : MemOperand) :
    Machine.load16 d (Machine.operandAddress (g s) m) (g s) =
      andThen (Machine.load16 d (Machine.operandAddress s m) s) fun t => .next (g t) := by
  rw [hg.operandAddress, hg.load16]

/-- An instruction does the same before the change as after it. -/
theorem exec (i : Instr) : Machine.exec i (g s) = andThen (Machine.exec i s) fun t => .next (g t) := by
  cases i with
  | movRm8R8 dst src => cases dst with
    | reg d => exact hg.movesToHalf s d (hg.reg8 s src)
    | mem m => exact hg.storesByte s m (hg.reg8 s src)
  | movRm16R16 dst src => cases dst with
    | reg d => exact hg.movesToRegister s d (hg.reg16 s src)
    | mem m => exact hg.storesWord s m (hg.reg16 s src)
  | movR8Rm8 d src => cases src with
    | reg r => exact hg.movesToHalf s d (hg.reg8 s r)
    | mem m => exact hg.loadsByte s d m
  | movR16Rm16 d src => cases src with
    | reg r => exact hg.movesToRegister s d (hg.reg16 s r)
    | mem m => exact hg.loadsWord s d m
  | movAlMem a => exact hg.loadsByte s .al (.direct a)
  | movAxMem a => exact hg.loadsWord s .ax (.direct a)
  | movMemAl a => exact hg.storesByte s (.direct a) (hg.reg8 s .al)
  | movMemAx a => exact hg.storesWord s (.direct a) (hg.reg16 s .ax)
  | movR8Imm8 d v => exact hg.movesToHalf s d rfl
  | movR16Imm16 d v => exact hg.movesToRegister s d rfl

end Invisible

/-- Settles O41: no operand access reads or writes FLAGS. -/
theorem noMovReadsOrWritesFlags : Obligations.NoMovReadsOrWritesFlags := by
  unfold Obligations.NoMovReadsOrWritesFlags
  intro i s
  refine ⟨fun t h => ?_, fun w => (invisible_setFlags w).exec s i⟩
  obtain ⟨hapart, _⟩ := exec_apart i s t h
  exact hapart.flags

end Sys2Proof.Machine
end

section
/-! The step (R141 to R149, R220 to R222, R259): its equations by kind, what it keeps, where it stops, and what it does
not read. -/

namespace Sys2Proof.Machine

/-! ### The step by kind -/

theorem step_of_fault {s : State} {f : Fault} (h : s.fault = some f) : step s = .fault f := by
  rw [step, clockedStep, h]
  rfl

/-- The PIC's answers after a boundary that takes no interrupt: "none pending" is used up (R228). -/
def picAfterBoundary : List (Option Byte) → List (Option Byte)
  | none :: rest => rest
  | some v :: rest => some v :: rest
  | [] => []

theorem passBoundary_eq_setPic (s : State) : passBoundary s = s.setPic (picAfterBoundary s.pic) := by
  have hself : s = s.setPic s.pic := rfl
  rw [passBoundary]
  split
  next rest hp => rw [hp]; rfl
  next v rest hp => rw [hp, picAfterBoundary, ← hp]; exact hself
  next hp => rw [hp, picAfterBoundary, ← hp]; exact hself

section
variable {s : State}

theorem clockedStep_instruction (hr : s.RunsInstruction) : clockedStep s = instructionStep (passBoundary s) := by
  obtain ⟨hnone, hquiet⟩ := hr
  rw [clockedStep, hnone]
  exact if_neg (by rw [hquiet]; exact Bool.false_ne_true)

theorem clockedStep_service {v : Byte} {rest : List (Option Byte)} (hnone : s.fault = none)
    (hi : interruptAccepted s = true) (hp : s.pic = some v :: rest) :
    clockedStep s = andThen (service v (s.setPic rest)) fun t => .next (Config.intClocks, t) := by
  have hnext : nextInt s = some (v, s.setPic rest) := by rw [nextInt, hp]
  rw [clockedStep, hnone]
  simp only [hi, if_true, hnext]

/-- At a boundary with an accepted interrupt the step is the service (R232). -/
theorem step_service {v : Byte} {rest : List (Option Byte)} (hnone : s.fault = none)
    (hi : interruptAccepted s = true) (hp : s.pic = some v :: rest) : step s = service v (s.setPic rest) := by
  rw [step, clockedStep_service hnone hi hp]
  cases service v (s.setPic rest) <;> rfl

/-- An instruction step whose bytes decode, with its clock cost (R141, R146). -/
theorem clockedStep_of_decodedAt_ok {i : Instr} {len : Nat} (hr : s.RunsInstruction) (hb : s.BurstValid)
    (h : decodedAt s = .ok (i, len)) :
    clockedStep s =
      andThen (exec i (fetched (passBoundary s))) fun t => .next (instrClocks s i, t.advanceIp len) := by
  rw [clockedStep_instruction hr, passBoundary_eq_setPic]
  rcases instructionStep_cases (s.setPic (picAfterBoundary s.pic)) with ⟨hshort, _⟩ | ⟨_, hinstr⟩
  · exact absurd hb hshort
  · have hdecoded : decodedAt (s.setPic (picAfterBoundary s.pic)) = .ok (i, len) := h
    rw [hinstr, hdecoded]
    rfl

/-- An instruction step whose bytes decode (R141). -/
theorem step_of_decodedAt_ok {i : Instr} {len : Nat} (hr : s.RunsInstruction) (hb : s.BurstValid)
    (h : decodedAt s = .ok (i, len)) :
    step s = andThen (exec i (fetched (passBoundary s))) fun t => .next (t.advanceIp len) := by
  rw [step, clockedStep_of_decodedAt_ok hr hb h]
  cases exec i (fetched (passBoundary s)) <;> rfl

/-- The vector of an accepted interrupt. -/
theorem pic_of_accepted (hi : interruptAccepted s = true) : ∃ v rest, s.pic = some v :: rest := by
  obtain ⟨v, rest, hp, _⟩ := nextInt_of_accepted s hi
  exact ⟨v, rest, hp⟩

end

/-- The length the decoder reports is the instruction's (R104, R138). -/
theorem length_of_decode_ok {q0 q1 q2 q3 : Byte} {i : Instr} {len : Nat} (h : decode q0 q1 q2 q3 = .ok (i, len)) :
    len = i.length := by
  obtain ⟨v, hv, rfl, rfl⟩ := decode_eq_ok h
  rw [Instr.length, (encode_of_decodeValue hv).2]

/-- Settles O27: the burst, the decoder and the instruction in turn. -/
theorem stepRunsDecodedInstruction : Obligations.StepRunsDecodedInstruction := by
  unfold Obligations.StepRunsDecodedInstruction
  exact fun s i len hr hb h => ⟨passBoundary_eq s, length_of_decode_ok h, step_of_decodedAt_ok hr hb h⟩

/-- Bytes that stand at a are the first of the four that the decoder reads there. -/
theorem take_of_bytesAt {m : Memory} {a : Nat} {bs : List Byte} (h : bytesAt m a bs) (hlen : bs.length ≤ 4) :
    [m.read a, m.read (a + 1), m.read (a + 2), m.read (a + 3)].take bs.length = bs := by
  match bs with
  | [] => rfl
  | [_] => simpa [bytesAt] using h
  | [_, _] => simpa [bytesAt] using h
  | [_, _, _] => simpa [bytesAt] using h
  | [_, _, _, _] => simpa [bytesAt] using h

theorem decodedAt_of_bytesAt {s : State} {i : Instr} (hi : i.WellFormed) (h : bytesAt s.mem s.pcAddress (encode i)) :
    decodedAt s = .ok (i, i.length) := by
  have hfour : i.length ≤ 4 := i.toValue.length_le
  have hlen := length_encode i
  exact decode_of_take_eq_encode hi (hlen ▸ take_of_bytesAt h (hlen ▸ hfour))

/-- Settles O28: the bytes at CS:IP decode to the instruction they encode. -/
theorem stepRunsEncodedInstruction : Obligations.StepRunsEncodedInstruction := by
  unfold Obligations.StepRunsEncodedInstruction
  exact fun s i hr hb hi h => step_of_decodedAt_ok hr hb (decodedAt_of_bytesAt hi h)

/-! ### What a step keeps -/

/-- Settles O31: a service loads CS:IP and clears flags of the state its pushes leave; an instruction writes none of
these elements. -/
theorem onlyServicesChangeCsAndFlags : Obligations.OnlyServicesChangeCsAndFlags := by
  unfold Obligations.OnlyServicesChangeCsAndFlags
  intro s t h
  rcases step_next_cases s t h with ⟨hnone, hi, v, rest, _, _, rfl⟩ | ⟨⟨hnone, _⟩, _, p, i, len, u, _, _, hexec, rfl⟩
  · simp [hnone, hi]
  · obtain ⟨hapart, _⟩ := exec_apart i _ u hexec
    exact ⟨hapart.ds, hapart.ss, hapart.es, hapart.defseg, hapart.cfg, hapart.fault.trans hnone, hapart.draws,
      fun _ => ⟨hapart.cs, hapart.flags⟩⟩

theorem Stored.keeps_wf {s t : State} (h : Stored s t) (hw : s.mem.wf = true) : t.mem.wf = true := by
  cases h with
  | nothing e => rwa [e]
  | byte a b ha e => rw [e]; exact Memory.wf_write _ _ _ hw
  | word a v ha e => rw [e]; exact Memory.wf_write _ _ _ (Memory.wf_write _ _ _ hw)

theorem Stored.keeps_within {s t : State} (h : Stored s t) (hin : s.mem.within s.cfg.memSize = true) :
    t.mem.within s.cfg.memSize = true := by
  cases h with
  | nothing e => rwa [e]
  | byte a b ha e => rw [e]; exact Memory.within_write _ _ _ _ hin ha
  | word a v ha e => rw [e]; exact Memory.within_write _ _ _ _ (Memory.within_write _ _ _ _ hin (by omega)) ha

theorem wf_framed {s : State} (hw : s.mem.wf = true) : (framed s).mem.wf = true := by
  have hpush : ∀ (v : Word) (u : State), u.mem.wf = true → (pushed v u).mem.wf = true := fun v u hu =>
    Memory.wf_write _ _ _ (Memory.wf_write _ _ _ hu)
  exact hpush _ _ (hpush _ _ (hpush _ _ hw))

/-- The three words of a frame that is pushed lie in memory. -/
theorem within_framed {s : State} (hframe : pushFrame s = .next (framed s)) (hw : s.mem.wf = true)
    (hin : s.mem.within s.cfg.memSize = true) : (framed s).mem.within s.cfg.memSize = true := by
  rcases pushFrame_cases s with ⟨_, h1, h2, h3⟩ | ⟨_, _, e⟩
  · obtain ⟨hw1, hin1⟩ := pushed_mem_ok (flagsLow s.flags) s hw hin h1
    obtain ⟨hw2, hin2⟩ := pushed_mem_ok (frameWords s).1 _ hw1 hin1 h2
    exact (pushed_mem_ok (frameWords s).2 _ hw2 hin2 h3).2
  · exact nomatch hframe.symm.trans e

/-- A step keeps the canonical form of memory, whatever else holds. -/
theorem step_keeps_wf {s t : State} (h : step s = .next t) (hw : s.mem.wf = true) : t.mem.wf = true := by
  rcases step_next_cases s t h with ⟨_, _, v, rest, _, _, rfl⟩ | ⟨_, _, p, i, len, u, _, _, hexec, rfl⟩
  · rw [entered_mem, serviceFlags_mem]
    exact wf_framed hw
  · obtain ⟨_, hstored⟩ := exec_apart i _ u hexec
    exact hstored.keeps_wf hw

theorem step_keeps_within {s t : State} (h : step s = .next t) (hw : s.mem.wf = true)
    (hin : s.mem.within s.cfg.memSize = true) : t.mem.within s.cfg.memSize = true := by
  rcases step_next_cases s t h with ⟨_, _, v, rest, _, hframe, rfl⟩ | ⟨_, _, p, i, len, u, _, _, hexec, rfl⟩
  · rw [entered_mem, serviceFlags_mem]
    exact within_framed (s := s.setPic rest) hframe hw hin
  · obtain ⟨_, hstored⟩ := exec_apart i _ u hexec
    exact hstored.keeps_within hin

theorem burstQueue_ok (s : State) : (burstQueue s).ok = true := by
  simp [Queue.ok, burstQueue]

/-- A service keeps the queue, and an instruction leaves the burst's, whose cursors agree (R40, R75). -/
theorem step_keeps_queue_ok {s t : State} (h : step s = .next t) (hq : s.queue.ok = true) : t.queue.ok = true := by
  rcases step_next_cases s t h with ⟨_, _, v, rest, _, _, rfl⟩ | ⟨_, _, p, i, len, u, _, _, hexec, rfl⟩
  · rw [entered_queue, serviceFlags_queue]
    exact hq
  · obtain ⟨hapart, _⟩ := exec_apart i _ u hexec
    have hqueue : (u.advanceIp len).queue = burstQueue (s.setPic p) := hapart.queue
    rw [hqueue]
    exact burstQueue_ok _

theorem step_keeps_cfg {s t : State} (h : step s = .next t) : t.cfg = s.cfg := by
  obtain ⟨_, _, _, _, hcfg, _⟩ := onlyServicesChangeCsAndFlags s t h
  exact hcfg

/-- Settles O32: each part of the invariant is kept by itself, the bounds of memory with its canonical form. -/
theorem everyStepKeepsTheInvariant : Obligations.EveryStepKeepsTheInvariant := by
  unfold Obligations.EveryStepKeepsTheInvariant
  rintro s t ⟨hwf, hin, hqueue, hreserved, hok⟩ h
  rw [State.Inv, step_keeps_cfg h, step_keeps_reserved h]
  exact ⟨step_keeps_wf h hwf, step_keeps_within h hwf hin, step_keeps_queue_ok h hqueue, hreserved, hok⟩

/-- A launch state has an empty queue and no flag set. -/
theorem inv_launch {c : Config} {m : Memory} (cells : Vector Byte 6) (hc : c.ok) (hw : m.wf = true)
    (hin : m.within c.memSize = true) : (State.launch c m cells).Inv := by
  refine ⟨hw, hin, rfl, ?_, hc⟩
  rw [State.launch_flags]
  exact BitVec.zero_and

/-- Settles O33: reset is the launch with the vector defaults and nothing in memory. -/
theorem resetMeetsTheInvariant : Obligations.ResetMeetsTheInvariant := by
  unfold Obligations.ResetMeetsTheInvariant
  exact ⟨inv_launch _ (by decide) rfl rfl, fun c m cells hc hw hin => inv_launch cells hc hw hin⟩

/-! ### Where a step stops -/

/-- All the ways a step ends without a next state: the fault recorded before, an address outside memory, or the byte
at CS:IP. None is a refusal. -/
theorem step_stops (s : State) :
    (∃ t, step s = .next t) ∨ (∃ f, s.fault = some f ∧ step s = .fault f) ∨
    (∃ a, s.cfg.memSize ≤ a ∧ step s = .fault (invalidAddress s a)) ∨
    (s.BurstValid ∧ interruptAccepted s = false ∧
      step s = .fault (.unrecognizedOpcode (s.mem.read s.pcAddress) s.cs s.ip)) := by
  cases hf : s.fault with
  | some f => exact .inr (.inl ⟨f, rfl, step_of_fault hf⟩)
  | none =>
    cases hi : interruptAccepted s with
    | true =>
      obtain ⟨v, rest, hp⟩ := pic_of_accepted hi
      rw [step_service hf hi hp]
      rcases service_cases v (s.setPic rest) with ⟨_, _, e⟩ | ⟨a, ha, e⟩
      · exact .inl ⟨_, e⟩
      · exact .inr (.inr (.inl ⟨a, ha, e⟩))
    | false =>
      have hr : s.RunsInstruction := ⟨hf, hi⟩
      by_cases hb : s.BurstValid
      · cases hd : decodedAt s with
        | error e => exact .inr (.inr (.inr ⟨hb, rfl, step_of_decodedAt_error hr hb hd⟩))
        | ok q =>
          rw [step_of_decodedAt_ok hr hb hd, passBoundary_eq_setPic]
          rcases exec_stops q.1 (fetched (s.setPic (picAfterBoundary s.pic))) with ⟨u, e⟩ | ⟨a, ha, e⟩ <;> rw [e]
          · exact .inl ⟨_, rfl⟩
          · exact .inr (.inr (.inl ⟨a, ha, rfl⟩))
      · exact .inr (.inr (.inl ⟨_, Nat.le_max_right _ _, step_of_not_burstValid s hr hb⟩))

/-- Settles O34: no way a step ends is a refusal. -/
theorem noStepIsRefused : Obligations.NoStepIsRefused := by
  unfold Obligations.NoStepIsRefused
  intro s r h
  rcases step_stops s with ⟨_, e⟩ | ⟨_, _, e⟩ | ⟨_, _, e⟩ | ⟨_, _, e⟩ <;> exact nomatch h.symm.trans e

/-- Settles O35: a core without a fault recorded stops in one of two ways. -/
theorem stepFaultsArePrecise : Obligations.StepFaultsArePrecise := by
  unfold Obligations.StepFaultsArePrecise
  intro s f hnone h
  rcases step_stops s with ⟨_, e⟩ | ⟨_, hf, _⟩ | ⟨a, ha, e⟩ | ⟨hb, hi, e⟩
  · exact nomatch h.symm.trans e
  · exact nomatch hnone.symm.trans hf
  · cases h.symm.trans e
    exact .inl ⟨a, ha, rfl⟩
  · cases h.symm.trans e
    exact .inr ⟨hb, hi, rfl⟩

/-! ### DTR and the old queue -/

/-- An instruction step starts with the burst, and two states with one burst make one step. -/
theorem step_eq_of_fillBurst_eq {s t : State} (hs : s.RunsInstruction) (ht : t.RunsInstruction)
    (h : fillBurst (passBoundary t) = fillBurst (passBoundary s)) : step t = step s := by
  rw [step, step, clockedStep_instruction hs, clockedStep_instruction ht, instructionStep, instructionStep, h]

/-- The burst overwrites DTR before anything reads it. -/
theorem fillBurst_setDtr (s : State) (v : Word) : fillBurst (s.setDtr v) = fillBurst s := by
  by_cases h : s.BurstValid
  · exact (fillBurst_next (s.setDtr v) h).trans (fillBurst_next s h).symm
  · exact (fillBurst_fault (s.setDtr v) h).trans (fillBurst_fault s h).symm

/-- The burst fills the queue anew. -/
theorem fillBurst_setQueue (s : State) (q : Queue) : fillBurst (s.setQueue q) = fillBurst s := by
  by_cases h : s.BurstValid
  · exact (fillBurst_next (s.setQueue q) h).trans (fillBurst_next s h).symm
  · exact (fillBurst_fault (s.setQueue q) h).trans (fillBurst_fault s h).symm

/-- The first push overwrites DTR. -/
theorem service_setDtr (n : Byte) (s : State) (v : Word) : service n (s.setDtr v) = service n s := rfl

/-- Settles O37: a step overwrites DTR with its first transfer. -/
theorem noStepReadsDtr : Obligations.NoStepReadsDtr := by
  unfold Obligations.NoStepReadsDtr
  intro s v
  cases hf : s.fault with
  | some f => rw [step_of_fault hf, step_of_fault (s := s.setDtr v) hf]
  | none =>
    cases hi : interruptAccepted s with
    | true =>
      obtain ⟨n, rest, hp⟩ := pic_of_accepted hi
      rw [step_service hf hi hp, step_service (s := s.setDtr v) hf hi hp]
      exact service_setDtr n (s.setPic rest) v
    | false =>
      have hr : s.RunsInstruction := ⟨hf, hi⟩
      refine step_eq_of_fillBurst_eq hr hr ?_
      rw [passBoundary_eq_setPic, passBoundary_eq_setPic]
      exact fillBurst_setDtr (s.setPic (picAfterBoundary s.pic)) v

/-! ### Changes that no step sees -/

/-- A change that no operand access and no interrupt service sees. -/
structure InvisibleToService (g : State → State) : Prop extends Invisible g where
  flags : ∀ s, (g s).flags = s.flags
  pushOrder : ∀ s, (g s).cfg.pushOrder = s.cfg.pushOrder
  intClearsIfTf : ∀ s, (g s).cfg.intClearsIfTf = s.cfg.intClearsIfTf
  setFlags : ∀ s w, g (s.setFlags w) = (g s).setFlags w
  setIp : ∀ s v, g (s.setIp v) = (g s).setIp v
  setCs : ∀ s v, g (s.setCs v) = (g s).setCs v

theorem invisibleToService_setQueue (q : Queue) : InvisibleToService (State.setQueue q) where
  mem _ := rfl
  reg16 s r := State.setQueue_reg16 s q r
  seg s r := by cases r <;> rfl
  defseg _ := rfl
  ip _ := rfl
  memSize _ := rfl
  dataSegMode _ := rfl
  setDtr _ _ := rfl
  setMem _ _ := rfl
  setReg16 s r v := by cases r <;> rfl
  flags _ := rfl
  pushOrder _ := rfl
  intClearsIfTf _ := rfl
  setFlags _ _ := rfl
  setIp _ _ := rfl
  setCs _ _ := rfl

/-- CLOCK_TABLE replaced (R259). -/
def setClocks (t : ClockTable) (s : State) : State := { s with cfg := { s.cfg with clocks := t } }

theorem invisibleToService_setClocks (t : ClockTable) : InvisibleToService (setClocks t) where
  mem _ := rfl
  reg16 s r := by cases r <;> rfl
  seg s r := by cases r <;> rfl
  defseg _ := rfl
  ip _ := rfl
  memSize _ := rfl
  dataSegMode _ := rfl
  setDtr _ _ := rfl
  setMem _ _ := rfl
  setReg16 s r v := by cases r <;> rfl
  flags _ := rfl
  pushOrder _ := rfl
  intClearsIfTf _ := rfl
  setFlags _ _ := rfl
  setIp _ _ := rfl
  setCs _ _ := rfl

namespace InvisibleToService

variable {g : State → State} (hg : InvisibleToService g) (s : State)
include hg

theorem push (v : Word) : Machine.push v (g s) = andThen (Machine.push v s) fun t => .next (g t) := by
  have hdec : (g s).decPtr .sp 2 = g (s.decPtr .sp 2) := by rw [State.decPtr, State.decPtr, hg.reg16, hg.setReg16]
  have hss : (g (s.decPtr .sp 2)).ss = (s.decPtr .sp 2).ss := hg.seg _ .ss
  have hsp : (g (s.decPtr .sp 2)).sp = (s.decPtr .sp 2).sp := hg.reg16 _ .sp
  simp only [Machine.push, hdec, hss, hsp]
  exact hg.memWrite16 _ _ _

theorem frameWords : Machine.frameWords (g s) = Machine.frameWords s := by
  have hcs : (g s).cs = s.cs := hg.seg s .cs
  rw [Machine.frameWords, Machine.frameWords, hg.pushOrder, hcs, hg.ip]

theorem pushFrame : Machine.pushFrame (g s) = andThen (Machine.pushFrame s) fun t => .next (g t) := by
  rw [Machine.pushFrame, Machine.pushFrame, hg.flags, hg.frameWords]
  exact andThen_commutes (hg.push s _) fun s1 => andThen_commutes (hg.push s1 _) fun s2 => hg.push s2 _

theorem serviceFlags : Machine.serviceFlags (g s) = g (Machine.serviceFlags s) := by
  rw [Machine.serviceFlags, Machine.serviceFlags, hg.intClearsIfTf, hg.flags]
  split
  · rw [hg.setFlags]
  · rfl

theorem enterVector (v : Byte) :
    Machine.enterVector v (g s) = andThen (Machine.enterVector v s) fun t => .next (g t) :=
  andThen_commutes (g := fun p => (p.1, g p.2)) (hg.memRead16 s _) fun newIp =>
    andThen_commutes (g := fun p => (p.1, g p.2)) (hg.memRead16 newIp.2 _) fun newCs => by
      rw [andThen_next]
      simp only [State.setSeg, hg.setIp, hg.setCs]

/-- A service does the same before the change as after it. -/
theorem service (v : Byte) : Machine.service v (g s) = andThen (Machine.service v s) fun t => .next (g t) :=
  andThen_commutes (hg.pushFrame s) fun s1 => by
    rw [hg.serviceFlags]
    exact hg.enterVector _ v

end InvisibleToService

/-- Settles O38: an instruction step's burst overwrites the queue, and a service does not see it. -/
theorem noStepReadsTheOldQueue : Obligations.NoStepReadsTheOldQueue := by
  unfold Obligations.NoStepReadsTheOldQueue
  refine ⟨fun s q hr => step_eq_of_fillBurst_eq hr hr ?_, fun s q hnone hi => ?_⟩
  · rw [passBoundary_eq_setPic, passBoundary_eq_setPic]
    exact fillBurst_setQueue (s.setPic (picAfterBoundary s.pic)) q
  · obtain ⟨v, rest, hp⟩ := pic_of_accepted hi
    rw [step_service hnone hi hp, step_service (s := s.setQueue q) hnone hi hp]
    exact (invisibleToService_setQueue q).service (s.setPic rest) v

/-- The effect of a step does not depend on CLOCK_TABLE (R260). -/
theorem step_setClocks (t : ClockTable) (s : State) :
    step (setClocks t s) = andThen (step s) fun u => .next (setClocks t u) := by
  have hg := invisibleToService_setClocks t
  cases hf : s.fault with
  | some f => rw [step_of_fault hf, step_of_fault (s := setClocks t s) hf, andThen_fault]
  | none =>
    cases hi : interruptAccepted s with
    | true =>
      obtain ⟨v, rest, hp⟩ := pic_of_accepted hi
      rw [step_service hf hi hp, step_service (s := setClocks t s) hf hi hp]
      exact hg.service (s.setPic rest) v
    | false =>
      have hr : s.RunsInstruction := ⟨hf, hi⟩
      have hr' : (setClocks t s).RunsInstruction := hr
      by_cases hb : s.BurstValid
      · have hb' : (setClocks t s).BurstValid := hb
        cases hd : decodedAt s with
        | error e =>
          rw [step_of_decodedAt_error hr hb hd, step_of_decodedAt_error (e := e) hr' hb' hd]
          rfl
        | ok q =>
          rw [step_of_decodedAt_ok hr hb hd, step_of_decodedAt_ok (i := q.1) (len := q.2) hr' hb' hd,
            passBoundary_eq_setPic, passBoundary_eq_setPic]
          exact andThen_commutes (hg.exec (fetched (s.setPic (picAfterBoundary s.pic))) q.1) fun u => rfl
      · have hb' : ¬(setClocks t s).BurstValid := hb
        rw [step_of_not_burstValid s hr hb, step_of_not_burstValid _ hr' hb']
        rfl

/-- Settles O39: CLOCK_TABLE is seen by no operand access and no service, and the clock cost is no part of a step's
answer. -/
theorem clockTableChangesNoEffect : Obligations.ClockTableChangesNoEffect := by
  unfold Obligations.ClockTableChangesNoEffect
  exact fun s t => step_setClocks t s

/-! ### The clock cost -/

/-- The EA clocks by mod and rm, as R259's table has them. -/
theorem eaClocks_of_rmOperand (t : ClockTable) {mod : BitVec 2} {r : BitVec 3} {disp : Word} {m : MemOperand}
    (h : rmOperand Reg16.ofNum mod r disp = .mem m) :
    eaClocks t m =
      if mod = 0 then
        if r = 6 then t.eaDirect else if r = 0 ∨ r = 3 then t.eaPairFast
        else if r = 1 ∨ r = 2 then t.eaPairSlow else t.eaSingle
      else if r = 0 ∨ r = 3 then t.eaPairFastDisp
      else if r = 1 ∨ r = 2 then t.eaPairSlowDisp else t.eaSingleDisp := by
  have hplain : eaClocksPlain t (EaBase.ofNum r) =
      if r = 0 ∨ r = 3 then t.eaPairFast else if r = 1 ∨ r = 2 then t.eaPairSlow else t.eaSingle := by
    rcases rm_cases r with rfl | rfl | rfl | rfl | rfl | rfl | rfl | rfl <;> rfl
  have hdisp : eaClocksDisp t (EaBase.ofNum r) =
      if r = 0 ∨ r = 3 then t.eaPairFastDisp else if r = 1 ∨ r = 2 then t.eaPairSlowDisp else t.eaSingleDisp := by
    rcases rm_cases r with rfl | rfl | rfl | rfl | rfl | rfl | rfl | rfl <;> rfl
  rcases modRm_cases mod r with ⟨rfl, rfl⟩ | ⟨rfl, h6⟩ | rfl | rfl | rfl
  · cases h; rfl
  · rw [rmOperand_base _ disp h6] at h
    cases h
    exact hplain.trans (if_neg h6).symm
  · cases h; exact hdisp
  · cases h; exact hdisp
  · cases h

/-- The step and its clock cost are one computation: what a step answers, its clocked form answers with the cost. -/
theorem clockedStep_of_step_next {s t : State} {n : Nat} {x : Next} {f : State → State}
    (hclocked : clockedStep s = andThen x fun u => .next (n, f u)) (h : step s = .next t) :
    clockedStep s = .next (n, t) := by
  rw [step, hclocked] at h
  rw [hclocked]
  cases x with
  | next u => cases h; rfl
  | fault r => cases h
  | refused r => cases h

/-- MOV AX, 1234 at CS:IP (R259, R260). -/
theorem clockedStep_movAxImm {s : State} (hok : s.cfg.ok) (hr : s.RunsInstruction) (hb : s.BurstValid)
    (h : bytesAt s.mem s.pcAddress [0xB8, 0x34, 0x12]) :
    clockedStep s =
      .next (4, ((fetched (passBoundary s)).setReg16 .ax 0x1234).advanceIp 3) := by
  have hdecoded : decodedAt s = .ok (.movR16Imm16 .ax 0x1234, 3) :=
    decodedAt_of_bytesAt (i := .movR16Imm16 .ax 0x1234) rfl h
  rw [clockedStep_of_decodedAt_ok hr hb hdecoded, ← hok.2]
  rfl

/-- Settles O40: the clocked step carries the cost of the instruction it decodes. -/
theorem stepReportsTheClockCost : Obligations.StepReportsTheClockCost := by
  unfold Obligations.StepReportsTheClockCost
  refine ⟨fun s t i len hr hb hd h => ?instr, fun s t hnone hi h => ?service, fun s r8 d8 r16 d16 m a v b => ?forms,
    fun t mod r disp m => eaClocks_of_rmOperand t, rfl, fun s hok hr hb h => ?b8⟩
  case instr => exact clockedStep_of_step_next (clockedStep_of_decodedAt_ok hr hb hd) h
  case service =>
    obtain ⟨v, rest, hp⟩ := pic_of_accepted hi
    exact clockedStep_of_step_next (f := id) (clockedStep_service hnone hi hp) h
  case forms => exact ⟨rfl, rfl, rfl, rfl, rfl, rfl, rfl, rfl, rfl, rfl, rfl, rfl, rfl, rfl⟩
  case b8 =>
    have hclocked := clockedStep_movAxImm hok hr hb h
    refine ⟨_, hclocked, ?_, rfl, ?_⟩
    · rw [step, hclocked, andThen_next]
    · rw [passBoundary_eq_setPic]
      rfl

end Sys2Proof.Machine
end

section
/-! The interrupt service (R226 to R234): when it is taken, the frame it pushes, where it faults, and the state it
leaves. -/

namespace Sys2Proof.Machine

/-! ### Acceptance -/

theorem hasInt_iff (s : State) : hasInt s = true ↔ ∃ v rest, s.pic = some v :: rest := by
  rw [hasInt]
  split
  next v rest hp => exact iff_of_true rfl ⟨v, rest, hp⟩
  next rest hp => exact iff_of_false Bool.false_ne_true (by rintro ⟨v, rest', e⟩; cases hp.symm.trans e)
  next hp => exact iff_of_false Bool.false_ne_true (by rintro ⟨v, rest', e⟩; cases hp.symm.trans e)

theorem interruptAccepted_iff (s : State) : interruptAccepted s = true ↔
    (∃ v rest, s.pic = some v :: rest) ∧ (s.cfg.intGatedByIf = false ∨ hasFlag .intEnable s.flags = true) := by
  rw [interruptAccepted, Bool.and_eq_true, hasInt_iff, Bool.or_eq_true, Bool.not_eq_true']

/-- A pending interrupt that is not accepted is still pending after the step. -/
theorem step_keeps_masked {s t : State} {v : Byte} {rest : List (Option Byte)} (hp : s.pic = some v :: rest)
    (hquiet : interruptAccepted s = false) (h : step s = .next t) : t.pic = s.pic := by
  rcases step_next_cases s t h with ⟨_, hi, _⟩ | ⟨_, _, p, i, len, u, hpass, _, hexec, rfl⟩
  · exact nomatch hquiet.symm.trans hi
  · obtain ⟨hapart, _⟩ := exec_apart i _ u hexec
    have hafter : p = picAfterBoundary s.pic := congrArg State.pic (hpass.symm.trans (passBoundary_eq_setPic s))
    calc u.pic = p := hapart.pic
      _ = s.pic := by rw [hafter, hp, picAfterBoundary]

/-- Settles O53: acceptance is a pending vector that IF does not mask, and a masked one stays in the PIC's answers. -/
theorem interruptAcceptance : Obligations.InterruptAcceptance := by
  unfold Obligations.InterruptAcceptance
  refine ⟨interruptAccepted_iff, rfl, fun s t v rest hp hgated hclear h => step_keeps_masked hp ?_ h⟩
  rw [interruptAccepted, hgated, hclear, Bool.not_true, Bool.or_self, Bool.and_false]

/-! ### The frame -/

/-- Where the word d below SP is pushed (R211, R229). -/
abbrev frameAddress (s : State) (d : Word) : Nat := lin s.ss (s.sp - d).toNat

theorem sp_sub_four (x : Word) : x - 2 - 2 = x - 4 := by rw [BitVec.sub_sub]; rfl
theorem sp_sub_six (x : Word) : x - 2 - 2 - 2 = x - 6 := by rw [BitVec.sub_sub, BitVec.sub_sub]; rfl

/-- The three words of a frame do not overlap: their offsets differ by 2 or 4 modulo 2^16. -/
theorem frameAddress_apart (s : State) :
    (frameAddress s 2 + 1 < frameAddress s 4 ∨ frameAddress s 4 + 1 < frameAddress s 2) ∧
    (frameAddress s 2 + 1 < frameAddress s 6 ∨ frameAddress s 6 + 1 < frameAddress s 2) ∧
    (frameAddress s 4 + 1 < frameAddress s 6 ∨ frameAddress s 6 + 1 < frameAddress s 4) := by
  have hsp := s.sp.isLt
  have h2 : (s.sp - 2).toNat = (0x10000 - 2 + s.sp.toNat) % 0x10000 := BitVec.toNat_sub ..
  have h4 : (s.sp - 4).toNat = (0x10000 - 4 + s.sp.toNat) % 0x10000 := BitVec.toNat_sub ..
  have h6 : (s.sp - 6).toNat = (0x10000 - 6 + s.sp.toNat) % 0x10000 := BitVec.toNat_sub ..
  simp only [frameAddress, lin, h2, h4, h6]
  omega

section
variable {s : State}

/-- The frame is pushed where its three words fit. -/
theorem pushFrame_next (h2 : accessible s (frameAddress s 2) 2) (h4 : accessible s (frameAddress s 4) 2)
    (h6 : accessible s (frameAddress s 6) 2) : pushFrame s = .next (framed s) := by
  rw [frameAddress, ← sp_sub_four] at h4
  rw [frameAddress, ← sp_sub_six] at h6
  rw [pushFrame, push_next _ s h2, andThen_next, push_next _ (pushed _ s) h4, andThen_next]
  exact push_next _ (pushed _ (pushed _ s)) h6

/-- The first word faults. -/
theorem pushFrame_fault_first (h2 : ¬accessible s (frameAddress s 2) 2) :
    pushFrame s = .fault (invalidAddress s (max (frameAddress s 2) s.cfg.memSize)) := by
  rw [pushFrame, push_fault _ h2, andThen_fault]

/-- The second word faults; the first push changed neither CS:IP nor MEM_SIZE. -/
theorem pushFrame_fault_second (h2 : accessible s (frameAddress s 2) 2) (h4 : ¬accessible s (frameAddress s 4) 2) :
    pushFrame s = .fault (invalidAddress s (max (frameAddress s 4) s.cfg.memSize)) := by
  rw [frameAddress, ← sp_sub_four] at h4 ⊢
  rw [pushFrame, push_next _ s h2, andThen_next, push_fault (s := pushed _ s) _ h4]
  rfl

/-- The third word faults. -/
theorem pushFrame_fault_third (h2 : accessible s (frameAddress s 2) 2) (h4 : accessible s (frameAddress s 4) 2)
    (h6 : ¬accessible s (frameAddress s 6) 2) :
    pushFrame s = .fault (invalidAddress s (max (frameAddress s 6) s.cfg.memSize)) := by
  rw [frameAddress, ← sp_sub_four] at h4
  rw [frameAddress, ← sp_sub_six] at h6 ⊢
  rw [pushFrame, push_next _ s h2, andThen_next, push_next _ (pushed _ s) h4, andThen_next,
    push_fault (s := pushed _ (pushed _ s)) _ h6]
  rfl

theorem enterVector_next {v : Byte} (h : accessible s (vectorEntry v) 4) :
    enterVector v s = .next (entered v s) := by
  have hip : accessible s (vectorEntry v) 2 := by omega
  have hcs : accessible (s.setDtr (vectorIp v s.mem)) (vectorEntry v + 2) 2 := h
  have hread := memRead16_next (vectorEntry v) s hip
  rw [← vectorIp] at hread
  rw [enterVector, hread, andThen_next, memRead16_next _ _ hcs]
  rfl

/-- Of the two words of the entry, the first that does not fit faults, and the first invalid address is the entry's
or MEM_SIZE either way (R230, R234). -/
theorem enterVector_fault {v : Byte} (h : ¬accessible s (vectorEntry v) 4) :
    enterVector v s = .fault (invalidAddress s (max (vectorEntry v) s.cfg.memSize)) := by
  by_cases hip : accessible s (vectorEntry v) 2
  · have hcs : ¬accessible (s.setDtr (leWord (s.mem.read (vectorEntry v)) (s.mem.read (vectorEntry v + 1))))
        (vectorEntry v + 2) 2 := h
    have hmax : max (vectorEntry v + 2) s.cfg.memSize = max (vectorEntry v) s.cfg.memSize := by omega
    rw [enterVector, memRead16_next _ s hip, andThen_next, memRead16_fault hcs, andThen_fault, State.setDtr_cfg, hmax]
    rfl
  · rw [enterVector, memRead16_fault hip, andThen_fault]

theorem service_of_pushFrame_fault {f : Fault} (v : Byte) (h : pushFrame s = .fault f) : service v s = .fault f := by
  rw [service, h, andThen_fault]

theorem service_next {v : Byte} (h2 : accessible s (frameAddress s 2) 2) (h4 : accessible s (frameAddress s 4) 2)
    (h6 : accessible s (frameAddress s 6) 2) (hv : accessible s (vectorEntry v) 4) :
    service v s = .next (entered v (serviceFlags (framed s))) := by
  have hv' : accessible (serviceFlags (framed s)) (vectorEntry v) 4 := by rwa [accessible, serviceFlags_cfg]
  rw [service, pushFrame_next h2 h4 h6, andThen_next, enterVector_next hv']

theorem service_fault_vector {v : Byte} (h2 : accessible s (frameAddress s 2) 2)
    (h4 : accessible s (frameAddress s 4) 2) (h6 : accessible s (frameAddress s 6) 2)
    (hv : ¬accessible s (vectorEntry v) 4) :
    service v s = .fault (invalidAddress s (max (vectorEntry v) s.cfg.memSize)) := by
  have hv' : ¬accessible (serviceFlags (framed s)) (vectorEntry v) 4 := by rwa [accessible, serviceFlags_cfg]
  rw [service, pushFrame_next h2 h4 h6, andThen_next, enterVector_fault hv', serviceFlags_cfg, invalidAddress,
    serviceFlags_cs, serviceFlags_ip]
  rfl

end

/-- Settles O55: the step is the service, whose pushes and vector reads fault in their order. -/
theorem serviceComesBeforeTheInstruction : Obligations.ServiceComesBeforeTheInstruction := by
  unfold Obligations.ServiceComesBeforeTheInstruction
  intro s v rest hnone hi hp
  rw [step_service hnone hi hp]
  refine ⟨rfl, fun b cs ip h => ?opcode, fun h2 => ?first, fun h2 h4 => ?second, fun h2 h4 h6 => ?third,
    fun h2 h4 h6 hv => ?vector⟩
  case opcode =>
    rcases service_cases v (s.setPic rest) with ⟨_, _, e⟩ | ⟨a, _, e⟩ <;> cases h.symm.trans e
  case first => exact service_of_pushFrame_fault v (pushFrame_fault_first (s := s.setPic rest) h2)
  case second => exact service_of_pushFrame_fault v (pushFrame_fault_second (s := s.setPic rest) h2 h4)
  case third => exact service_of_pushFrame_fault v (pushFrame_fault_third (s := s.setPic rest) h2 h4 h6)
  case vector => exact service_fault_vector (s := s.setPic rest) h2 h4 h6 hv

/-! ### The words of the frame -/

/-- The little-endian word at a (R67). -/
def wordAt (m : Memory) (a : Nat) : Word := leWord (m.read a) (m.read (a + 1))

theorem wordAt_storedWord {m : Memory} (hw : m.wf = true) (a : Nat) (v : Word) : wordAt (storedWord m a v) a = v := by
  rw [wordAt, read_storedWord_low m a v hw, read_storedWord_high m a v hw, leWord_bytes]

theorem wordAt_storedWord_apart (m : Memory) {a b : Nat} (v : Word) (h : a + 1 < b ∨ b + 1 < a) :
    wordAt (storedWord m b v) a = wordAt m a := by
  rw [wordAt, wordAt, read_storedWord_other m b v (by omega) (by omega),
    read_storedWord_other m b v (by omega) (by omega)]

theorem wf_storedWord {m : Memory} (hw : m.wf = true) (a : Nat) (v : Word) : (storedWord m a v).wf = true :=
  Memory.wf_write _ _ _ (Memory.wf_write _ _ _ hw)

/-- Memory after the three pushes. -/
theorem framed_mem (s : State) : (framed s).mem =
    storedWord (storedWord (storedWord s.mem (frameAddress s 2) (flagsLow s.flags)) (frameAddress s 4)
      (frameWords s).1) (frameAddress s 6) (frameWords s).2 := by
  rw [frameAddress, frameAddress, frameAddress, ← sp_sub_six, ← sp_sub_four]
  rfl

/-- The three words stand where they were pushed: no later push reaches an earlier word. -/
theorem wordAt_framed {s : State} (hw : s.mem.wf = true) :
    wordAt (framed s).mem (frameAddress s 2) = flagsLow s.flags ∧
    wordAt (framed s).mem (frameAddress s 4) = (frameWords s).1 ∧
    wordAt (framed s).mem (frameAddress s 6) = (frameWords s).2 := by
  obtain ⟨h24, h26, h46⟩ := frameAddress_apart s
  have hw2 := wf_storedWord hw (frameAddress s 2) (flagsLow s.flags)
  have hw4 := wf_storedWord hw2 (frameAddress s 4) (frameWords s).1
  rw [framed_mem]
  refine ⟨?_, ?_, wordAt_storedWord hw4 _ _⟩
  · rw [wordAt_storedWord_apart _ _ h26, wordAt_storedWord_apart _ _ h24, wordAt_storedWord hw]
  · rw [wordAt_storedWord_apart _ _ h46, wordAt_storedWord hw2]

/-- Every byte outside the frame is as before. -/
theorem read_framed_other {s : State} {x : Nat}
    (h : ∀ d : Word, d = 2 ∨ d = 4 ∨ d = 6 → x ≠ frameAddress s d ∧ x ≠ frameAddress s d + 1) :
    (framed s).mem.read x = s.mem.read x := by
  obtain ⟨h2, h2'⟩ := h 2 (.inl rfl)
  obtain ⟨h4, h4'⟩ := h 4 (.inr (.inl rfl))
  obtain ⟨h6, h6'⟩ := h 6 (.inr (.inr rfl))
  rw [framed_mem, read_storedWord_other _ _ _ h6 h6', read_storedWord_other _ _ _ h4 h4',
    read_storedWord_other _ _ _ h2 h2']

/-! ### The flags of a service -/

theorem serviceFlags_flags_kept {s : State} (h : s.cfg.intClearsIfTf = false) : (serviceFlags s).flags = s.flags := by
  rw [serviceFlags, h]
  rfl

theorem serviceFlags_flags_cleared {s : State} (h : s.cfg.intClearsIfTf = true) :
    (serviceFlags s).flags = putFlag .tf false (putFlag .intEnable false s.flags) := by
  rw [serviceFlags, h]
  rfl

/-- IF and TF are cleared and no other bit (R231). -/
theorem serviceFlags_clears {s : State} (h : s.cfg.intClearsIfTf = true) :
    hasFlag .intEnable (serviceFlags s).flags = false ∧ hasFlag .tf (serviceFlags s).flags = false ∧
    ∀ k, (Flag.mask .intEnable).getLsbD k = false → (Flag.mask .tf).getLsbD k = false →
      (serviceFlags s).flags.getLsbD k = s.flags.getLsbD k := by
  rw [serviceFlags_flags_cleared h]
  refine ⟨?_, hasFlag_putFlag .tf false _, fun k hif htf => ?_⟩
  · rw [hasFlag_putFlag_other .tf .intEnable false _ (by decide), hasFlag_putFlag]
  · rw [getLsbD_putFlag_other .tf false _ k htf, getLsbD_putFlag_other .intEnable false _ k hif]

/-- A service writes no operand register but SP. -/
theorem sameRegistersBut_service (v : Byte) (s : State) :
    sameRegistersBut .sp s (entered v (serviceFlags (framed s))) := by
  intro r hr
  cases r with
  | sp => exact absurd rfl hr
  | _ => simp [State.reg16]

/-- Settles O54: the service completes as `entered v (serviceFlags (framed s))`, whose elements are known one by
one. -/
theorem interruptServiceRule : Obligations.InterruptServiceRule := by
  unfold Obligations.InterruptServiceRule
  intro s v rest hnone hi hp hw h2 h4 h6 hv
  have hmem : (entered v (serviceFlags (framed (s.setPic rest)))).mem = (framed (s.setPic rest)).mem := by
    rw [entered_mem, serviceFlags_mem]
  have hflags : (entered v (serviceFlags (framed (s.setPic rest)))).flags =
      (serviceFlags (framed (s.setPic rest))).flags := entered_flags ..
  obtain ⟨hword2, hword4, hword6⟩ := wordAt_framed (s := s.setPic rest) hw
  refine ⟨entered v (serviceFlags (framed (s.setPic rest))), ?step, ?sp, ?pic, ?word2, ?word4, ?word6, ?outside,
    rfl, rfl, rfl, fun h => ?kept, fun h => ?cleared, sameRegistersBut_service v (s.setPic rest), ?rest⟩
  case step => exact (step_service hnone hi hp).trans (service_next (s := s.setPic rest) h2 h4 h6 hv)
  case sp => rw [entered_sp, serviceFlags_sp, framed_sp, sp_sub_six]; rfl
  case pic => rw [entered_pic, serviceFlags_pic, framed_pic, State.setPic_pic]
  case word2 => rw [hmem]; exact hword2
  case word4 =>
    rw [hmem]
    refine Eq.trans hword4 ?_
    rw [frameWords, State.setPic_cfg]
    cases s.cfg.pushOrder <;> rfl
  case word6 =>
    rw [hmem]
    refine Eq.trans hword6 ?_
    rw [frameWords, State.setPic_cfg]
    cases s.cfg.pushOrder <;> rfl
  case outside =>
    intro x hx
    rw [hmem]
    exact read_framed_other (s := s.setPic rest) hx
  case kept => exact hflags.trans (serviceFlags_flags_kept (s := framed (s.setPic rest)) h)
  case cleared =>
    rw [hflags]
    exact serviceFlags_clears (s := framed (s.setPic rest)) h
  case rest => simp [hnone]

end Sys2Proof.Machine
end

section
/-! The driver (R49, R79, R147, R148, R241): a fault ends a run, the memory it leaves, and several cores over one
memory. -/

namespace Sys2Proof.Machine

/-! ### A fault ends the run -/

theorem cpuStep_of_fault {s : State} {f : Fault} (h : s.fault = some f) : cpuStep s = s := by
  rw [cpuStep, h]

theorem run_of_fault {s : State} {f : Fault} (h : s.fault = some f) (n : Nat) : run n s = s := by
  induction n with
  | zero => rfl
  | succ n ih => rw [run, cpuStep_of_fault h, ih]

theorem cpuStep_of_step_fault {s : State} {f : Fault} (hnone : s.fault = none) (h : step s = .fault f) :
    cpuStep s = afterFault f s := by
  rw [cpuStep, hnone]
  simp only [h]

theorem run_succ_of_step_fault {s : State} {f : Fault} (hnone : s.fault = none) (h : step s = .fault f) (n : Nat) :
    run (n + 1) s = afterFault f s := by
  rw [run, cpuStep_of_step_fault hnone h]
  exact run_of_fault (afterFault_fault f s) n

/-- The bytes of the pushes before the first that faults: of the word d below SP, if it and every word nearer to SP
fit (R64, R211). -/
theorem mem_frameBytes (s : State) {ds : List Word} (hds : ds.Pairwise (· < ·)) (x : Nat) :
    x ∈ frameBytes s ds ↔ ∃ d ∈ ds, (∀ e ∈ ds, e ≤ d → accessible s (frameAddress s e) 2) ∧
      (x = frameAddress s d ∨ x = frameAddress s d + 1) := by
  induction ds with
  | nil => exact iff_of_false List.not_mem_nil (by rintro ⟨d, hd, _⟩; exact List.not_mem_nil hd)
  | cons d rest ih =>
    obtain ⟨hlt, hrest⟩ := List.pairwise_cons.1 hds
    have hle : ∀ d' ∈ d :: rest, d ≤ d' := fun d' hd' => by
      rcases List.mem_cons.1 hd' with rfl | hd'
      · exact BitVec.le_refl d'
      · exact BitVec.le_of_lt (hlt d' hd')
    by_cases hfits : accessible s (frameAddress s d) 2
    · have hbytes : frameBytes s (d :: rest) = frameAddress s d :: (frameAddress s d + 1) :: frameBytes s rest :=
        if_pos hfits
      rw [hbytes, List.mem_cons, List.mem_cons, ih hrest]
      constructor
      · rintro (hx | hx | ⟨d', hd', hall, hx⟩)
        · exact ⟨d, List.mem_cons_self, fun e he hed => BitVec.le_antisymm hed (hle e he) ▸ hfits, .inl hx⟩
        · exact ⟨d, List.mem_cons_self, fun e he hed => BitVec.le_antisymm hed (hle e he) ▸ hfits, .inr hx⟩
        · refine ⟨d', List.mem_cons_of_mem d hd', fun e he hed => ?_, hx⟩
          rcases List.mem_cons.1 he with rfl | he
          · exact hfits
          · exact hall e he hed
      · rintro ⟨d', hd', hall, hx⟩
        rcases List.mem_cons.1 hd' with rfl | hd'
        · exact hx.elim .inl (.inr ∘ .inl)
        · exact .inr (.inr ⟨d', hd', fun e he => hall e (List.mem_cons_of_mem d he), hx⟩)
    · have hbytes : frameBytes s (d :: rest) = [] := if_neg hfits
      rw [hbytes]
      refine iff_of_false List.not_mem_nil ?_
      rintro ⟨d', hd', hall, _⟩
      exact hfits (hall d List.mem_cons_self (hle d' hd'))

theorem mem_writtenBeforeFault (s : State) (x : Nat) : x ∈ writtenBeforeFault s ↔ interruptAccepted s = true ∧
    ∃ d ∈ ([2, 4, 6] : List Word), (∀ e ∈ ([2, 4, 6] : List Word), e ≤ d → accessible s (frameAddress s e) 2) ∧
      (x = frameAddress s d ∨ x = frameAddress s d + 1) := by
  rw [← mem_frameBytes s (by decide) x, writtenBeforeFault]
  cases interruptAccepted s <;> simp

/-- Settles O36: after the first call the fault stands, and memory differs in the bytes the pushes had written. -/
theorem aFaultEndsTheRun : Obligations.AFaultEndsTheRun := by
  unfold Obligations.AFaultEndsTheRun
  refine ⟨rfl, fun s f hnone h => ?_, mem_writtenBeforeFault, fun s f h => ⟨step_of_fault h, run_of_fault h⟩⟩
  have hrun := run_succ_of_step_fault hnone h
  refine ⟨fun n => ⟨?_, (hrun n).trans (hrun 0).symm⟩, fun hquiet => ?_, fun x hx => ?_⟩
  · rw [hrun, afterFault_fault]
  · rw [hrun 0, afterFault_mem, memoryAfterFault_instruction f s hquiet]
  · rw [hrun 0, afterFault_mem, read_memoryAfterFault f s hx]

/-! ### Several cores -/

theorem cpuStep_keeps_wf {s : State} (hw : s.mem.wf = true) : (cpuStep s).mem.wf = true := by
  rcases cpuStep_cases s with ⟨_, _, e⟩ | ⟨_, t, hstep, e⟩ | ⟨_, f, _, e⟩ | ⟨_, _, _, e⟩ <;> rw [e]
  · exact hw
  · exact step_keeps_wf hstep hw
  · exact wf_memoryAfterFault f s hw
  · exact hw

theorem stepCore_keeps_wf (k : Nat) {y : System} (hw : y.shared.wf = true) : (y.stepCore k).shared.wf = true := by
  cases h : y.cores[k]? with
  | none => rwa [System.stepCore_none h]
  | some c =>
    rw [System.stepCore_of h]
    exact cpuStep_keeps_wf (s := c.setMem y.shared) hw

theorem run_keeps_wf (ks : List Nat) {y : System} (hw : y.shared.wf = true) : (System.run ks y).shared.wf = true := by
  induction ks generalizing y with
  | nil => exact hw
  | cons k ks ih => exact ih (stepCore_keeps_wf k hw)

/-- Settles O59: a step of core k replaces the entry k and the shared memory by what the core's call leaves. -/
theorem coresShareOnlyMemory : Obligations.CoresShareOnlyMemory := by
  unfold Obligations.CoresShareOnlyMemory
  refine ⟨fun y k c hk => ?_, fun ks y => run_keeps_wf ks⟩
  obtain ⟨hlt, _⟩ := List.getElem?_eq_some_iff.1 hk
  rw [System.stepCore_of hk]
  refine ⟨fun j hj => List.getElem?_set_ne (Ne.symm hj), rfl, List.getElem?_set_self hlt, fun f hf => ?_,
    fun f hnone h => ?_⟩
  · exact congrArg State.mem (cpuStep_of_fault (s := c.setMem y.shared) hf)
  · have hcall := cpuStep_of_step_fault (s := c.setMem y.shared) hnone h
    simp only [hcall, afterFault_mem]
    exact ⟨fun hquiet => memoryAfterFault_instruction f (c.setMem y.shared) hquiet,
      fun x hx => read_memoryAfterFault f (c.setMem y.shared) hx⟩

end Sys2Proof.Machine
end

section
/-! Reset, boot and the port space (R84, R223, R239, R250 to R255). -/

namespace Sys2Proof.Machine

/-! ### Reset -/

/-- Settles O56: the reset state is a launch with the memory there was, and its first burst starts at linear 0. -/
theorem resetAction : Obligations.ResetAction := by
  unfold Obligations.ResetAction
  intro s
  refine ⟨fun r => by cases r <;> rfl, fun g => by cases g <;> rfl, rfl, rfl, rfl, rfl, rfl, rfl, rfl, rfl, rfl, rfl,
    fun h => ?_⟩
  have hentry : (cpuReset s).pcAddress = 0 := rfl
  have hvalid : (cpuReset s).BurstValid := by rwa [State.BurstValid, hentry, Nat.zero_add]
  refine ⟨_, fillBurst_next _ hvalid, fun k hk => ?_⟩
  rw [fetched_queue, peek_burstQueue _ hk, hentry, Nat.zero_add]
  rfl

/-! ### Numerals -/

/-- A string with a character that is no digit spells nothing. -/
theorem not_spells_of_mem {radix n : Nat} {digits : List (Char × Nat)} {cs : List Char} {c : Char} (hc : c ∈ cs)
    (hnone : digits.lookup c = none) : ¬spells radix digits cs n := by
  rintro ⟨_, vs, hvs, _⟩
  have hmem : digits.lookup c ∈ vs.map some := hvs ▸ List.mem_map_of_mem hc
  obtain ⟨v, _, hv⟩ := List.mem_map.1 hmem
  exact nomatch hv.trans hnone

/-- The two forms of a base: a hexadecimal numeral after 0x or 0X, and a decimal one (R254). -/
theorem parseBase_eq_some (cs : List Char) (n : Nat) : parseBase cs = some n ↔
    spells 10 decimalDigits cs n ∨
    ∃ x ds, cs = '0' :: x :: ds ∧ (x = 'x' ∨ x = 'X') ∧ spells 16 hexDigits ds n := by
  match cs with
  | [] =>
    refine iff_of_false nofun ?_
    rintro (⟨h, _⟩ | ⟨_, _, h, _⟩)
    · exact h rfl
    · cases h
  | [c] =>
    rw [parseBase, numeralOf_eq_some decDigit_eq]
    refine ⟨.inl, ?_⟩
    rintro (h | ⟨_, _, h, _⟩)
    · exact h
    · cases h
  | c0 :: c1 :: rest =>
    rw [parseBase]
    split
    next h =>
      obtain ⟨rfl, hx⟩ := h
      rw [numeralOf_eq_some hexDigit_eq]
      have hnodigit : decimalDigits.lookup c1 = none := by rcases hx with rfl | rfl <;> decide
      refine ⟨fun h => .inr ⟨c1, rest, rfl, hx, h⟩, ?_⟩
      rintro (h | ⟨_, _, h, _, hspells⟩)
      · exact absurd h (not_spells_of_mem (List.mem_cons_of_mem _ List.mem_cons_self) hnodigit)
      · cases h; exact hspells
    next h =>
      rw [numeralOf_eq_some decDigit_eq]
      refine ⟨.inl, ?_⟩
      rintro (hspells | ⟨_, _, e, hx, _⟩)
      · exact hspells
      · cases e; exact absurd ⟨rfl, hx⟩ h

/-! ### Components -/

/-- A component that gives an image is loaded at its base. -/
theorem loadConfigured_of_loadable (name : Component) {c : Option ComponentConfig} {size base : Nat}
    {image : List Byte} (m : Memory) (h : loadable size c base image) :
    loadConfigured name c size m = .next (m.load base image) := by
  rcases loadConfigured_cases name c size m with ⟨base', image', h', e⟩ | ⟨hnone, _⟩
  · rw [e, load_of_loadable m h' h]
  · exact absurd ⟨base, image, h⟩ hnone

/-- A component that gives no image is refused. -/
theorem loadConfigured_of_not_loadable (name : Component) {c : Option ComponentConfig} {size : Nat} (m : Memory)
    (h : ¬∃ base image, loadable size c base image) :
    ∃ e, loadConfigured name c size m = .fault (.configurationError name e) := by
  rcases loadConfigured_cases name c size m with ⟨base, image, h', _⟩ | ⟨_, e⟩
  · exact absurd ⟨base, image, h'⟩ h
  · exact e

/-- Why a configuration gives no image (R254). -/
theorem not_loadable_iff (size : Nat) (c : ComponentConfig) : (¬∃ base image, loadable size (some c) base image) ↔
    c.resource = .missing ∨ c.resource = .unreadable ∨ c.base = none ∨
      (∃ cs, c.base = some cs ∧ parseBase cs = none) ∨
      ∃ bytes cs base, c.resource = .image bytes ∧ c.base = some cs ∧ parseBase cs = some base ∧
        size < base + bytes.length := by
  obtain ⟨cb, cr⟩ := c
  unfold loadable
  cases cr with
  | missing => simp
  | unreadable => simp
  | image bytes =>
    cases cb with
    | none => simp
    | some cs => cases hbase : parseBase cs <;> simp [hbase]

/-- Settles O57: a component is refused exactly when its configuration gives no image, and else its image is
loaded. -/
theorem bootLoadRule : Obligations.BootLoadRule := by
  unfold Obligations.BootLoadRule
  refine ⟨parseBase_eq_some, fun name c size m hw => ⟨?_, fun bytes cs base hresource hbase hparse hfits => ?_⟩⟩
  · rw [← not_loadable_iff]
    refine ⟨fun ⟨e, he⟩ ⟨base, image, h⟩ => ?_, loadConfigured_of_not_loadable name (c := some c) m⟩
    exact nomatch he.symm.trans (loadConfigured_of_loadable name m h)
  · have hload : loadable size (some c) base bytes := ⟨hresource, ⟨cs, hbase, hparse⟩, hfits⟩
    refine ⟨_, loadConfigured_of_loadable name m hload, fun k hk => ?_, fun x hx => ?_⟩
    · rw [Memory.read_load base bytes m _ hw, if_pos ⟨Nat.le_add_right _ _, by omega⟩, Nat.add_sub_cancel_left]
    · rw [Memory.read_load base bytes m _ hw, if_neg (by omega)]

/-! ### Boot -/

section
variable {memInit : Memory} {b : BootConfig} {s : State}

theorem boot_next {base1 base2 : Nat} {image1 image2 : List Byte}
    (h1 : loadable s.cfg.memSize b.bios base1 image1) (h2 : loadable s.cfg.memSize b.bootloader base2 image2) :
    boot memInit b s = .next (cpuReset (s.setMem ((memInit.load base1 image1).load base2 image2))) := by
  rw [boot, loadConfigured_of_loadable .bios memInit h1, andThen_next, loadConfigured_of_loadable .bootloader _ h2,
    andThen_next]

theorem boot_fault_bios (h1 : ¬∃ base image, loadable s.cfg.memSize b.bios base image) :
    ∃ e, boot memInit b s = .fault (.configurationError .bios e) := by
  obtain ⟨e, he⟩ := loadConfigured_of_not_loadable .bios memInit h1
  exact ⟨e, by rw [boot, he, andThen_fault]⟩

theorem boot_fault_bootloader {base : Nat} {image : List Byte} (h1 : loadable s.cfg.memSize b.bios base image)
    (h2 : ¬∃ base2 image2, loadable s.cfg.memSize b.bootloader base2 image2) :
    ∃ e, boot memInit b s = .fault (.configurationError .bootloader e) := by
  obtain ⟨e, he⟩ := loadConfigured_of_not_loadable .bootloader (memInit.load base image) h2
  exact ⟨e, by rw [boot, loadConfigured_of_loadable .bios memInit h1, andThen_next, he, andThen_fault]⟩

/-- The only faults of a boot are its components' (R223). -/
theorem boot_eq_fault {f : Fault} (h : boot memInit b s = .fault f) : ∃ name e, f = .configurationError name e := by
  by_cases h1 : ∃ base image, loadable s.cfg.memSize b.bios base image
  · obtain ⟨base1, image1, h1⟩ := h1
    by_cases h2 : ∃ base image, loadable s.cfg.memSize b.bootloader base image
    · obtain ⟨base2, image2, h2⟩ := h2
      exact nomatch h.symm.trans (boot_next h1 h2)
    · obtain ⟨e, he⟩ := boot_fault_bootloader (memInit := memInit) h1 h2
      cases h.symm.trans he
      exact ⟨_, e, rfl⟩
  · obtain ⟨e, he⟩ := boot_fault_bios (memInit := memInit) h1
    cases h.symm.trans he
    exact ⟨_, e, rfl⟩

theorem powerUp_of_next {t : State} (h : boot memInit b s = .next t) : powerUp memInit b s = t := by
  rw [powerUp, h]

theorem powerUp_fault {f : Fault} (h : boot memInit b s = .fault f) : (powerUp memInit b s).fault = some f := by
  rw [powerUp, h]
  rfl

end

/-- Settles O58: the two loads in order decide what memory reads, and a refused one stops boot with FAULT set. -/
theorem bootOrder : Obligations.BootOrder := by
  unfold Obligations.BootOrder
  intro s memInit b hw
  refine ⟨fun base1 base2 image1 image2 h1 h2 => ?_, boot_fault_bios, fun base image => boot_fault_bootloader,
    fun f h => ?_⟩
  · have hboot := boot_next (memInit := memInit) h1 h2
    refine ⟨_, hboot, powerUp_of_next hboot, fun x => ?_, rfl⟩
    exact (Memory.read_load base2 image2 _ x (Memory.wf_load base1 image1 memInit hw)).trans
      (by rw [Memory.read_load base1 image1 memInit x hw])
  · have hfault := powerUp_fault h
    exact ⟨boot_eq_fault h, hfault, step_of_fault hfault, run_of_fault hfault⟩

/-! ### The port space -/

/-- Settles O60: each transfer is `forward` by definition, and a call of the core is none. -/
theorem portTransfersAreForwarded : Obligations.PortTransfersAreForwarded := by
  unfold Obligations.PortTransfersAreForwarded
  exact fun c p => ⟨⟨_, rfl, rfl⟩, ⟨_, rfl, rfl⟩, fun _ => rfl, fun _ => rfl,
    fun x => ⟨forward_core c x, forward_peripherals c x, forward_forwarded c x⟩, cpu_step_core c, cpu_step_array c⟩

end Sys2Proof.Machine
end
